-- ==== Sys2Proof/Word.lean ====
section
/-! DEFINITION. The word types of the block (spec/00_scope.md R7): unsigned integers of 4, 8, 16 and
32 bits, whose arithmetic is modulo 2^N; and what a sample is stored as. -/

namespace Sys2Proof

/-- `U8` and `Byte` of R7. -/
abbrev Byte := BitVec 8

/-- One hex digit's value (`lnk.addrMsb`, R29; `HEXVAL`, R83). -/
abbrev Nibble := BitVec 4

/-- `U16` of R7. -/
abbrev U16 := BitVec 16

/-- `U32` of R7: timestamps and the tick counter (R28, D5). -/
abbrev U32 := BitVec 32

/-- A number of the 32-bit binary floating-point format, the sample type of the reference binding
`B32` (R9). -/
abbrev F32 := BitVec 32

/-- A sample as the machine stores it: the raw pattern of a value of the sample type, as bytes, of
any length. The type itself is a parameter (R5, R9): the configuration's binding says which byte
strings are its values (`sampleLegal`) and what the operations do to them (DESIGN CHOICE, safe,
log 5). -/
abbrev Sample := List Byte

end Sys2Proof
end

