-- ==== Sys2Proof/Config.lean ====
section
/-! DEFINITION. The parameters of the block (spec/00_scope.md R5), when a configuration is well
formed (R6), the record of sample arithmetic (R9), and the free values: opaque constants of which
nothing can be proved but that they are functions of their arguments. -/

namespace Sys2Proof

/-- The two physical sensors (R10, R24); operand code 0 is OPC and 1 is MOX (R91). -/
inductive Sensor
  | opc
  | mox
  deriving DecidableEq, Repr

/-- The two averagers of a channel (R25); operand code 0 is inner and 1 is outer (R91). -/
inductive Stage
  | inner
  | outer
  deriving DecidableEq, Repr

/-- The record of the sample type's operations (R9). The machine assumes nothing of them but that
each depends on its operands alone. -/
structure SampleArith (S : Type) where
  szero : S
  sadd : S → S → S
  ssub : S → S → S
  sdivn : S → Nat → S
  slt0 : S → Bool
  trunc16 : S → U16
  bits32 : S → U32

/-- The parameter `SampleArith` (R5, D4), a field of the configuration: the reference binding `B32` of
R9, or the `k`-th of countless others, whose samples are byte strings of any length and of whose
operations nothing is known (log 5). A statement over every configuration holds for every binding;
one about a particular binding assumes of the `k`-th what it needs. -/
inductive SampleBinding
  | b32
  | uninterpreted (k : Nat)
  deriving DecidableEq, Repr

/-- The operations of `B32` that can give a NaN. -/
inductive SampleOp
  | add
  | sub
  | div
  deriving DecidableEq, Repr

/-- One entry of the postscaler table (R93). -/
structure LutEntry where
  factor : Byte
  inner : Byte
  outer : Byte
  deriving DecidableEq, Repr

/-- `CAP_INNER(c)` and `CAP_OUTER(c)` of one channel (R5). -/
structure ChannelCaps where
  inner : Nat
  outer : Nat
  deriving DecidableEq, Repr

/-- The parameters of R5. They are constants of the machine: no operation writes one (R35, R70). -/
structure Config where
  nch : Nat
  partition : Nat
  chTemp : Nat
  chVol : Nat
  caps : List ChannelCaps
  lut : List LutEntry
  arith : SampleBinding
  moxMinPrescaler : Byte
  smpResetPrescaler : Byte
  defaultPrescaler : Byte
  nvPreBase : Nat
  nvInnerBase : Nat
  nvOuterBase : Nat
  protoVersion : Byte
  rxBufSize : Nat
  txBufSize : Nat
  frameTimeout : Nat
  ledFlash : Nat
  ledIdle : Nat
  /-- `HEXVAL`: what the bytes 'a' to 'f', in that order, mean as hex digits (R83). -/
  lowerHex : List (Option Nibble)
  deriving DecidableEq, Repr

namespace Config

/-- `CAP_INNER(c)`. -/
def capInner (c : Config) (ch : Nat) : Nat := (c.caps.getD ch ⟨0, 0⟩).inner

/-- `CAP_OUTER(c)`. -/
def capOuter (c : Config) (ch : Nat) : Nat := (c.caps.getD ch ⟨0, 0⟩).outer

/-- The factor of a depth, "treating depth 0 as factor 1" (R6(b), R25). -/
def depthFactor (d : Byte) : Nat := if d.toNat = 0 then 1 else d.toNat

/-- R6(a): every capacity is 1..256. -/
abbrev CapsLegal (c : Config) : Prop :=
  c.caps.length = c.nch ∧
  ∀ k ∈ c.caps, 1 ≤ k.inner ∧ k.inner ≤ 256 ∧ 1 ≤ k.outer ∧ k.outer ≤ 256

/-- R6(b), one entry of `LUT`. -/
abbrev LutEntryLegal (c : Config) (e : LutEntry) : Prop :=
  1 ≤ e.factor.toNat ∧ e.factor.toNat = depthFactor e.inner * depthFactor e.outer ∧
  ∀ k ∈ c.caps, e.inner.toNat < k.inner ∧ e.outer.toNat < k.outer

/-- R6(b): `LUT` is non-empty and strictly ascending, and every entry is legal. -/
abbrev LutLegal (c : Config) : Prop :=
  c.lut ≠ [] ∧ c.lut.Pairwise (fun e e' => e.factor.toNat < e'.factor.toNat) ∧
  ∀ e ∈ c.lut, c.LutEntryLegal e

/-- R6(c): the channel indices. -/
abbrev ChannelsLegal (c : Config) : Prop :=
  c.chTemp < c.partition ∧ c.chVol < c.partition ∧ c.partition ≤ c.nch ∧ c.nch ≤ 256 ∧
  c.chTemp ≠ c.chVol

/-- R6(d): `PROTO_VERSION` is none of the four framing bytes of R82. -/
abbrev VersionLegal (c : Config) : Prop :=
  c.protoVersion ≠ 0x5B#8 ∧ c.protoVersion ≠ 0x5D#8 ∧
  c.protoVersion ≠ 0x28#8 ∧ c.protoVersion ≠ 0x29#8

/-- R6(e): buffer sizes and indicator limits. -/
abbrev SizesLegal (c : Config) : Prop :=
  5 ≤ c.rxBufSize ∧ 19 ≤ c.txBufSize ∧ c.ledFlash < c.ledIdle

/-- Two address ranges of `NV`, given by base and size, have no address in common. -/
abbrev Apart (b n b' n' : Nat) : Prop := b + n ≤ b' ∨ b' + n' ≤ b

/-- R6(f): the three `NV` arrays (R66) do not overlap. -/
abbrev NvLegal (c : Config) : Prop :=
  Apart c.nvPreBase 2 c.nvInnerBase c.nch ∧ Apart c.nvPreBase 2 c.nvOuterBase c.nch ∧
  Apart c.nvInnerBase c.nch c.nvOuterBase c.nch

/-- R6(g): the capacities are the same for all OPC channels. -/
abbrev CapsUniform (c : Config) : Prop :=
  ∀ k ∈ c.caps.take c.partition, k = c.caps.getD 0 ⟨0, 0⟩

/-- A well-formed configuration (R6). -/
abbrev WF (c : Config) : Prop :=
  c.CapsLegal ∧ c.LutLegal ∧ c.ChannelsLegal ∧ c.VersionLegal ∧ c.SizesLegal ∧ c.NvLegal ∧
  c.CapsUniform

end Config

/-- `LUT_REF` of R93: the spec's own example table, not the hardware's. -/
def lutRef : List LutEntry :=
  [⟨1, 0, 0⟩, ⟨2, 2, 0⟩, ⟨4, 2, 2⟩, ⟨6, 3, 2⟩, ⟨10, 5, 2⟩, ⟨20, 5, 4⟩, ⟨60, 10, 6⟩]

/-- The configuration TCFG of spec/95_test_vectors.md section 0. DESIGN CHOICE (unsafe, log 4): the
OPEN parameters of R5 have these values in `State.reset`; no statement rests on them. -/
def referenceConfig : Config where
  nch := 22
  partition := 21
  chTemp := 19
  chVol := 20
  caps := List.replicate 22 ⟨16, 16⟩
  lut := lutRef
  arith := .b32
  moxMinPrescaler := 10
  smpResetPrescaler := 0
  defaultPrescaler := 5
  nvPreBase := 0
  nvInnerBase := 16
  nvOuterBase := 48
  protoVersion := 0x30
  rxBufSize := 16
  txBufSize := 19
  frameTimeout := 50
  ledFlash := 5
  ledIdle := 1000
  lowerHex := []

/-- The registers to which reset gives no value (R36, U2). -/
inductive FreeSlot
  | lastAvg (c : Nat) (st : Stage)
  | lastTs (c : Nat) (st : Stage)
  | runTs (s : Sensor)
  | latTs (s : Sensor)
  | frameStart
  | addrMsb
  | rxBuf (i : Nat)
  | txBuf (i : Nat)
  | ledSince
  deriving DecidableEq, Repr

/-- Free value (log 10): what a register without a reset value holds after the reset numbered by the
first argument (R36: "an arbitrary value of its type (a draw)"). -/
opaque Config.freeWord : Nat → FreeSlot → BitVec 32

/-- Free value (log 10): the same for a register that holds a sample, under the `k`-th uninterpreted
binding. -/
opaque Config.openFree : Nat → Nat → FreeSlot → Sample

/-- Free value (log 8): `trunc16` outside `0 <= x < 65536`, "any value of U16, a function of x
alone" (U3). -/
opaque Config.freeTrunc : F32 → U16

/-- Free value (log 7): the sign and payload of a NaN that an operation of `B32` gives. -/
opaque Config.freeNaN : SampleOp → F32 → F32 → BitVec 32

/-- The `k`-th uninterpreted binding of `SampleArith` (log 5): free values, functions of the binding
and the operands. -/
opaque Config.openZero : Nat → Sample
@[inherit_doc Config.openZero] opaque Config.openAdd : Nat → Sample → Sample → Sample
@[inherit_doc Config.openZero] opaque Config.openSub : Nat → Sample → Sample → Sample
@[inherit_doc Config.openZero] opaque Config.openDiv : Nat → Sample → Nat → Sample
@[inherit_doc Config.openZero] opaque Config.openNegative : Nat → Sample → Bool
@[inherit_doc Config.openZero] opaque Config.openTrunc : Nat → Sample → U16
@[inherit_doc Config.openZero] opaque Config.openBits : Nat → Sample → U32

end Sys2Proof
end

