-- ==== Sys2Proof/Syntax.lean ====
section
/-! DEFINITION. The operations of the block as syntax: one constructor for each row of
spec/opcode_table.json (spec/30_encoding.md R91, R86, R88). -/

namespace Sys2Proof

/-- An averager operand: a channel index and a stage (R91). -/
structure AvgRef where
  channel : Byte
  stage : Stage
  deriving DecidableEq, Repr

/-- The operations. The first thirty are the operation port's (R91), the next twelve the wire
commands (R86), the last the error reply (R88). A wire command carries the characters of its
parameters, high digit first (R84): which characters are hex digits is a parameter of the
configuration (R83), so it is settled when the command runs. -/
inductive Instr
  | sysReset
  | sysTickIrq
  | avgInit (a : AvgRef)
  | avgSetDepth (a : AvgRef) (d : Byte)
  | avgCollect (a : AvgRef) (v : Sample) (ts : U32)
  | avgLastAvg (a : AvgRef)
  | avgLastCum (a : AvgRef)
  | avgLastTs (a : AvgRef)
  | avgGetDepth (a : AvgRef)
  | lutResolve (req : Byte)
  | chSetPost (c : Byte) (req : Byte)
  | chGetPost (c : Byte)
  | chFeed (c : Byte) (v : Sample) (ts : U32)
  | chLast (c : Byte)
  | bankCorrect
  | bankRestart
  | bankEnableSampling (on : Bool)
  | chLoadPreset (c : Byte)
  | chSavePreset (c : Byte)
  | smpTick (x : Sensor)
  | smpTask (x : Sensor) (hret : Bool)
  | smpSetPre (x : Sensor) (e : Byte)
  | smpGetPre (x : Sensor)
  | chSetPre (c : Byte) (e : Byte)
  | chGetPre (c : Byte)
  | lnkRx (b : Byte)
  | lnkPoll
  | lnkTx
  | lnkLedEnable
  | cmdDispatch (payload : List Byte)
  | cmdE
  | cmdI (c1 c0 : Byte)
  | cmdS
  | cmdX
  | cmdP (c1 c0 e1 e0 : Byte)
  | cmdQ (c1 c0 : Byte)
  | cmdO (c1 c0 r1 r0 : Byte)
  | cmdN (c1 c0 : Byte)
  | cmdG (c1 c0 : Byte)
  | cmdY (c1 c0 : Byte)
  | cmdL (c1 c0 : Byte)
  | cmdW (c1 c0 : Byte)
  | errorReply
  deriving DecidableEq, Repr

/-- The twelve command ids (R86). -/
inductive CmdId
  | E | I | S | X | P | Q | O | N | G | Y | L | W
  deriving DecidableEq, Repr

/-- The reasons a committed frame is answered with `*` (R243). They are names, not state (R241). -/
inductive CmdError
  | emptyPayload
  | unknownId
  | shortParams
  | badHex
  | handlerFailed
  deriving DecidableEq, Repr

/-- The reasons a frame in progress is dropped (R242). They are names, not state (R241). -/
inductive FrameAbort
  | timeout
  | headerRestart
  | badVersion
  | badAddressChar
  | addressMismatch
  | overflow
  deriving DecidableEq, Repr

/-- The thirty operations of the operation port (R91). -/
inductive OpCode
  | sysReset | sysTickIrq
  | avgInit | avgSetDepth | avgCollect | avgLastAvg | avgLastCum | avgLastTs | avgGetDepth
  | lutResolve | chSetPost | chGetPost | chFeed | chLast | bankCorrect | bankRestart
  | bankEnableSampling | chLoadPreset | chSavePreset
  | smpTick | smpTask | smpSetPre | smpGetPre | chSetPre | chGetPre
  | lnkRx | lnkPoll | lnkTx | lnkLedEnable
  | cmdDispatch
  deriving DecidableEq, Repr

/-- Why a request at the operation port names no operation (U6). -/
inductive DecodeError
  | emptyRequest
  | unknownCode (code : Byte)
  | missingOperand
  | extraOperand
  | noSuchStage (b : Byte)
  | noSuchSensor (b : Byte)
  | notABool (b : Byte)
  deriving DecidableEq, Repr

/-- Where the environment presents an operation: at the operation port (R91), or as a payload at the
command table (R84, R86). -/
inductive Port
  | operation
  | command
  deriving DecidableEq, Repr

/-- The port a row of the table belongs to (its "format"). -/
def Instr.port : Instr → Port
  | .sysReset | .sysTickIrq | .avgInit _ | .avgSetDepth _ _ | .avgCollect _ _ _ | .avgLastAvg _
  | .avgLastCum _ | .avgLastTs _ | .avgGetDepth _ | .lutResolve _ | .chSetPost _ _ | .chGetPost _
  | .chFeed _ _ _ | .chLast _ | .bankCorrect | .bankRestart | .bankEnableSampling _
  | .chLoadPreset _ | .chSavePreset _ | .smpTick _ | .smpTask _ _ | .smpSetPre _ _ | .smpGetPre _
  | .chSetPre _ _ | .chGetPre _ | .lnkRx _ | .lnkPoll | .lnkTx | .lnkLedEnable
  | .cmdDispatch _ => .operation
  | .cmdE | .cmdI _ _ | .cmdS | .cmdX | .cmdP _ _ _ _ | .cmdQ _ _ | .cmdO _ _ _ _ | .cmdN _ _
  | .cmdG _ _ | .cmdY _ _ | .cmdL _ _ | .cmdW _ _ | .errorReply => .command

end Sys2Proof
end

