-- ==== Sys2Proof/WellFormed.lean ====
section
/-! DEFINITION. Which operations are well formed under a configuration: an averager operand names an
averager (U6), a sample operand is a value of the sample type (R91), a feed names a channel (U5), a
payload fits the receive buffer and holds neither frame delimiter (spec/30_encoding.md R80, R84;
opcode table, CMD.DISPATCH). Every other operand is legal at every value of its type. -/

namespace Sys2Proof

/-- The channel exists (R24: channel index < total channel count). -/
abbrev channelExists (c : Config) (ch : Byte) : Bool := decide (ch.toNat < c.nch)

/-- The byte string is the pattern of a value of the sample type (R9, R91): under `B32` it has the "4
bytes" of a 32-bit float; under an uninterpreted binding every string is one (log 5). -/
def sampleLegal (c : Config) (v : Sample) : Bool :=
  match c.arith with
  | .b32 => v.length == 4
  | .uninterpreted _ => true

/-- A payload a committed frame can hold (R80). -/
def payloadLegal (c : Config) (p : List Byte) : Bool :=
  decide (p.length ≤ c.rxBufSize) && p.all (fun b => b != 0x5B#8 && b != 0x5D#8)

/-- The check, over every constructor. -/
def Instr.wellFormed (c : Config) : Instr → Bool
  | .avgInit a => channelExists c a.channel
  | .avgSetDepth a _ => channelExists c a.channel
  | .avgCollect a v _ => channelExists c a.channel && sampleLegal c v
  | .avgLastAvg a => channelExists c a.channel
  | .avgLastCum a => channelExists c a.channel
  | .avgLastTs a => channelExists c a.channel
  | .avgGetDepth a => channelExists c a.channel
  | .chFeed ch v _ => channelExists c ch && sampleLegal c v
  | .cmdDispatch p => payloadLegal c p
  | .sysReset | .sysTickIrq | .lutResolve _ | .chSetPost _ _ | .chGetPost _ | .chLast _
  | .bankCorrect | .bankRestart | .bankEnableSampling _ | .chLoadPreset _ | .chSavePreset _
  | .smpTick _ | .smpTask _ _ | .smpSetPre _ _ | .smpGetPre _ | .chSetPre _ _ | .chGetPre _
  | .lnkRx _ | .lnkPoll | .lnkTx | .lnkLedEnable | .cmdE | .cmdI _ _ | .cmdS | .cmdX
  | .cmdP _ _ _ _ | .cmdQ _ _ | .cmdO _ _ _ _ | .cmdN _ _ | .cmdG _ _ | .cmdY _ _ | .cmdL _ _
  | .cmdW _ _ | .errorReply => true

end Sys2Proof
end

