-- ==== Sys2Proof/Decode.lean ====
section
/-! DEFINITION. From bytes to operations and back (spec/30_encoding.md). The operation port's codes
are R91's; its operands are typed values there, and their bytes are the model's own DESIGN CHOICE
(safe, log 1): in the order of R91, one byte for a `U8`, stage, sensor or Bool, four bytes most
significant first for a `U32`, a payload as the rest of the request, and a `Sample`, which has as
many bytes as its type needs, as all that stands before the timestamp. The wire commands'
ids, parameter counts and characters are R84 and R86. -/

namespace Sys2Proof

/-! ### Bytes of a word -/

/-- The four bytes of a 32-bit value, most significant first (R62). -/
def u32Bytes (w : U32) : List Byte :=
  [w.extractLsb' 24 8, w.extractLsb' 16 8, w.extractLsb' 8 8, w.extractLsb' 0 8]

/-- The 32-bit value of four bytes, most significant first. -/
def u32OfBytes (a b c d : Byte) : U32 := a ++ b ++ c ++ d

def stageByte : Stage → Byte
  | .inner => 0
  | .outer => 1

def sensorByte : Sensor → Byte
  | .opc => 0
  | .mox => 1

def boolByte : Bool → Byte
  | false => 0
  | true => 1

/-- Stage operand: 0 inner, 1 outer (R91); anything else names no averager (U6). -/
def stageOfByte (b : Byte) : Except DecodeError Stage :=
  if b = 0 then .ok .inner else if b = 1 then .ok .outer else .error (.noSuchStage b)

/-- Sensor operand: 0 OPC, 1 MOX (R91); anything else is refused (U6). -/
def sensorOfByte (b : Byte) : Except DecodeError Sensor :=
  if b = 0 then .ok .opc else if b = 1 then .ok .mox else .error (.noSuchSensor b)

def boolOfByte (b : Byte) : Except DecodeError Bool :=
  if b = 0 then .ok false else if b = 1 then .ok true else .error (.notABool b)

/-! ### The operation port (R91) -/

/-- The code of an operation: bits 7:4 name the unit family, bits 3:0 the operation (R91). -/
def OpCode.code : OpCode → Byte
  | .sysReset => 0x00
  | .sysTickIrq => 0x01
  | .avgInit => 0x10
  | .avgSetDepth => 0x11
  | .avgCollect => 0x12
  | .avgLastAvg => 0x13
  | .avgLastCum => 0x14
  | .avgLastTs => 0x15
  | .avgGetDepth => 0x16
  | .lutResolve => 0x20
  | .chSetPost => 0x21
  | .chGetPost => 0x22
  | .chFeed => 0x23
  | .chLast => 0x24
  | .bankCorrect => 0x25
  | .bankRestart => 0x26
  | .bankEnableSampling => 0x27
  | .chLoadPreset => 0x28
  | .chSavePreset => 0x29
  | .smpTick => 0x30
  | .smpTask => 0x31
  | .smpSetPre => 0x32
  | .smpGetPre => 0x33
  | .chSetPre => 0x34
  | .chGetPre => 0x35
  | .lnkRx => 0x40
  | .lnkPoll => 0x41
  | .lnkTx => 0x42
  | .lnkLedEnable => 0x43
  | .cmdDispatch => 0x50

/-- The rows of R91, in its order. -/
def opCodes : List OpCode :=
  [.sysReset, .sysTickIrq, .avgInit, .avgSetDepth, .avgCollect, .avgLastAvg, .avgLastCum, .avgLastTs,
   .avgGetDepth, .lutResolve, .chSetPost, .chGetPost, .chFeed, .chLast, .bankCorrect, .bankRestart,
   .bankEnableSampling, .chLoadPreset, .chSavePreset, .smpTick, .smpTask, .smpSetPre, .smpGetPre,
   .chSetPre, .chGetPre, .lnkRx, .lnkPoll, .lnkTx, .lnkLedEnable, .cmdDispatch]

/-- The operation a code names, if R91 lists the code. -/
def opCode? (code : Byte) : Option OpCode := opCodes.find? (fun op => op.code == code)

/-- How many bytes an operation's operands take beside a sample or a payload, whose length is open. -/
def OpCode.operandBytes : OpCode → Nat
  | .sysReset | .sysTickIrq | .bankCorrect | .bankRestart | .lnkPoll | .lnkTx | .lnkLedEnable
  | .cmdDispatch => 0
  | .lutResolve | .chGetPost | .chLast | .bankEnableSampling | .chLoadPreset | .chSavePreset
  | .smpTick | .smpGetPre | .chGetPre | .lnkRx => 1
  | .avgInit | .avgLastAvg | .avgLastCum | .avgLastTs | .avgGetDepth | .chSetPost | .smpTask
  | .smpSetPre | .chSetPre => 2
  | .avgSetDepth => 3
  | .chFeed => 5
  | .avgCollect => 6

/-- The operations with an operand of open length: a sample or a payload. -/
def OpCode.openOperand : OpCode → Bool
  | .avgCollect | .chFeed | .cmdDispatch => true
  | .sysReset | .sysTickIrq | .avgInit | .avgSetDepth | .avgLastAvg | .avgLastCum | .avgLastTs
  | .avgGetDepth | .lutResolve | .chSetPost | .chGetPost | .chLast | .bankCorrect | .bankRestart
  | .bankEnableSampling | .chLoadPreset | .chSavePreset | .smpTick | .smpTask | .smpSetPre
  | .smpGetPre | .chSetPre | .chGetPre | .lnkRx | .lnkPoll | .lnkTx | .lnkLedEnable => false

/-- Reads the operand bytes of a request. -/
abbrev OperandReader := List Byte → Except DecodeError Instr

/-- No operand is left. -/
def readEnd (i : Instr) : OperandReader
  | [] => .ok i
  | _ :: _ => .error .extraOperand

/-- The next operand is a `U8`. -/
def readByte (k : Byte → OperandReader) : OperandReader
  | b :: bs => k b bs
  | [] => .error .missingOperand

/-- The next operand is a `U32`. -/
def readWord (k : U32 → OperandReader) : OperandReader
  | a :: b :: c :: d :: bs => k (u32OfBytes a b c d) bs
  | _ => .error .missingOperand

/-- The last operands are a `Sample` and a `U32`: the timestamp is the last four bytes, the sample all
that stands before them. -/
def readSampleTime (k : Sample → U32 → Instr) : OperandReader := fun bs =>
  readWord (fun ts => readEnd (k (bs.take (bs.length - 4)) ts)) (bs.drop (bs.length - 4))

/-- The next operand is a sensor. -/
def readSensor (k : Sensor → OperandReader) : OperandReader :=
  readByte fun b bs =>
    match sensorOfByte b with
    | .ok x => k x bs
    | .error e => .error e

/-- The next operand is a Bool. -/
def readBool (k : Bool → OperandReader) : OperandReader :=
  readByte fun b bs =>
    match boolOfByte b with
    | .ok x => k x bs
    | .error e => .error e

/-- The next operand is an averager. -/
def readAvg (k : AvgRef → OperandReader) : OperandReader :=
  readByte fun c => readByte fun st bs =>
    match stageOfByte st with
    | .ok x => k ⟨c, x⟩ bs
    | .error e => .error e

/-- The operands of each operation, in the order of R91. `SMP.TASK` always has its `hret` byte: the
spec's examples write `SMP.TASK s, -` for a sampler with no bound handler, and what stands for the
dash is the model's choice, either Bool (DESIGN CHOICE, safe, log 25). -/
def readOperands : OpCode → OperandReader
  | .sysReset => readEnd .sysReset
  | .sysTickIrq => readEnd .sysTickIrq
  | .avgInit => readAvg fun a => readEnd (.avgInit a)
  | .avgSetDepth => readAvg fun a => readByte fun d => readEnd (.avgSetDepth a d)
  | .avgCollect => readAvg fun a => readSampleTime (.avgCollect a)
  | .avgLastAvg => readAvg fun a => readEnd (.avgLastAvg a)
  | .avgLastCum => readAvg fun a => readEnd (.avgLastCum a)
  | .avgLastTs => readAvg fun a => readEnd (.avgLastTs a)
  | .avgGetDepth => readAvg fun a => readEnd (.avgGetDepth a)
  | .lutResolve => readByte fun req => readEnd (.lutResolve req)
  | .chSetPost => readByte fun c => readByte fun req => readEnd (.chSetPost c req)
  | .chGetPost => readByte fun c => readEnd (.chGetPost c)
  | .chFeed => readByte fun c => readSampleTime (.chFeed c)
  | .chLast => readByte fun c => readEnd (.chLast c)
  | .bankCorrect => readEnd .bankCorrect
  | .bankRestart => readEnd .bankRestart
  | .bankEnableSampling => readBool fun on => readEnd (.bankEnableSampling on)
  | .chLoadPreset => readByte fun c => readEnd (.chLoadPreset c)
  | .chSavePreset => readByte fun c => readEnd (.chSavePreset c)
  | .smpTick => readSensor fun x => readEnd (.smpTick x)
  | .smpTask => readSensor fun x => readBool fun hret => readEnd (.smpTask x hret)
  | .smpSetPre => readSensor fun x => readByte fun e => readEnd (.smpSetPre x e)
  | .smpGetPre => readSensor fun x => readEnd (.smpGetPre x)
  | .chSetPre => readByte fun c => readByte fun e => readEnd (.chSetPre c e)
  | .chGetPre => readByte fun c => readEnd (.chGetPre c)
  | .lnkRx => readByte fun b => readEnd (.lnkRx b)
  | .lnkPoll => readEnd .lnkPoll
  | .lnkTx => readEnd .lnkTx
  | .lnkLedEnable => readEnd .lnkLedEnable
  | .cmdDispatch => fun payload => .ok (.cmdDispatch payload)

/-- Read a request at the operation port. "Every other code is no operation; the model refuses it"
(R91). -/
def decodeOp : List Byte → Except DecodeError Instr
  | [] => .error .emptyRequest
  | code :: operands =>
    match opCode? code with
    | some op => readOperands op operands
    | none => .error (.unknownCode code)

/-! ### The command table (R86) -/

/-- The id byte of a command (R86; the bytes are R82's). -/
def CmdId.byte : CmdId → Byte
  | .E => 0x45
  | .I => 0x49
  | .S => 0x53
  | .X => 0x58
  | .P => 0x50
  | .Q => 0x51
  | .O => 0x4F
  | .N => 0x4E
  | .G => 0x47
  | .Y => 0x59
  | .L => 0x4C
  | .W => 0x57

/-- The parameter count `k` of a command (R86). -/
def CmdId.params : CmdId → Nat
  | .E | .S | .X => 0
  | .I | .Q | .N | .G | .Y | .L | .W => 1
  | .P | .O => 2

/-- The rows of `CMDTAB`, in the order of R86; the tag stands for the handler (R218). -/
def cmdTable : List CmdId := [.E, .I, .S, .X, .P, .Q, .O, .N, .G, .Y, .L, .W]

/-- The command whose id is exactly the byte (R86: 'e' is not `E`). -/
def cmdOfByte? (id : Byte) : Option CmdId := cmdTable.find? (fun cmd => cmd.byte == id)

/-- The first three checks of the dispatch, in the order of R200: the command and the characters of
its parameters. Bytes beyond the parameters are ignored (R84). -/
def parsePayload : List Byte → Except CmdError (CmdId × List Byte)
  | [] => .error .emptyPayload
  | id :: ps =>
    match cmdOfByte? id with
    | none => .error .unknownId
    | some cmd =>
      if ps.length < 2 * cmd.params then .error .shortParams
      else .ok (cmd, ps.take (2 * cmd.params))

/-- The operation a command id and its parameter characters stand for. -/
def commandInstr : CmdId → List Byte → Instr
  | .E, _ => .cmdE
  | .I, p => .cmdI (p.getD 0 0) (p.getD 1 0)
  | .S, _ => .cmdS
  | .X, _ => .cmdX
  | .P, p => .cmdP (p.getD 0 0) (p.getD 1 0) (p.getD 2 0) (p.getD 3 0)
  | .Q, p => .cmdQ (p.getD 0 0) (p.getD 1 0)
  | .O, p => .cmdO (p.getD 0 0) (p.getD 1 0) (p.getD 2 0) (p.getD 3 0)
  | .N, p => .cmdN (p.getD 0 0) (p.getD 1 0)
  | .G, p => .cmdG (p.getD 0 0) (p.getD 1 0)
  | .Y, p => .cmdY (p.getD 0 0) (p.getD 1 0)
  | .L, p => .cmdL (p.getD 0 0) (p.getD 1 0)
  | .W, p => .cmdW (p.getD 0 0) (p.getD 1 0)

/-- The operation a payload stands for: a command, or the error reply when the dispatch raises one
of its first three errors (R200, R249; DEDUCED, safe, log 18: the payload `*` is among these, R88). -/
def decodePayload (p : List Byte) : Instr :=
  match parsePayload p with
  | .ok (cmd, ps) => commandInstr cmd ps
  | .error _ => .errorReply

/-- Read what the environment presents at a port. -/
def decodeAt : Port → List Byte → Except DecodeError Instr
  | .operation, bs => decodeOp bs
  | .command, bs => .ok (decodePayload bs)

/-! ### Encoding -/

def avgRefBytes (a : AvgRef) : List Byte := [a.channel, stageByte a.stage]

/-- The bytes of an operation at its port: the code of R91 and its operands, or the id of R86 and
its parameter characters. -/
def encode : Instr → List Byte
  | .sysReset => [0x00]
  | .sysTickIrq => [0x01]
  | .avgInit a => 0x10 :: avgRefBytes a
  | .avgSetDepth a d => 0x11 :: avgRefBytes a ++ [d]
  | .avgCollect a v ts => 0x12 :: avgRefBytes a ++ (v ++ u32Bytes ts)
  | .avgLastAvg a => 0x13 :: avgRefBytes a
  | .avgLastCum a => 0x14 :: avgRefBytes a
  | .avgLastTs a => 0x15 :: avgRefBytes a
  | .avgGetDepth a => 0x16 :: avgRefBytes a
  | .lutResolve req => [0x20, req]
  | .chSetPost c req => [0x21, c, req]
  | .chGetPost c => [0x22, c]
  | .chFeed c v ts => 0x23 :: c :: (v ++ u32Bytes ts)
  | .chLast c => [0x24, c]
  | .bankCorrect => [0x25]
  | .bankRestart => [0x26]
  | .bankEnableSampling on => [0x27, boolByte on]
  | .chLoadPreset c => [0x28, c]
  | .chSavePreset c => [0x29, c]
  | .smpTick x => [0x30, sensorByte x]
  | .smpTask x hret => [0x31, sensorByte x, boolByte hret]
  | .smpSetPre x e => [0x32, sensorByte x, e]
  | .smpGetPre x => [0x33, sensorByte x]
  | .chSetPre c e => [0x34, c, e]
  | .chGetPre c => [0x35, c]
  | .lnkRx b => [0x40, b]
  | .lnkPoll => [0x41]
  | .lnkTx => [0x42]
  | .lnkLedEnable => [0x43]
  | .cmdDispatch payload => 0x50 :: payload
  | .cmdE => [0x45]
  | .cmdI c1 c0 => [0x49, c1, c0]
  | .cmdS => [0x53]
  | .cmdX => [0x58]
  | .cmdP c1 c0 e1 e0 => [0x50, c1, c0, e1, e0]
  | .cmdQ c1 c0 => [0x51, c1, c0]
  | .cmdO c1 c0 r1 r0 => [0x4F, c1, c0, r1, r0]
  | .cmdN c1 c0 => [0x4E, c1, c0]
  | .cmdG c1 c0 => [0x47, c1, c0]
  | .cmdY c1 c0 => [0x59, c1, c0]
  | .cmdL c1 c0 => [0x4C, c1, c0]
  | .cmdW c1 c0 => [0x57, c1, c0]
  | .errorReply => [0x2A]

/-! ### Words numbered as spec/opcode_table.json numbers them -/

/-- The bytes of a table word: bits 7:0 are the first byte, bits 15:8 the second, and so on. -/
def wordBytes (nbits w : Nat) : List Byte :=
  (List.range ((nbits + 7) / 8)).map (fun i => BitVec.ofNat 8 (w >>> (8 * i)))

/-- The bytes, lengthened with zeros to `n`. -/
def padTo (n : Nat) (bs : List Byte) : List Byte := bs ++ List.replicate (n - bs.length) 0

/-- The bytes of the zero sample a table word stands for: the four of `B32`. -/
def OpCode.tableSampleBytes (op : OpCode) : Nat :=
  if op = .avgCollect ∨ op = .chFeed then 4 else 0

/-- The port and the bytes of the operation a table word stands for, the operand bytes the word does
not give being zero. A first byte that R91 lists goes to the operation port, any other id of R86,
and `*`, to the command table. 0x50 is both `CMD.DISPATCH` and the id `P`; the operation port wins
(DESIGN CHOICE, safe, log 2). -/
def tableRequest (nbits w : Nat) : Port × List Byte :=
  let bs := wordBytes nbits w
  let first := bs.getD 0 0
  match opCode? first, cmdOfByte? first with
  | some op, _ => (.operation, padTo (1 + op.operandBytes + op.tableSampleBytes) bs)
  | none, some cmd => (.command, padTo (1 + 2 * cmd.params) bs)
  | none, none => (if first = 0x2A then .command else .operation, bs)

/-- What the decoder reads from a table word; nothing where it refuses. -/
def decodeTableWord (nbits w : Nat) : Option Instr :=
  match decodeAt (tableRequest nbits w).1 (tableRequest nbits w).2 with
  | .ok i => some i
  | .error _ => none

end Sys2Proof
end

