-- ==== Sys2Proof/Machine/Arith.lean ====
section
/-! DEFINITION. Sample arithmetic (spec/00_scope.md R9): the reference binding `B32`, computed, and
the uninterpreted bindings. Every finite binary32 number is an integer multiple of 2^-149, its
`units`; a result is computed exactly and rounded once. PRESUMED (unsafe, log 6): rounding is to
nearest, ties to even, the default of the binary32 format, which R9 names without a rounding rule.
A NaN's sign and payload are free (log 7). -/

namespace Sys2Proof.Machine

/-- The sign bit. -/
def fNeg (x : F32) : Bool := x.getLsbD 31

/-- The exponent field. -/
def fExp (x : F32) : Nat := (x.extractLsb' 23 8).toNat

/-- The fraction field. -/
def fFrac (x : F32) : Nat := (x.extractLsb' 0 23).toNat

def fIsNaN (x : F32) : Bool := fExp x == 255 && fFrac x != 0

def fIsInf (x : F32) : Bool := fExp x == 255 && fFrac x == 0

/-- The magnitude of a finite number, in multiples of 2^-149. -/
def fUnits (x : F32) : Nat :=
  if fExp x = 0 then fFrac x else (fFrac x + 2 ^ 23) * 2 ^ (fExp x - 1)

/-- The value of a finite number, in multiples of 2^-149. -/
def fValue (x : F32) : Int := if fNeg x then -(fUnits x : Int) else (fUnits x : Int)

/-- A magnitude's exponent and fraction fields with a sign. -/
def fWithSign (neg : Bool) (mag : Nat) : F32 :=
  BitVec.ofNat 32 (if neg then 2 ^ 31 + mag else mag)

def fInf (neg : Bool) : F32 := fWithSign neg 0x7F800000

/-- `num / den` multiples of 2^-149, rounded to 24 significant bits, ties to even; a magnitude past
the largest finite number is an infinity. -/
def fRound (neg : Bool) (num den : Nat) : F32 :=
  let shift := Nat.log2 (num / den) - 23
  let d := den * 2 ^ shift
  let q := num / d
  let r := num % d
  let up := decide (d < 2 * r) || (decide (2 * r = d) && decide (q % 2 = 1))
  let mag := shift * 2 ^ 23 + (if up then q + 1 else q)
  if mag < 0x7F800000 then fWithSign neg mag else fInf neg

/-- A NaN whose sign and payload are the given bits (an all-zero payload becomes 1). -/
def fNaN (bits : BitVec 32) : F32 :=
  let x := bits ||| 0x7F800000#32
  if fFrac x = 0 then x ||| 1#32 else x

/-- The exact sum of two finite numbers, rounded; an exact zero is -0 only when both are -0. -/
def fSum (x y : F32) : F32 :=
  let n := fValue x + fValue y
  if n = 0 then fWithSign (fNeg x && fNeg y) 0
  else fRound (decide (n < 0)) n.natAbs 1

/-- Addition of `B32`, `tag` naming the operation for the free NaN. -/
def fAddWith (tag : SampleOp) (x y y' : F32) : F32 :=
  if fIsNaN x || fIsNaN y then fNaN (Config.freeNaN tag x y')
  else if fIsInf x then
    if fIsInf y && fNeg x != fNeg y then fNaN (Config.freeNaN tag x y') else x
  else if fIsInf y then y
  else fSum x y

def fNegate (x : F32) : F32 := x ^^^ 0x80000000#32

def fAdd (x y : F32) : F32 := fAddWith .add x y y

def fSub (x y : F32) : F32 := fAddWith .sub x (fNegate y) y

/-- Division of `x` by the natural number `n`, "converted exactly" (R9). -/
def fDivNat (x : F32) (n : Nat) : F32 :=
  if fIsNaN x then fNaN (Config.freeNaN .div x (BitVec.ofNat 32 n))
  else if fIsInf x then x
  else fRound (fNeg x) (fUnits x) n

/-- "Ordered comparison `a < 0` (false for -0 and for a NaN)" (R9). -/
def fLtZero (x : F32) : Bool := fNeg x && !fIsNaN x && (fIsInf x || fUnits x != 0)

/-- "The integer part of `a` when `0 <= a < 65536` and any `U16` value otherwise" (R9, U3). -/
def fTrunc16 (x : F32) : U16 :=
  if !fIsNaN x && !fIsInf x && (!fNeg x || fUnits x == 0) && decide (fUnits x < 65536 * 2 ^ 149) then
    BitVec.ofNat 16 (fUnits x / 2 ^ 149)
  else Config.freeTrunc x

/-- The reference binding `B32` (R9). -/
def arithB32 : SampleArith F32 where
  szero := 0
  sadd := fAdd
  ssub := fSub
  sdivn := fDivNat
  slt0 := fLtZero
  trunc16 := fTrunc16
  bits32 := fun x => x

/-- The pattern of a 32-bit float as a sample: its "4 bytes" (R9), most significant first. -/
def f32Sample (x : F32) : Sample := u32Bytes x

/-- The 32-bit float of a sample; a string that is no float's pattern, which `sampleLegal` rules out,
reads as +0. -/
def sampleF32 : Sample → F32
  | [a, b, c, d] => u32OfBytes a b c d
  | _ => 0

/-- An arithmetic of 32-bit floats, on their patterns. -/
def onPatterns (A : SampleArith F32) : SampleArith Sample where
  szero := f32Sample A.szero
  sadd := fun x y => f32Sample (A.sadd (sampleF32 x) (sampleF32 y))
  ssub := fun x y => f32Sample (A.ssub (sampleF32 x) (sampleF32 y))
  sdivn := fun x n => f32Sample (A.sdivn (sampleF32 x) n)
  slt0 := fun x => A.slt0 (sampleF32 x)
  trunc16 := fun x => A.trunc16 (sampleF32 x)
  bits32 := fun x => A.bits32 (sampleF32 x)

/-- The `k`-th uninterpreted binding (log 5). -/
def arithOpen (k : Nat) : SampleArith Sample where
  szero := Config.openZero k
  sadd := Config.openAdd k
  ssub := Config.openSub k
  sdivn := Config.openDiv k
  slt0 := Config.openNegative k
  trunc16 := Config.openTrunc k
  bits32 := Config.openBits k

/-- The sample arithmetic of a configuration. -/
def sampleArith (c : Config) : SampleArith Sample :=
  match c.arith with
  | .b32 => onPatterns arithB32
  | .uninterpreted k => arithOpen k

/-- A free value for a register that holds a sample and has no reset value: "an arbitrary value of its
type" (R36, log 10). -/
def freeSample (c : Config) (draw : Nat) (slot : FreeSlot) : Sample :=
  match c.arith with
  | .b32 => f32Sample (Config.freeWord draw slot)
  | .uninterpreted k => Config.openFree k draw slot

end Sys2Proof.Machine
end

