-- ==== Sys2Proof/Machine/State.lean ====
section
/-! DEFINITION. The state of the block (spec/10_state.md) and what stands at its ports (R34), as
plain data; the reasons a step can stop; the state right after reset (R36). -/

namespace Sys2Proof.Machine

/-- The receive phase (R30). -/
inductive RxState
  | searching
  | headerFound
  | versionFound
  | addressMsbFound
  | receiving
  deriving DecidableEq, Repr

/-- The registers of one averager (R22) over a sample type. `a.cap` is the length of `buf`
(`Averager.cap`): the ring has exactly `cap` slots and no operation changes their number. -/
structure Averager (S : Type) where
  depth : Byte
  buf : List S
  acc : S
  cursor : Byte
  consolidated : Bool
  lastAvg : S
  lastTs : U32
  deriving DecidableEq, Repr

/-- `a.cap`, the capacity, "fixed at construction" (R22). -/
def Averager.cap {S : Type} (a : Averager S) : Nat := a.buf.length

/-- The pair of averagers of a logical channel (R25). -/
structure Channel where
  inner : Averager Sample
  outer : Averager Sample
  deriving DecidableEq, Repr

/-- The registers of one sampler (R26). -/
structure Sampler where
  p10 : U16
  counter : U16
  go : Bool
  runTs : U32
  latTs : U32
  bound : Bool
  deriving DecidableEq, Repr

/-- The registers of the bus link (R29). -/
structure Link where
  rxState : RxState
  frameStart : U32
  addrMsb : Nibble
  rxBuf : List Byte
  rxLen : Nat
  txBuf : List Byte
  txLen : Nat
  txPending : Bool
  ledOn : Bool
  ledSince : U32
  ledEnabled : Bool
  ledEnableSince : U32
  deriving DecidableEq, Repr

/-- The persistent store `NV` (R60): bytes by address, in the one canonical form `Memory.wf`. -/
abbrev Memory := List Host.Cell

/-- What an operation hands to its caller (R91). `Option` carries `ok`: "when `ok = false` its other
results carry no meaning" (R12). -/
inductive OpResult
  | none
  | flag (b : Bool)
  | sample (v : Sample)
  | time (t : U32)
  | byte (b : Byte)
  | depths (inner outer : Byte)
  | checkedByte (r : Option Byte)
  | checkedSample (r : Option (Sample × U32))
  deriving DecidableEq, Repr

/-- An event the block raises at a port: a request to the excluded sequencer, or the invocation of a
bound task handler with its argument (R34, R152). -/
inductive PortEvent
  | startReq
  | stopReq
  | handlerCall (x : Sensor) (go : Bool)
  deriving DecidableEq, Repr

/-- What the environment does next (R34, R35): present an operation, or move an input. -/
inductive Stimulus
  | request (port : Port) (bytes : List Byte)
  | setSamplingEnabled (on : Bool)
  | setAddressPins (v : Byte)
  | setSensorName (c : Byte) (name : Option (List Byte))
  | setDriverFails (on : Bool)
  | writeStore (addr : Nat) (b : Byte)
  deriving DecidableEq, Repr

/-- The input ports (R34): `sampling_enabled`, the address-select pins, `sensorName(c)` by channel
(no entry: no name), and the optional free input of R217. -/
structure Ports where
  samplingEnabled : Bool
  addressPins : Byte
  sensorNames : List (Option (List Byte))
  driverFails : Bool
  deriving DecidableEq, Repr

/-- The state: the registers the spec gives the block, the external store, the inputs, the
environment's schedule, and what has left by the output ports. `draws` counts the resets, so that
each draws free values of its own (log 10). -/
structure State where
  cfg : Config
  channels : List Channel
  opc : Sampler
  mox : Sampler
  ticks : U32
  link : Link
  boardId : Byte
  nv : Memory
  ports : Ports
  inbox : List Stimulus
  result : OpResult
  tx : List Byte
  events : List PortEvent
  draws : Nat
  deriving DecidableEq, Repr

/-- Reasons the machine stops. The spec names none ("No operation of the block halts it", R240):
these three stand for accesses that R61 and R63 rule out, and are met only in states that break
`State.Inv` (log 12). All are safe. -/
inductive Fault
  /-- `AVG.COLLECT`, `CH.FEED`: the cursor names no slot of the ring (R61). Safe. -/
  | ringIndex
  /-- `LNK.RX`: an index beyond the receive buffer (R61). Safe. -/
  | rxIndex
  /-- `LNK.TX`: a length beyond the reply buffer (R61). Safe. -/
  | txIndex
  deriving DecidableEq, Repr

/-- Reasons the model gives a situation no meaning: the spec's own `refuse` treatments (spec/93).
All are safe. -/
inductive Refusal
  /-- An instruction whose meaning has not been written. Raised by `exec` only. Safe. -/
  | notModelled (mnemonic : String)
  /-- The configuration breaks R6. Raised by `step` (U1). Safe. -/
  | illFormedConfig
  /-- A request that is no operation. Raised by the delivery of a request (U6, R91). Safe. -/
  | noSuchOperation (e : DecodeError)
  /-- An averager operand that names no averager. Raised by every `AVG.*` operation (U6). Safe. -/
  | noSuchAverager
  /-- A sample operand that is no value of the sample type. Raised by `AVG.COLLECT` and `CH.FEED`
  (R91, U6). Safe. -/
  | noSuchSample
  /-- `CH.FEED` with a channel outside the bank. Raised by `CH.FEED` (U5). Safe. -/
  | noSuchChannel
  /-- A reply longer than `TX_BUF_SIZE`. Raised by the dispatch of `I` (U7). Safe. -/
  | replyTooLong
  /-- A sensor name with a zero byte, of a channel outside the bank, or too long for the reply
  buffer. Raised by the stimulus that would set it (U7, R204). Safe. -/
  | illFormedName
  deriving DecidableEq, Repr

/-- The three outcomes, for this machine. -/
abbrev Outcome := Host.Outcome State Fault Refusal

/-- `szero` under the binding of `State.reset`: the four bytes of +0 (R9). -/
def resetSample : Sample := [0, 0, 0, 0]

/-- An averager of `State.reset`: R36, with 0 for the two registers R36 leaves unspecified
(DESIGN CHOICE, unsafe, log 9). -/
def resetAverager (cap : Nat) : Averager Sample where
  depth := 0
  buf := List.replicate cap resetSample
  acc := resetSample
  cursor := 0
  consolidated := false
  lastAvg := resetSample
  lastTs := 0

/-- A sampler of `State.reset`: R36 with `SMP_RESET_PRESCALER` 0; timestamps 0 (log 9); no handler
bound (DESIGN CHOICE, unsafe, log 15). -/
def resetSampler : Sampler where
  p10 := 0
  counter := 0
  go := false
  runTs := 0
  latTs := 0
  bound := false

/-- The link of `State.reset`: R36, the unspecified registers 0 (log 9). -/
def resetLink : Link where
  rxState := .searching
  frameStart := 0
  addrMsb := 0
  rxBuf := List.replicate 16 0
  rxLen := 0
  txBuf := List.replicate 19 0
  txLen := 0
  txPending := false
  ledOn := false
  ledSince := 0
  ledEnabled := true
  ledEnableSince := 0

/-- The state right after reset (R36), under TCFG (log 4), with nothing requested, the store erased
(log 11) and the inputs of log 14. -/
def State.reset : State where
  cfg := referenceConfig
  channels := List.replicate 22 ⟨resetAverager 16, resetAverager 16⟩
  opc := resetSampler
  mox := resetSampler
  ticks := 0
  link := resetLink
  boardId := 0x12
  nv := []
  ports := { samplingEnabled := false, addressPins := 0x12, sensorNames := [], driverFails := false }
  inbox := []
  result := .none
  tx := []
  events := []
  draws := 0

end Sys2Proof.Machine
end

