-- ==== Sys2Proof/Machine/Flags.lean ====
section
/-! DEFINITION. The conditions that set and clear the one-bit status flags (spec/10_state.md R31),
and every comparison of times and counters they rest on (R28, spec/60_exceptions.md R254). -/

namespace Sys2Proof.Machine

/-- `elapsed(t)`: `(now - t) mod 2^32` (spec/43_buslink.md). -/
def elapsed (now t : U32) : Nat := (now - t).toNat

/-- The frame in progress is older than `FRAME_TIMEOUT` (R171; strict). -/
def frameExpired (c : Config) (now : U32) (l : Link) : Bool :=
  decide (l.rxState ≠ .searching) && decide (c.frameTimeout < elapsed now l.frameStart)

/-- `ledOn` is cleared: the flash is over (R183; strict). -/
def flashExpired (c : Config) (now : U32) (l : Link) : Bool :=
  l.ledOn && decide (c.ledFlash < elapsed now l.ledSince)

/-- `ledEnabled` is cleared: the idle period is over (R183; strict). -/
def idleExpired (c : Config) (now : U32) (l : Link) : Bool :=
  l.ledEnabled && decide (c.ledIdle < elapsed now l.ledEnableSince)

/-- `go` is set: the counter, before it is incremented, ends the period (R151, D18); a disabled
sampler never does (D19). -/
def periodEnds (s : Sampler) : Bool := decide (s.p10 ≠ 0) && decide (s.counter = s.p10 - 1)

/-- The cursor after a sample, on natural numbers (R112, R118). -/
def nextCursor {S : Type} (a : Averager S) : Nat := (a.cursor.toNat + 1) % a.depth.toNat

/-- `consolidated` is set: the cursor wraps (R112). -/
def cursorWraps {S : Type} (a : Averager S) : Bool := decide (nextCursor a = 0)

/-- A reply may be sent: the receiver is idle and a reply is pending (R181). -/
def mayTransmit (l : Link) : Bool := decide (l.rxState = .searching) && l.txPending

end Sys2Proof.Machine
end

