-- ==== Sys2Proof/Machine/Operands.lean ====
section
/-! DEFINITION. Operand forms: character codes (spec/30_encoding.md R82), hex digits and values
(R83 to R85), and the units that operands name (spec/10_state.md R24, R25). -/

namespace Sys2Proof.Machine

/-! ### Characters (R82) -/

def chHeader : Byte := 0x5B
def chTrailer : Byte := 0x5D
def chSlaveHeader : Byte := 0x28
def chSlaveTrailer : Byte := 0x29
def chError : Byte := 0x2A

/-! ### Hex digits and values -/

/-- `HEXVAL(b)` (R83): what the six bytes 'a' to 'f' give is a parameter (U4, log 24). -/
def hexVal (c : Config) (b : Byte) : Option Nibble :=
  if 0x30 ≤ b.toNat ∧ b.toNat ≤ 0x39 then some (BitVec.ofNat 4 (b.toNat - 0x30))
  else if 0x41 ≤ b.toNat ∧ b.toNat ≤ 0x46 then some (BitVec.ofNat 4 (b.toNat - 0x41 + 10))
  else if 0x61 ≤ b.toNat ∧ b.toNat ≤ 0x66 then c.lowerHex.getD (b.toNat - 0x61) none
  else none

/-- `HEXCHR(n)` (R83): digits and upper-case letters. -/
def hexChr (n : Nibble) : Byte :=
  if n.toNat < 10 then BitVec.ofNat 8 (0x30 + n.toNat) else BitVec.ofNat 8 (0x41 + (n.toNat - 10))

/-- `hexbyte(h, l)` (R84): the high digit in bits 7:4. -/
def hexByte (c : Config) (h l : Byte) : Option Byte :=
  match hexVal c h, hexVal c l with
  | some x, some y => some (x ++ y)
  | _, _ => none

/-- `hex8(v)` (R85). -/
def hex8 (v : Byte) : List Byte := [hexChr (v.extractLsb' 4 4), hexChr (v.extractLsb' 0 4)]

/-- `hex16(v)` (R85). -/
def hex16 (v : U16) : List Byte := hex8 (v.extractLsb' 8 8) ++ hex8 (v.extractLsb' 0 8)

/-- `hex32(v)` (R85). -/
def hex32 (v : U32) : List Byte :=
  hex8 (v.extractLsb' 24 8) ++ hex8 (v.extractLsb' 16 8) ++
  hex8 (v.extractLsb' 8 8) ++ hex8 (v.extractLsb' 0 8)

/-- The parameters of a command from their characters (R201); nothing when a character is no hex
digit. -/
def readParams (c : Config) : List Byte → Option (List Byte)
  | h :: l :: rest =>
    match hexByte c h l, readParams c rest with
    | some q, some qs => some (q :: qs)
    | _, _ => none
  | _ => some []

/-! ### Units -/

/-- `sensorOf(c)` (R24). -/
def sensorOf (c : Config) (ch : Byte) : Sensor := if ch.toNat < c.partition then .opc else .mox

/-- `smp(x)` (R20). -/
def State.sampler (s : State) : Sensor → Sampler
  | .opc => s.opc
  | .mox => s.mox

def State.setSampler (s : State) (x : Sensor) (v : Sampler) : State :=
  match x with
  | .opc => { s with opc := v }
  | .mox => { s with mox := v }

/-- Channel `c`, when `c < NCH` (R60 CHAN, R63). -/
def State.channel? (s : State) (c : Byte) : Option Channel :=
  if c.toNat < s.cfg.nch then s.channels[c.toNat]? else none

def State.setChannel (s : State) (c : Byte) (ch : Channel) : State :=
  { s with channels := s.channels.set c.toNat ch }

def Channel.stage (ch : Channel) : Stage → Averager Sample
  | .inner => ch.inner
  | .outer => ch.outer

def Channel.setStage (ch : Channel) (st : Stage) (a : Averager Sample) : Channel :=
  match st with
  | .inner => { ch with inner := a }
  | .outer => { ch with outer := a }

/-- The averager an operand names (R91), if there is one (U6). -/
def State.averager? (s : State) (a : AvgRef) : Option (Averager Sample) :=
  match s.channel? a.channel with
  | some ch => some (ch.stage a.stage)
  | none => none

/-- Put back the averager an operand names. -/
def State.setAverager (s : State) (a : AvgRef) (v : Averager Sample) : State :=
  match s.channel? a.channel with
  | some ch => s.setChannel a.channel (ch.setStage a.stage v)
  | none => s

/-- `sensorName(c)`: the environment's answer at this moment (R34, D38). -/
def State.sensorName (s : State) (c : Byte) : Option (List Byte) :=
  s.ports.sensorNames.getD c.toNat none

/-- `f(d)`, "treating depth 0 as factor 1" (spec/41_channel_postscaler.md). -/
def depthFactor (d : Byte) : Nat := Config.depthFactor d

end Sys2Proof.Machine
end

