-- ==== Sys2Proof/Machine/Ops.lean ====
section
/-! DEFINITION. The operations shared by the instructions: the external store (spec/20_memory.md
R60, R72), the averager and the pair (spec/40, spec/41), the sampler (spec/42), the link
(spec/43), and the block's two abnormal endings, `raise FrameAbort` and `raise CmdError`
(spec/60_exceptions.md R248, R249), each written once. The block has no other exception: the tick
is an operation of its own that saves nothing (R250, R251). -/

namespace Sys2Proof.Machine

/-! ### Results -/

/-- The operation ends with a result for its caller (R8 `return`). -/
def State.answer (s : State) (r : OpResult) : Outcome := .next { s with result := r }

/-! ### The external store `NV` -/

/-- What an address reads as that nothing has written: erased, all ones (R66). DESIGN CHOICE
(unsafe, log 11). -/
def storeErased : Byte := 0xFF

/-- The canonical form: addresses rising, no entry that reads as erased. -/
abbrev Memory.wf (m : Memory) : Prop :=
  List.Pairwise (fun x y => x.1 < y.1) m ∧ ∀ x ∈ m, x.2 ≠ storeErased

/-- `MemRead(NV, addr, 1)` (R61). -/
def Memory.read : Memory → Nat → Byte
  | [], _ => storeErased
  | (a, b) :: m, addr => if a = addr then b else Memory.read m addr

/-- Put an entry at its place, or leave it out when it reads as erased. -/
def Memory.entry (addr : Nat) (b : Byte) (m : Memory) : Memory :=
  if b = storeErased then m else (addr, b) :: m

/-- `MemWrite(NV, addr, 1, b)` (R61, R72). -/
def Memory.write : Memory → Nat → Byte → Memory
  | [], addr, b => Memory.entry addr b []
  | (a, v) :: m, addr, b =>
    if a < addr then (a, v) :: Memory.write m addr b
    else if a = addr then Memory.entry addr b m
    else Memory.entry addr b ((a, v) :: m)

/-! ### The averager (spec/40_averager.md) -/

/-- What `AVG.INIT` and a successful `AVG.SETDEPTH` have in common: accumulator, cursor, flag and
all slots cleared; `lastAvg` and `lastTs` not written (R110, R111). -/
def Averager.clear {S : Type} (z : S) (a : Averager S) : Averager S :=
  { a with acc := z, cursor := 0, consolidated := false, buf := List.replicate a.cap z }

/-- R110. -/
def Averager.init {S : Type} (z : S) (a : Averager S) : Averager S := { a.clear z with depth := 0 }

/-- R111: the `ok` result and the averager after. -/
def Averager.setDepth {S : Type} (z : S) (a : Averager S) (d : Byte) : Bool × Averager S :=
  if a.cap ≤ d.toNat then (false, a) else (true, { a.clear z with depth := d })

/-- A latched output: the value and the timestamp that belongs to it (R112). -/
def Averager.latch {S : Type} (a : Averager S) (v : S) (ts : U32) : Averager S :=
  { a with lastAvg := v, lastTs := ts }

/-- R112 for a positive depth, `old` being the slot about to be overwritten. -/
def Averager.accept {S : Type} (A : SampleArith S) (a : Averager S) (old v : S) : Averager S :=
  { a with
    acc := A.sadd (A.ssub a.acc old) v
    buf := a.buf.set a.cursor.toNat v
    cursor := BitVec.ofNat 8 (nextCursor a) }

/-- R112: the `produced` result and the averager after; nothing when the cursor names no slot of the
ring, which R63 rules out (log 12). -/
def Averager.collect {S : Type} (A : SampleArith S) (a : Averager S) (v : S) (ts : U32) :
    Option (Bool × Averager S) :=
  if a.depth = 0 then some (true, { a with acc := v }.latch v ts)
  else
    match a.buf[a.cursor.toNat]? with
    | none => none
    | some old =>
      let b := a.accept A old v
      if cursorWraps a then
        some (true, { b with consolidated := true }.latch (A.sdivn b.acc a.depth.toNat) ts)
      else if a.consolidated = false then some (true, b.latch v ts)
      else some (false, b)

/-- R133: the inner output, at its own timestamp, feeds the outer averager "only on genuine
reductions". -/
def Channel.feed (A : SampleArith Sample) (ch : Channel) (v : Sample) (ts : U32) :
    Option (Bool × Channel) :=
  match ch.inner.collect A v ts with
  | none => none
  | some (false, i) => some (false, { ch with inner := i })
  | some (true, i) =>
    match ch.outer.collect A i.lastAvg i.lastTs with
    | none => none
    | some (produced, o) => some (produced, { inner := i, outer := o })

/-- The pair of depths of a channel (R135). -/
def Channel.pair (ch : Channel) : Byte × Byte := (ch.inner.depth, ch.outer.depth)

/-- Set both depths of a channel, each result ignored (R135, R138). -/
def Channel.setDepths (z : Sample) (ch : Channel) (p : Byte × Byte) : Channel :=
  { inner := (ch.inner.setDepth z p.1).2, outer := (ch.outer.setDepth z p.2).2 }

/-! ### The sampler (spec/42_sampler.md) -/

/-- R151: the `started` result and the sampler after. -/
def Sampler.tick (now : U32) (s : Sampler) : Bool × Sampler :=
  if s.p10 = 0 then (false, s)
  else if periodEnds s then (true, { s with counter := 0, runTs := now, go := true })
  else (false, { s with counter := s.counter + 1 })

/-- R152, the masked section: the go flag read and cleared, the running timestamp latched. -/
def Sampler.take (s : Sampler) : Bool × Sampler :=
  if s.go then (true, { s with go := false, latTs := s.runTs }) else (false, { s with go := false })

/-- R153. -/
def Sampler.setPre (s : Sampler) (e : Byte) : Sampler :=
  { s with p10 := BitVec.ofNat 16 (10 * e.toNat), counter := 0 }

/-- R154. -/
def Sampler.getPre (s : Sampler) : Byte := BitVec.ofNat 8 (s.p10.toNat / 10)

/-! ### The link (spec/43_buslink.md) -/

/-- `raise FrameAbort(reason)`: "the same for every reason" (R248). -/
def Link.abort (l : Link) (_reason : FrameAbort) : Link := { l with rxState := .searching, rxLen := 0 }

/-- The frame-timeout check (R171). -/
def Link.checkTimeout (c : Config) (now : U32) (l : Link) : Link :=
  if frameExpired c now l then l.abort .timeout else l

/-- `pulse()` (R184). -/
def Link.pulse (now : U32) (l : Link) : Link :=
  if l.ledEnabled then { l with ledOn := true, ledSince := now } else l

/-- `MemWrite(TXBUF, 0, n, r)` and the pending mark (R61, R200). -/
def Link.setReply (l : Link) (r : List Byte) : Link :=
  { l with txBuf := r ++ l.txBuf.drop r.length, txLen := r.length, txPending := true }

/-- A reply is left pending; one longer than `TX_BUF_SIZE` has no meaning (R63, U7). -/
def State.leaveReply (s : State) (r : List Byte) : Outcome :=
  if r.length ≤ s.cfg.txBufSize then .next { s with link := s.link.setReply r, result := .none }
  else .refused .replyTooLong

/-- `raise CmdError(reason)`: the error reply, "the same for every reason" (R249). -/
def State.raiseCmdError (s : State) (_reason : CmdError) : Outcome := s.leaveReply [chError]

end Sys2Proof.Machine
end

