-- ==== Sys2Proof/Machine/AveragerUnit.lean ====
section
/-! DEFINITION. The averager operations at the operation port (spec/40_averager.md R110 to R116). An
averager operand that names no averager is refused (U6). -/

namespace Sys2Proof.Machine

/-- `AVG.INIT a` (R110). -/
def execAvgInit (a : AvgRef) (s : State) : Outcome :=
  match s.averager? a with
  | none => .refused .noSuchAverager
  | some x => (s.setAverager a (x.init (sampleArith s.cfg).szero)).answer .none

/-- `AVG.SETDEPTH a, d -> ok` (R111). -/
def execAvgSetDepth (a : AvgRef) (d : Byte) (s : State) : Outcome :=
  match s.averager? a with
  | none => .refused .noSuchAverager
  | some x =>
    let r := x.setDepth (sampleArith s.cfg).szero d
    (s.setAverager a r.2).answer (.flag r.1)

/-- `AVG.COLLECT a, v, ts -> produced` (R112). A byte string that is no sample of the type bound is no
operand of it (R91, log 5). -/
def execAvgCollect (a : AvgRef) (v : Sample) (ts : U32) (s : State) : Outcome :=
  match s.averager? a with
  | none => .refused .noSuchAverager
  | some x =>
    if sampleLegal s.cfg v then
      match x.collect (sampleArith s.cfg) v ts with
      | none => .fault .ringIndex
      | some (produced, y) => (s.setAverager a y).answer (.flag produced)
    else .refused .noSuchSample

/-- `AVG.LASTAVG a -> Sample` (R113). -/
def execAvgLastAvg (a : AvgRef) (s : State) : Outcome :=
  match s.averager? a with
  | none => .refused .noSuchAverager
  | some x => s.answer (.sample x.lastAvg)

/-- `AVG.LASTCUM a -> Sample` (R114): live, not latched (R65). -/
def execAvgLastCum (a : AvgRef) (s : State) : Outcome :=
  match s.averager? a with
  | none => .refused .noSuchAverager
  | some x => s.answer (.sample x.acc)

/-- `AVG.LASTTS a -> U32` (R115). -/
def execAvgLastTs (a : AvgRef) (s : State) : Outcome :=
  match s.averager? a with
  | none => .refused .noSuchAverager
  | some x => s.answer (.time x.lastTs)

/-- `AVG.GETDEPTH a -> U8` (R116). -/
def execAvgGetDepth (a : AvgRef) (s : State) : Outcome :=
  match s.averager? a with
  | none => .refused .noSuchAverager
  | some x => s.answer (.byte x.depth)

end Sys2Proof.Machine
end

