-- ==== Sys2Proof/Machine/SamplerUnit.lean ====
section
/-! DEFINITION. The sampler operations and the per-channel prescaler (spec/42_sampler.md R151 to
R156). -/

namespace Sys2Proof.Machine

/-- `SMP.TICK s -> started` (R151). -/
def execSmpTick (x : Sensor) (s : State) : Outcome :=
  let r := (s.sampler x).tick s.ticks
  (s.setSampler x r.2).answer (.flag r.1)

/-- `SMP.TASK s, hret -> result` (R152). A bound handler is invoked with the go flag, an event at the
port; its effects are operations of their own. With no handler bound `hret`, the dash of the spec's
`SMP.TASK s, -`, is not used, whatever Bool stands for it (log 25). -/
def execSmpTask (x : Sensor) (hret : Bool) (s : State) : Outcome :=
  let r := (s.sampler x).take
  let t := s.setSampler x r.2
  if (s.sampler x).bound then
    { t with events := t.events ++ [PortEvent.handlerCall x r.1] }.answer (.flag hret)
  else t.answer (.flag r.1)

/-- `SMP.SETPRE s, e` (R153). -/
def execSmpSetPre (x : Sensor) (e : Byte) (s : State) : Outcome :=
  (s.setSampler x ((s.sampler x).setPre e)).answer .none

/-- `SMP.GETPRE s -> e` (R154). -/
def execSmpGetPre (x : Sensor) (s : State) : Outcome := s.answer (.byte (s.sampler x).getPre)

/-- The value `CH.SETPRE` sets: a MOX channel's is "silently raised" to the minimum (R155). -/
def flooredPre (c : Config) (ch e : Byte) : Byte :=
  if sensorOf c ch = .mox ∧ e.toNat < c.moxMinPrescaler.toNat then c.moxMinPrescaler else e

/-- `CH.SETPRE` as the operations that call it see it (R155): nothing when it fails. -/
def setChannelPre (c e : Byte) (s : State) : Option State :=
  if c.toNat < s.cfg.nch then
    let x := sensorOf s.cfg c
    some (s.setSampler x ((s.sampler x).setPre (flooredPre s.cfg c e)))
  else none

/-- `CH.GETPRE` as the operations that call it see it (R156). -/
def getChannelPre (c : Byte) (s : State) : Option Byte :=
  if c.toNat < s.cfg.nch then some (s.sampler (sensorOf s.cfg c)).getPre else none

/-- `CH.SETPRE c, e -> ok` (R155). -/
def execChSetPre (c e : Byte) (s : State) : Outcome :=
  match setChannelPre c e s with
  | some t => t.answer (.flag true)
  | none => s.answer (.flag false)

/-- `CH.GETPRE c -> ok, e` (R156). -/
def execChGetPre (c : Byte) (s : State) : Outcome := s.answer (.checkedByte (getChannelPre c s))

end Sys2Proof.Machine
end

