-- ==== Sys2Proof/Machine/ChannelBank.lean ====
section
/-! DEFINITION. The postscaler table, the channel operations and the bank (spec/41 R130 to R139). -/

namespace Sys2Proof.Machine

/-! ### The postscaler table -/

/-- The entry R130 selects: the last one whose factor does not exceed the request, or the first one
when there is none. A well-formed table is not empty (R6(b)); for an empty one, which `step`
refuses (U1), the pass-through pair stands here (log 16). -/
def lutSelect (lut : List LutEntry) (req : Byte) : LutEntry :=
  match (lut.filter (fun e => decide (e.factor.toNat ≤ req.toNat))).getLast? with
  | some e => e
  | none => lut.headD ⟨1, 0, 0⟩

/-- `LUT.RESOLVE req -> inner, outer` (R130). -/
def execLutResolve (req : Byte) (s : State) : Outcome :=
  let e := lutSelect s.cfg.lut req
  s.answer (.depths e.inner e.outer)

/-! ### Channel operations -/

/-- `CH.SETPOST` as its callers see it (R131): `ok` and the state after. -/
def setChannelPost (c req : Byte) (s : State) : Bool × State :=
  match s.channel? c with
  | none => (false, s)
  | some ch =>
    let z := (sampleArith s.cfg).szero
    let e := lutSelect s.cfg.lut req
    let i := ch.inner.setDepth z e.inner
    let o := ch.outer.setDepth z e.outer
    (i.1 && o.1, s.setChannel c { inner := i.2, outer := o.2 })

/-- The reported postscaler: the product of the two factors, carried as one byte (R132). -/
def Channel.post (ch : Channel) : Byte :=
  BitVec.ofNat 8 (depthFactor ch.inner.depth * depthFactor ch.outer.depth)

/-- `CH.GETPOST` as its callers see it (R132). -/
def getChannelPost (c : Byte) (s : State) : Option Byte :=
  match s.channel? c with
  | none => none
  | some ch => some ch.post

/-- What a channel's read-out is before the clamp: the cumulated sum for the volume channel, the
outer mean for the others (R134). -/
def rawReadOut (c : Config) (ch : Byte) (a : Averager Sample) : Sample :=
  if ch.toNat = c.chVol then a.acc else a.lastAvg

/-- The clamp: negative results are zero except for the temperature channel (R134). -/
def clampReadOut (c : Config) (ch : Byte) (v : Sample) : Sample :=
  if ch.toNat ≠ c.chTemp ∧ (sampleArith c).slt0 v = true then (sampleArith c).szero else v

/-- `CH.LAST` as its callers see it (R134). -/
def channelLast (c : Byte) (s : State) : Option (Sample × U32) :=
  match s.channel? c with
  | none => none
  | some ch => some (clampReadOut s.cfg c (rawReadOut s.cfg c ch.outer), ch.outer.lastTs)

/-- `CH.SETPOST c, req -> ok` (R131). -/
def execChSetPost (c req : Byte) (s : State) : Outcome :=
  let r := setChannelPost c req s
  r.2.answer (.flag r.1)

/-- `CH.GETPOST c -> ok, post` (R132). -/
def execChGetPost (c : Byte) (s : State) : Outcome := s.answer (.checkedByte (getChannelPost c s))

/-- `CH.FEED c, v, ts -> new_output` (R133). "An invocation with `c >= NCH` has no meaning" (U5);
nor has one whose operand is no sample of the type bound (R91, log 5). -/
def execChFeed (c : Byte) (v : Sample) (ts : U32) (s : State) : Outcome :=
  match s.channel? c with
  | none => .refused .noSuchChannel
  | some ch =>
    if sampleLegal s.cfg v then
      match ch.feed (sampleArith s.cfg) v ts with
      | none => .fault .ringIndex
      | some (newOutput, ch') => (s.setChannel c ch').answer (.flag newOutput)
    else .refused .noSuchSample

/-- `CH.LAST c -> ok, value, ts` (R134). -/
def execChLast (c : Byte) (s : State) : Outcome := s.answer (.checkedSample (channelLast c s))

/-! ### Bank operations -/

/-- The most frequent pair; "among equals, the one held by the lowest channel index" (R135). -/
def majorityPair (ps : List (Byte × Byte)) : Byte × Byte :=
  ps.foldl (fun best p => if ps.count best < ps.count p then p else best) (ps.headD (0, 0))

/-- R135 on the list of channels. -/
def correctChannels (z : Sample) (opcCount : Nat) (chs : List Channel) : List Channel :=
  let maj := majorityPair ((chs.take opcCount).map Channel.pair)
  (chs.take opcCount).map (fun ch => if ch.pair = maj then ch else ch.setDepths z maj) ++
    chs.drop opcCount

/-- `BANK.CORRECT` on the state (R135). -/
def State.correctBank (s : State) : State :=
  { s with channels := correctChannels (sampleArith s.cfg).szero s.cfg.partition s.channels }

/-- `BANK.RESTART` on the state (R136). -/
def State.restartBank (s : State) : State :=
  { s with channels := s.channels.map (fun ch => ch.setDepths (sampleArith s.cfg).szero ch.pair) }

/-- `BANK.ENABLESAMPLING` on the state (R137). -/
def State.enableSampling (s : State) (on : Bool) : State :=
  if on then
    if s.ports.samplingEnabled then s
    else
      let t := s.correctBank.restartBank
      { t with events := t.events ++ [PortEvent.startReq] }
  else { s with events := s.events ++ [PortEvent.stopReq] }

/-- `BANK.CORRECT` (R135). -/
def execBankCorrect (s : State) : Outcome := s.correctBank.answer .none

/-- `BANK.RESTART` (R136). -/
def execBankRestart (s : State) : Outcome := s.restartBank.answer .none

/-- `BANK.ENABLESAMPLING on` (R137). -/
def execBankEnableSampling (on : Bool) (s : State) : Outcome := (s.enableSampling on).answer .none

/-! ### Presets -/

/-- The address of the prescaler byte of a sensor (R66). -/
def prescalerAddr (c : Config) : Sensor → Nat
  | .opc => c.nvPreBase
  | .mox => c.nvPreBase + 1

/-- The address of the inner depth byte of a channel (R66). -/
def innerAddr (c : Config) (ch : Byte) : Nat := c.nvInnerBase + ch.toNat

/-- The address of the outer depth byte of a channel (R66). -/
def outerAddr (c : Config) (ch : Byte) : Nat := c.nvOuterBase + ch.toNat

/-- The stored prescaler, an erased byte meaning the default (R66, R138). -/
def storedPrescaler (c : Config) (b : Byte) : Byte := if b = storeErased then c.defaultPrescaler else b

/-- `CH.LOADPRESET` as its callers see it (R138): nothing when it fails. -/
def loadPreset (c : Byte) (s : State) : Option State :=
  match s.channel? c with
  | none => none
  | some ch =>
    let pb := s.nv.read (prescalerAddr s.cfg (sensorOf s.cfg c))
    match setChannelPre c (storedPrescaler s.cfg pb) s with
    | none => none
    | some t =>
      some (t.setChannel c (ch.setDepths (sampleArith s.cfg).szero
        (s.nv.read (innerAddr s.cfg c), s.nv.read (outerAddr s.cfg c))))

/-- `CH.SAVEPRESET` as its callers see it (R139). -/
def savePreset (c : Byte) (s : State) : Option State :=
  match s.channel? c with
  | none => none
  | some ch =>
    let x := sensorOf s.cfg c
    some { s with
      nv := ((s.nv.write (prescalerAddr s.cfg x) (s.sampler x).getPre).write
        (innerAddr s.cfg c) ch.inner.depth).write (outerAddr s.cfg c) ch.outer.depth }

/-- `CH.LOADPRESET c -> ok` (R138). -/
def execChLoadPreset (c : Byte) (s : State) : Outcome :=
  match loadPreset c s with
  | some t => t.answer (.flag true)
  | none => s.answer (.flag false)

/-- `CH.SAVEPRESET c -> ok` (R139). -/
def execChSavePreset (c : Byte) (s : State) : Outcome :=
  match savePreset c s with
  | some t => t.answer (.flag true)
  | none => s.answer (.flag false)

end Sys2Proof.Machine
end

