-- ==== Sys2Proof/Machine/Command.lean ====
section
/-! DEFINITION. The command dispatch and the twelve wire commands (spec/44_commands.md R200 to
R215). A handler gives the state after and the reply payload (R87), or nothing when it fails. -/

namespace Sys2Proof.Machine

/-- What a handler returns: `ok` with the state after and the reply payload, or a failure. -/
abbrev HandlerResult := Option (State × List Byte)

/-- A reply that begins with the echoed id and the channel (R87). -/
def replyTo (cmd : CmdId) (c : Byte) (value : List Byte) : List Byte := cmd.byte :: hex8 c ++ value

/-- `E` (R203). -/
def handleEcho (s : State) : HandlerResult := some (s, [CmdId.E.byte])

/-- `I` (R204): the name's bytes in hex, then "00". -/
def handleInquiry (c : Byte) (s : State) : HandlerResult :=
  if c.toNat < s.cfg.nch then
    match s.sensorName c with
    | some name => some (s, replyTo .I c (name.flatMap hex8 ++ hex8 0))
    | none => none
  else none

/-- `S` (R205). -/
def handleStart (s : State) : HandlerResult := some (s.enableSampling true, [CmdId.S.byte])

/-- `X` (R206). -/
def handleStop (s : State) : HandlerResult := some (s.enableSampling false, [CmdId.X.byte])

/-- `P` (R207). -/
def handleSetPre (c e : Byte) (s : State) : HandlerResult :=
  match setChannelPre c e s with
  | some t => some (t, replyTo .P c [])
  | none => none

/-- `Q` (R208). -/
def handleGetPre (c : Byte) (s : State) : HandlerResult :=
  match getChannelPre c s with
  | some e => some (s, replyTo .Q c (hex8 e))
  | none => none

/-- `O` (R209). -/
def handleSetPost (c req : Byte) (s : State) : HandlerResult :=
  let r := setChannelPost c req s
  if r.1 then some (r.2, replyTo .O c []) else none

/-- `N` (R210). -/
def handleGetPost (c : Byte) (s : State) : HandlerResult :=
  match getChannelPost c s with
  | some p => some (s, replyTo .N c (hex8 p))
  | none => none

/-- `G` (R211). -/
def handleLast16 (c : Byte) (s : State) : HandlerResult :=
  match channelLast c s with
  | some (v, ts) => some (s, replyTo .G c (hex16 ((sampleArith s.cfg).trunc16 v) ++ hex32 ts))
  | none => none

/-- `Y` (R212). -/
def handleLast32 (c : Byte) (s : State) : HandlerResult :=
  match channelLast c s with
  | some (v, ts) => some (s, replyTo .Y c (hex32 ((sampleArith s.cfg).bits32 v) ++ hex32 ts))
  | none => none

/-- `L` (R213). -/
def handleLoad (c : Byte) (s : State) : HandlerResult :=
  match loadPreset c s with
  | some t => some (t, replyTo .L c [])
  | none => none

/-- `W` (R214): the success reply is sent (C10, U10). -/
def handleSave (c : Byte) (s : State) : HandlerResult :=
  match savePreset c s with
  | some t => some (t, replyTo .W c [])
  | none => none

/-- The handlers of the command table, with the parameters they take (R86, R218). -/
def handler (cmd : CmdId) (q : List Byte) (s : State) : HandlerResult :=
  match cmd with
  | .E => handleEcho s
  | .I => handleInquiry (q.getD 0 0) s
  | .S => handleStart s
  | .X => handleStop s
  | .P => handleSetPre (q.getD 0 0) (q.getD 1 0) s
  | .Q => handleGetPre (q.getD 0 0) s
  | .O => handleSetPost (q.getD 0 0) (q.getD 1 0) s
  | .N => handleGetPost (q.getD 0 0) s
  | .G => handleLast16 (q.getD 0 0) s
  | .Y => handleLast32 (q.getD 0 0) s
  | .L => handleLoad (q.getD 0 0) s
  | .W => handleSave (q.getD 0 0) s

/-- The commands whose handler an excluded driver may make fail (R217). -/
def driverMayFail : CmdId → Bool
  | .S | .X | .G | .Y | .L | .W => true
  | .E | .I | .P | .Q | .O | .N => false

/-- The part of R200 after the id and the length: the parameters (R201), the handler, the reply. The
optional input of R217 makes a handler fail before it acts (log 19). -/
def runCommand (cmd : CmdId) (digits : List Byte) (s : State) : Outcome :=
  match readParams s.cfg digits with
  | none => s.raiseCmdError .badHex
  | some q =>
    if driverMayFail cmd && s.ports.driverFails then s.raiseCmdError .handlerFailed
    else
      match handler cmd q s with
      | none => s.raiseCmdError .handlerFailed
      | some (t, r) => t.leaveReply r

/-- The dispatch of a payload (R200). -/
def State.dispatch (s : State) (p : List Byte) : Outcome :=
  match parsePayload p with
  | .error e => s.raiseCmdError e
  | .ok (cmd, digits) => runCommand cmd digits s

/-- `CMD.DISPATCH p` (R200). -/
def execCmdDispatch (p : List Byte) (s : State) : Outcome := s.dispatch p

/-- `E` (R203). -/
def execCmdE (s : State) : Outcome := runCommand .E [] s

/-- `I` (R204). -/
def execCmdI (c1 c0 : Byte) (s : State) : Outcome := runCommand .I [c1, c0] s

/-- `S` (R205). -/
def execCmdS (s : State) : Outcome := runCommand .S [] s

/-- `X` (R206). -/
def execCmdX (s : State) : Outcome := runCommand .X [] s

/-- `P` (R207). -/
def execCmdP (c1 c0 e1 e0 : Byte) (s : State) : Outcome := runCommand .P [c1, c0, e1, e0] s

/-- `Q` (R208). -/
def execCmdQ (c1 c0 : Byte) (s : State) : Outcome := runCommand .Q [c1, c0] s

/-- `O` (R209). -/
def execCmdO (c1 c0 r1 r0 : Byte) (s : State) : Outcome := runCommand .O [c1, c0, r1, r0] s

/-- `N` (R210). -/
def execCmdN (c1 c0 : Byte) (s : State) : Outcome := runCommand .N [c1, c0] s

/-- `G` (R211). -/
def execCmdG (c1 c0 : Byte) (s : State) : Outcome := runCommand .G [c1, c0] s

/-- `Y` (R212). -/
def execCmdY (c1 c0 : Byte) (s : State) : Outcome := runCommand .Y [c1, c0] s

/-- `L` (R213). -/
def execCmdL (c1 c0 : Byte) (s : State) : Outcome := runCommand .L [c1, c0] s

/-- `W` (R214). -/
def execCmdW (c1 c0 : Byte) (s : State) : Outcome := runCommand .W [c1, c0] s

/-- `*` (R215, R249): as a payload it is an unknown id (R88), so what runs is the error reply
(log 18). -/
def execErrorReply (s : State) : Outcome := s.raiseCmdError .unknownId

end Sys2Proof.Machine
end

