-- ==== Sys2Proof/Machine/BusLink.lean ====
section
/-! DEFINITION. The bus link's operations (spec/43_buslink.md R170 to R185). -/

namespace Sys2Proof.Machine

/-- A header byte, in any state (R172): the frame in progress, if any, is dropped and a new one
begins. -/
def Link.startFrame (now : U32) (l : Link) : Link :=
  { l.abort .headerRestart with rxState := .headerFound, frameStart := now }

/-- The version byte (R174). -/
def Link.takeVersion (c : Config) (b : Byte) (l : Link) : Link :=
  if b = c.protoVersion then { l with rxState := .versionFound } else l.abort .badVersion

/-- The first address digit (R175). -/
def Link.takeAddrHigh (c : Config) (b : Byte) (l : Link) : Link :=
  match hexVal c b with
  | some n => { l with addrMsb := n, rxState := .addressMsbFound }
  | none => l.abort .badAddressChar

/-- The second address digit and the address match (R176). -/
def Link.takeAddrLow (c : Config) (boardId b : Byte) (l : Link) : Link :=
  match hexVal c b with
  | none => l.abort .badAddressChar
  | some n =>
    if l.addrMsb ++ n = boardId then { l with rxState := .receiving, rxLen := 0 }
    else l.abort .addressMismatch

/-- A payload byte (R177): nothing when the index lies beyond the buffer, which R63 rules out. -/
def Link.takeData (c : Config) (b : Byte) (l : Link) : Option Link :=
  if l.rxLen = c.rxBufSize then some (l.abort .overflow)
  else if l.rxLen < l.rxBuf.length then
    some { l with rxBuf := l.rxBuf.set l.rxLen b, rxLen := l.rxLen + 1 }
  else none

/-- The commit (R178). -/
def State.commit (s : State) : Outcome :=
  if s.link.rxLen ≤ s.link.rxBuf.length then
    let l := { s.link with rxState := .searching, rxLen := 0 }
    { s with link := l.pulse s.ticks }.dispatch (s.link.rxBuf.take s.link.rxLen)
  else .fault .rxIndex

/-- `LNK.RX b` (R170): the timeout check, then a header byte, then by state (R173 to R178). -/
def execLnkRx (b : Byte) (s : State) : Outcome :=
  let l := s.link.checkTimeout s.cfg s.ticks
  let finish := fun (l' : Link) => { s with link := l' }.answer .none
  if b = chHeader then finish (l.startFrame s.ticks)
  else
    match l.rxState with
    | .searching => finish l
    | .headerFound => finish (l.takeVersion s.cfg b)
    | .versionFound => finish (l.takeAddrHigh s.cfg b)
    | .addressMsbFound => finish (l.takeAddrLow s.cfg s.boardId b)
    | .receiving =>
      if b = chTrailer then { s with link := l }.commit
      else
        match l.takeData s.cfg b with
        | some l' => finish l'
        | none => .fault .rxIndex

/-- The indicator timeouts (R183): the two are independent and both are evaluated (R247). -/
def Link.checkIndicator (c : Config) (now : U32) (l : Link) : Link :=
  { l with
    ledOn := l.ledOn && !flashExpired c now l
    ledEnabled := l.ledEnabled && !idleExpired c now l }

/-- `LNK.POLL` (R180). -/
def execLnkPoll (s : State) : Outcome :=
  { s with
    link := (s.link.checkTimeout s.cfg s.ticks).checkIndicator s.cfg s.ticks }.answer .none

/-- The board-to-host frame around a reply payload (R81). -/
def replyFrame (c : Config) (boardId : Byte) (payload : List Byte) : List Byte :=
  [chSlaveHeader, c.protoVersion] ++ hex8 boardId ++ payload ++ [chSlaveTrailer]

/-- `LNK.TX` (R181): the whole frame leaves in one operation. -/
def execLnkTx (s : State) : Outcome :=
  if mayTransmit s.link then
    if s.link.txLen ≤ s.link.txBuf.length then
      { s with
        tx := s.tx ++ replyFrame s.cfg s.boardId (s.link.txBuf.take s.link.txLen)
        link := { s.link with txPending := false }.pulse s.ticks }.answer .none
    else .fault .txIndex
  else s.answer .none

/-- `LNK.LEDENABLE` (R185). -/
def execLnkLedEnable (s : State) : Outcome :=
  { s with link := { s.link with ledEnabled := true, ledEnableSince := s.ticks } }.answer .none

end Sys2Proof.Machine
end

