-- ==== Sys2Proof/Machine/System.lean ====
section
/-! DEFINITION. Reset (spec/70_reset_and_hazards.md R270) and the tick interrupt
(spec/42_sampler.md R150). -/

namespace Sys2Proof.Machine

/-- An averager after `SYS.RESET`: constructed with its capacity and initialised (R110, R270);
`lastAvg` and `lastTs` are unspecified, drawn for the `draw`-th reset (R36, log 10). -/
def constructAverager (cfg : Config) (draw c : Nat) (st : Stage) (cap : Nat) : Averager Sample where
  depth := 0
  buf := List.replicate cap (sampleArith cfg).szero
  acc := (sampleArith cfg).szero
  cursor := 0
  consolidated := false
  lastAvg := freeSample cfg draw (.lastAvg c st)
  lastTs := Config.freeWord draw (.lastTs c st)

/-- The pair of channel `c` after `SYS.RESET`. -/
def constructChannel (cfg : Config) (draw c : Nat) : Channel where
  inner := constructAverager cfg draw c .inner (cfg.capInner c)
  outer := constructAverager cfg draw c .outer (cfg.capOuter c)

/-- A sampler after `SYS.RESET`: `bound` is constant, the timestamps are unspecified (R36). -/
def resetSamplerOp (cfg : Config) (draw : Nat) (x : Sensor) (s : Sampler) : Sampler where
  p10 := BitVec.ofNat 16 (10 * cfg.smpResetPrescaler.toNat)
  counter := 0
  go := false
  runTs := Config.freeWord draw (.runTs x)
  latTs := Config.freeWord draw (.latTs x)
  bound := s.bound

/-- A buffer of unspecified bytes (R36). -/
def freeBytes (draw n : Nat) (slot : Nat → FreeSlot) : List Byte :=
  (List.range n).map (fun i => (Config.freeWord draw (slot i)).extractLsb' 0 8)

/-- The link after `SYS.RESET` (R36, R270). -/
def resetLinkOp (cfg : Config) (draw : Nat) : Link where
  rxState := .searching
  frameStart := Config.freeWord draw .frameStart
  addrMsb := (Config.freeWord draw .addrMsb).extractLsb' 0 4
  rxBuf := freeBytes draw cfg.rxBufSize .rxBuf
  rxLen := 0
  txBuf := freeBytes draw cfg.txBufSize .txBuf
  txLen := 0
  txPending := false
  ledOn := false
  ledSince := Config.freeWord draw .ledSince
  ledEnabled := true
  ledEnableSince := 0

/-- `SYS.RESET` (R270). `NV` is not touched; the inputs, and what has already left by the output
ports, are not the block's registers and stay. -/
def execSysReset (s : State) : Outcome :=
  .next { s with
    channels := (List.range s.cfg.nch).map (constructChannel s.cfg s.draws)
    opc := resetSamplerOp s.cfg s.draws .opc s.opc
    mox := resetSamplerOp s.cfg s.draws .mox s.mox
    ticks := 0
    link := resetLinkOp s.cfg s.draws
    boardId := s.ports.addressPins
    result := .none
    draws := s.draws + 1 }

/-- `SYS.TICKIRQ` (R150): the clock advances before the samplers run; their results are discarded. -/
def execSysTickIrq (s : State) : Outcome :=
  let now := s.ticks + 1
  .next { s with
    ticks := now
    opc := (s.opc.tick now).2
    mox := (s.mox.tick now).2
    result := .none }

end Sys2Proof.Machine
end

