-- ==== Sys2Proof/Machine/Dispatch.lean ====
section
/-! DEFINITION. One arm per operation of the opcode table, each one call of its meaning. -/

namespace Sys2Proof.Machine

def exec (i : Instr) (s : State) : Host.Outcome State Fault Refusal :=
  match i with
  | .sysReset => Sys2Proof.Machine.execSysReset s
  | .sysTickIrq => Sys2Proof.Machine.execSysTickIrq s
  | .avgInit a => Sys2Proof.Machine.execAvgInit a s
  | .avgSetDepth a d => Sys2Proof.Machine.execAvgSetDepth a d s
  | .avgCollect a v ts => Sys2Proof.Machine.execAvgCollect a v ts s
  | .avgLastAvg a => Sys2Proof.Machine.execAvgLastAvg a s
  | .avgLastCum a => Sys2Proof.Machine.execAvgLastCum a s
  | .avgLastTs a => Sys2Proof.Machine.execAvgLastTs a s
  | .avgGetDepth a => Sys2Proof.Machine.execAvgGetDepth a s
  | .lutResolve req => Sys2Proof.Machine.execLutResolve req s
  | .chSetPost c req => Sys2Proof.Machine.execChSetPost c req s
  | .chGetPost c => Sys2Proof.Machine.execChGetPost c s
  | .chFeed c v ts => Sys2Proof.Machine.execChFeed c v ts s
  | .chLast c => Sys2Proof.Machine.execChLast c s
  | .bankCorrect => Sys2Proof.Machine.execBankCorrect s
  | .bankRestart => Sys2Proof.Machine.execBankRestart s
  | .bankEnableSampling on => Sys2Proof.Machine.execBankEnableSampling on s
  | .chLoadPreset c => Sys2Proof.Machine.execChLoadPreset c s
  | .chSavePreset c => Sys2Proof.Machine.execChSavePreset c s
  | .smpTick x => Sys2Proof.Machine.execSmpTick x s
  | .smpTask x hret => Sys2Proof.Machine.execSmpTask x hret s
  | .smpSetPre x e => Sys2Proof.Machine.execSmpSetPre x e s
  | .smpGetPre x => Sys2Proof.Machine.execSmpGetPre x s
  | .chSetPre c e => Sys2Proof.Machine.execChSetPre c e s
  | .chGetPre c => Sys2Proof.Machine.execChGetPre c s
  | .lnkRx b => Sys2Proof.Machine.execLnkRx b s
  | .lnkPoll => Sys2Proof.Machine.execLnkPoll s
  | .lnkTx => Sys2Proof.Machine.execLnkTx s
  | .lnkLedEnable => Sys2Proof.Machine.execLnkLedEnable s
  | .cmdDispatch payload => Sys2Proof.Machine.execCmdDispatch payload s
  | .cmdE => Sys2Proof.Machine.execCmdE s
  | .cmdI c1 c0 => Sys2Proof.Machine.execCmdI c1 c0 s
  | .cmdS => Sys2Proof.Machine.execCmdS s
  | .cmdX => Sys2Proof.Machine.execCmdX s
  | .cmdP c1 c0 e1 e0 => Sys2Proof.Machine.execCmdP c1 c0 e1 e0 s
  | .cmdQ c1 c0 => Sys2Proof.Machine.execCmdQ c1 c0 s
  | .cmdO c1 c0 r1 r0 => Sys2Proof.Machine.execCmdO c1 c0 r1 r0 s
  | .cmdN c1 c0 => Sys2Proof.Machine.execCmdN c1 c0 s
  | .cmdG c1 c0 => Sys2Proof.Machine.execCmdG c1 c0 s
  | .cmdY c1 c0 => Sys2Proof.Machine.execCmdY c1 c0 s
  | .cmdL c1 c0 => Sys2Proof.Machine.execCmdL c1 c0 s
  | .cmdW c1 c0 => Sys2Proof.Machine.execCmdW c1 c0 s
  | .errorReply => Sys2Proof.Machine.execErrorReply s

end Sys2Proof.Machine
end

