-- ==== Sys2Proof/Machine/Deliver.lean ====
section
/-! DEFINITION. What a stimulus of the environment does (spec/10_state.md R34, R35): a request runs
the operation it encodes; the others move an input or write the store from outside (U13). -/

namespace Sys2Proof.Machine

/-- A name the port can give: of a channel, of non-zero bytes, and such that the reply of `I` fits
(R34, R204, U7). -/
def nameLegal (c : Config) (ch : Byte) (name : List Byte) : Bool :=
  decide (ch.toNat < c.nch) && name.all (fun b => b != 0) &&
    decide (5 + 2 * name.length ≤ c.txBufSize)

/-- The names after the environment sets one. -/
def setName (names : List (Option (List Byte))) (ch : Nat) (name : Option (List Byte)) :
    List (Option (List Byte)) :=
  (names ++ List.replicate (ch + 1 - names.length) none).set ch name

/-- The effect of one stimulus. -/
def State.deliver (s : State) : Stimulus → Outcome
  | .request port bytes =>
    match decodeAt port bytes with
    | .ok i => exec i s
    | .error e => .refused (.noSuchOperation e)
  | .setSamplingEnabled on => .next { s with ports := { s.ports with samplingEnabled := on } }
  | .setAddressPins v => .next { s with ports := { s.ports with addressPins := v } }
  | .setSensorName ch name =>
    if name.all (nameLegal s.cfg ch) then
      .next { s with ports := { s.ports with sensorNames := setName s.ports.sensorNames ch.toNat name } }
    else .refused .illFormedName
  | .setDriverFails on => .next { s with ports := { s.ports with driverFails := on } }
  | .writeStore addr b => .next { s with nv := s.nv.write addr b }

end Sys2Proof.Machine
end

