-- ==== Sys2Proof/Machine/Step.lean ====
section
/-! DEFINITION. One step: the next stimulus of the environment's schedule takes effect (spec/00_scope.md
R4: one operation, one atomic transition). The block has no program counter (R21): it runs what the
environment presents, in order (R67, log 3). -/

namespace Sys2Proof.Machine

/-- One step. With nothing presented the block keeps its state (R74). An ill-formed configuration has
no meaning (U1). -/
def step (s : State) : Host.Outcome State Fault Refusal :=
  if s.cfg.WF then
    match s.inbox with
    | [] => .next s
    | st :: rest => { s with inbox := rest }.deliver st
  else .refused .illFormedConfig

/-- The operation a table word stands for, presented next: `step` runs it first. -/
def State.withFetchWord (s : State) (nbits w : Nat) : State :=
  { s with
    inbox := .request (tableRequest nbits w).1 (tableRequest nbits w).2 :: s.inbox }

end Sys2Proof.Machine
end

