-- ==== Sys2Proof/Safety.lean ====
section
/-! DEFINITION. What a state of the block must satisfy, collected from the invariants the spec states
(spec/10_state.md R23, R27, R29; spec/30_encoding.md R80; spec/43_buslink.md R187; spec/20_memory.md
R63), and when an outcome is safe. -/

namespace Sys2Proof.Machine

/-- The invariants of an averager (R22, R23 (a), (b), (d), (e)); `z` is `szero`. -/
structure Averager.Inv {S : Type} (z : S) (a : Averager S) : Prop where
  capBound : a.cap ≤ 256
  depthBound : a.depth.toNat < a.cap
  cursorBound : a.depth ≠ 0 → a.cursor.toNat < a.depth.toNat
  cursorZero : a.depth = 0 → a.cursor = 0
  cleared : ∀ x ∈ a.buf.drop a.depth.toNat, x = z
  notConsolidated : a.depth = 0 → a.consolidated = false

/-- Every sample an averager holds is a value of the sample type bound (R9, R22). -/
structure Averager.Typed (cfg : Config) (a : Averager Sample) : Prop where
  buf : ∀ x ∈ a.buf, sampleLegal cfg x = true
  acc : sampleLegal cfg a.acc = true
  lastAvg : sampleLegal cfg a.lastAvg = true

/-- The invariants of the pair of channel `c`, with the capacities of the configuration (R5, R22). -/
structure Channel.Inv (cfg : Config) (c : Nat) (ch : Channel) : Prop where
  inner : ch.inner.Inv (sampleArith cfg).szero
  innerCap : ch.inner.cap = cfg.capInner c
  innerTyped : ch.inner.Typed cfg
  outer : ch.outer.Inv (sampleArith cfg).szero
  outerCap : ch.outer.cap = cfg.capOuter c
  outerTyped : ch.outer.Typed cfg

/-- The invariants of a sampler (R26, R27): the prescaler is ten times an external value, and the
counter stays below it. -/
structure Sampler.Inv (s : Sampler) : Prop where
  tens : s.p10.toNat % 10 = 0
  bound : s.p10.toNat ≤ 2550
  counter : s.p10 ≠ 0 → s.counter.toNat < s.p10.toNat

/-- A byte a reply payload may hold: a command id, an upper-case hex digit or `*` (R187). -/
def replyByte (b : Byte) : Bool :=
  cmdTable.any (fun cmd => cmd.byte == b) || b == chError ||
  decide (0x30 ≤ b.toNat ∧ b.toNat ≤ 0x39) || decide (0x41 ≤ b.toNat ∧ b.toNat ≤ 0x46)

/-- The invariants of the link (R29, R80, R187, R248): buffers of their sizes, a payload held only
while receiving and free of frame delimiters, a pending reply of reply bytes only. -/
structure Link.Inv (cfg : Config) (l : Link) : Prop where
  rxSize : l.rxBuf.length = cfg.rxBufSize
  rxLen : l.rxLen ≤ cfg.rxBufSize
  txSize : l.txBuf.length = cfg.txBufSize
  txLen : l.txLen ≤ cfg.txBufSize
  idle : l.rxState ≠ .receiving → l.rxLen = 0
  payload : ∀ b ∈ l.rxBuf.take l.rxLen, b ≠ chHeader ∧ b ≠ chTrailer
  reply : l.txPending = true → ∀ b ∈ l.txBuf.take l.txLen, replyByte b = true

/-- A name the `sensorName` port may give: non-zero bytes, and the reply of `I` fits (R34, U7). -/
def nameFits (cfg : Config) (name : List Byte) : Bool :=
  name.all (fun b => b != 0) && decide (5 + 2 * name.length ≤ cfg.txBufSize)

/-- The machine's invariant. -/
structure State.Inv (s : State) : Prop where
  config : s.cfg.WF
  count : s.channels.length = s.cfg.nch
  channels : ∀ (c : Nat) (ch : Channel), s.channels[c]? = some ch → ch.Inv s.cfg c
  opc : s.opc.Inv
  mox : s.mox.Inv
  link : s.link.Inv s.cfg
  store : s.nv.wf
  names : ∀ name, some name ∈ s.ports.sensorNames → nameFits s.cfg name = true

/-- An outcome that is no fault: "no operation of the block halts it" (R240). -/
def noFault : Outcome → Bool
  | .fault _ => false
  | .next _ => true
  | .refused _ => true

/-! ### Frames -/

/-- Only averager `a` and the result port differ: `a` is now `x`, every other averager is as before,
and so is every other field of the state. -/
structure OnlyAverager (s t : State) (a : AvgRef) (x : Averager Sample) (r : OpResult) : Prop where
  changed : t.averager? a = some x
  others : ∀ b, b ≠ a → t.averager? b = s.averager? b
  count : t.channels.length = s.channels.length
  rest : t = { s with channels := t.channels, result := r }

/-- Only the link's reply registers and the result port differ: the payload `r` is in the reply
buffer and pending, and the slots beyond it are as before (R61, R200). -/
structure OnlyReply (s t : State) (r : List Byte) : Prop where
  payload : t.link.txBuf.take r.length = r
  slots : t.link.txBuf.drop r.length = s.link.txBuf.drop r.length
  rest : t = { s with
    link := { s.link with txBuf := t.link.txBuf, txLen := r.length, txPending := true }
    result := .none }

/-- What a tick makes of a sampler at time `now`, in the words of R151. -/
def TickOf (now : U32) (s t : Sampler) (started : Bool) : Prop :=
  (s.p10 = 0 → started = false ∧ t = s) ∧
  (s.p10 ≠ 0 → s.counter.toNat = s.p10.toNat - 1 →
    started = true ∧ t = { s with counter := 0, runTs := now, go := true }) ∧
  (s.p10 ≠ 0 → s.counter.toNat ≠ s.p10.toNat - 1 →
    started = false ∧ t = { s with counter := s.counter + 1 })

/-- The averager after a successful change to depth `d`, register by register (R110, R111). -/
def Averager.clearedTo {S : Type} (z : S) (a : Averager S) (d : Byte) : Averager S where
  depth := d
  buf := List.replicate a.cap z
  acc := z
  cursor := 0
  consolidated := false
  lastAvg := a.lastAvg
  lastTs := a.lastTs

/-! ### Sequences of operations, for the laws the spec states about them -/

/-- Samples collected one after another, with the `produced` result of each (R117). -/
def Averager.collects {S : Type} (A : SampleArith S) (a : Averager S) :
    List (S × U32) → Option (List Bool × Averager S)
  | [] => some ([], a)
  | (v, ts) :: rest =>
    match a.collect A v ts with
    | none => none
    | some (p, b) =>
      match b.collects A rest with
      | none => none
      | some (ps, c) => some (p :: ps, c)

/-- Samples fed one after another to a channel, with the `new_output` result of each (R141). -/
def Channel.feeds (A : SampleArith Sample) (ch : Channel) :
    List (Sample × U32) → Option (List Bool × Channel)
  | [] => some ([], ch)
  | (v, ts) :: rest =>
    match ch.feed A v ts with
    | none => none
    | some (p, ch') =>
      match ch'.feeds A rest with
      | none => none
      | some (ps, ch'') => some (p :: ps, ch'')

/-- A sampler after `k` ticks, the `i`-th at time `now i` (R157). -/
def Sampler.afterTicks (now : Nat → U32) (s : Sampler) : Nat → Sampler
  | 0 => s
  | k + 1 => ((s.afterTicks now k).tick (now k)).2

/-- Bytes received one after another, one `LNK.RX` each (R92). -/
def State.receive (s : State) : List Byte → Outcome
  | [] => .next s
  | b :: bs =>
    match exec (.lnkRx b) s with
    | .next t => t.receive bs
    | .fault f => .fault f
    | .refused r => .refused r

/-- An exact sample arithmetic (R9): `val` is the number a sample stands for, and the operations are
those of the numbers. With samples that are rationals, `val` is the identity. -/
structure ExactArith {S : Type} (A : SampleArith S) (val : S → ℚ) : Prop where
  zero : val A.szero = 0
  add : ∀ a b, val (A.sadd a b) = val a + val b
  sub : ∀ a b, val (A.ssub a b) = val a - val b
  div : ∀ a (n : Nat), 1 ≤ n → n ≤ 255 → val (A.sdivn a n) = val a / n

/-- `P(d, k)` of R141: call `k` of an averager of depth `d` reports an output. -/
abbrev Reports (d k : Nat) : Prop := d = 0 ∨ k < d ∨ k % d = 0

/-- `K(n)` of R141: how many outputs the inner averager of depth `d` has reported by feed `n`. -/
def outputsBy (d n : Nat) : Nat := if d = 0 ∨ n < d then n else d - 1 + n / d

/-- The binary32 number `k / 2`, for a `k` it represents (R9, `ExactSmall`). -/
def b32Half (k : Int) : F32 := fRound (decide (k < 0)) (k.natAbs * 2 ^ 148) 1

end Sys2Proof.Machine
end

