-- ==== Sys2Proof/Certificates/Slice0/Obligations.lean ====
section
/-! DEFINITION. The statements for the provers, from the numbered rules of spec/. Each docstring names
the rules; `s` is the state before an operation. -/

open Sys2Proof Sys2Proof.Machine

/-! ### Encodings -/

/-- R84, R86, R91: decoding the bytes of an operation at its port gives it back, whatever its
operands. -/
def Obligations.DecodeEncodeRoundTrip : Prop :=
  ∀ i : Instr, decodeAt i.port (encode i) = .ok i

/-- R91: a request at the operation port has one reading only: what decodes is the encoding of what
it decodes to, and no wire command stands there. -/
def Obligations.OperationRequestHasOneReading : Prop :=
  ∀ (bs : List Byte) (i : Instr), decodeOp bs = .ok i → encode i = bs ∧ i.port = .operation

/-- R84, R86, R200: a payload with a command's id and at least its parameters is that command,
whatever follows. That an empty one, one with another id and one too short decode to the row of the
error reply is the model's reading (DEDUCED, log 18): the spec says that their dispatch ends with the
error reply. -/
def Obligations.PayloadDecodesByTable : Prop :=
  (∀ (cmd : CmdId) (ps extra : List Byte), ps.length = 2 * cmd.params →
    encode (commandInstr cmd ps) = cmd.byte :: ps ∧
    decodePayload (cmd.byte :: (ps ++ extra)) = commandInstr cmd ps) ∧
  decodePayload [] = .errorReply ∧
  (∀ (id : Byte) (ps : List Byte), (∀ cmd : CmdId, cmd.byte ≠ id) →
    decodePayload (id :: ps) = .errorReply) ∧
  (∀ (cmd : CmdId) (ps : List Byte), ps.length < 2 * cmd.params →
    decodePayload (cmd.byte :: ps) = .errorReply)

/-- R91, R94: words written out from the tables decode to the operations they stand for. -/
def Obligations.WordsDecodeAsTabled : Prop :=
  decodeOp [0x00] = .ok .sysReset ∧
  decodeOp [0x11, 3, 1, 7] = .ok (.avgSetDepth ⟨3, .outer⟩ 7) ∧
  decodeOp [0x23, 3, 0x40, 0xC0, 0, 0, 0, 0, 0, 10] = .ok (.chFeed 3 [0x40, 0xC0, 0, 0] 10) ∧
  decodeOp [0x31, 1, 1] = .ok (.smpTask .mox true) ∧
  decodeOp [0x40, 0x5B] = .ok (.lnkRx 0x5B) ∧
  decodeOp [0x50, 0x45] = .ok (.cmdDispatch [0x45]) ∧
  decodePayload [0x4F, 0x30, 0x33, 0x30, 0x36] = .cmdO 0x30 0x33 0x30 0x36 ∧
  decodeTableWord 8 0x2A = some .errorReply ∧
  decodeTableWord 8 0x02 = none ∧ decodeOp [0x45] = .error (.unknownCode 0x45)

/-- R83, R85, R62: hex digits on input and output; what is written with `hex8` reads back; `hex8`
writes the high digit first, and `hex16` and `hex32` the most significant byte first. -/
def Obligations.HexDigitsInAndOut : Prop :=
  (∀ (c : Config) (b : Byte),
    (0x30 ≤ b.toNat → b.toNat ≤ 0x39 → hexVal c b = some (BitVec.ofNat 4 (b.toNat - 0x30))) ∧
    (0x41 ≤ b.toNat → b.toNat ≤ 0x46 → hexVal c b = some (BitVec.ofNat 4 (b.toNat - 0x41 + 10))) ∧
    (0x61 ≤ b.toNat → b.toNat ≤ 0x66 → hexVal c b = c.lowerHex.getD (b.toNat - 0x61) none) ∧
    (b.toNat < 0x30 ∨ (0x39 < b.toNat ∧ b.toNat < 0x41) ∨ (0x46 < b.toNat ∧ b.toNat < 0x61) ∨
      0x66 < b.toNat → hexVal c b = none)) ∧
  (∀ n : Nibble, (n.toNat < 10 → (hexChr n).toNat = 0x30 + n.toNat) ∧
    (10 ≤ n.toNat → (hexChr n).toNat = 0x41 + (n.toNat - 10))) ∧
  (∀ (c : Config) (v h l : Byte), hex8 v = [h, l] → hexByte c h l = some v) ∧
  (∀ v : Byte, hex8 v =
    [hexChr (BitVec.ofNat 4 (v.toNat / 2 ^ 4)), hexChr (BitVec.ofNat 4 (v.toNat % 2 ^ 4))]) ∧
  (∀ v : U16, hex16 v =
    hex8 (BitVec.ofNat 8 (v.toNat / 2 ^ 8)) ++ hex8 (BitVec.ofNat 8 (v.toNat % 2 ^ 8))) ∧
  (∀ v : U32, hex32 v =
    hex8 (BitVec.ofNat 8 (v.toNat / 2 ^ 24)) ++ hex8 (BitVec.ofNat 8 (v.toNat / 2 ^ 16 % 2 ^ 8)) ++
    hex8 (BitVec.ofNat 8 (v.toNat / 2 ^ 8 % 2 ^ 8)) ++ hex8 (BitVec.ofNat 8 (v.toNat % 2 ^ 8)))

/-! ### The averager -/

/-- R110: `AVG.INIT` clears everything but the latched outputs; every other averager, and every
other register, stays. That the latched outputs of the averager itself stay too is the model's reading
of "not written" (DEDUCED, log 22). -/
def Obligations.AvgInitClears : Prop :=
  ∀ (s : State) (a : AvgRef) (x : Averager Sample), s.averager? a = some x →
    ∃ t, exec (.avgInit a) s = .next t ∧
      OnlyAverager s t a (x.clearedTo (sampleArith s.cfg).szero 0) .none

/-- R111: `AVG.SETDEPTH` fails on a depth not below the capacity and then changes nothing; otherwise
it clears the averager, keeps the latched outputs and sets the depth. -/
def Obligations.AvgSetDepthClearsOrFails : Prop :=
  ∀ (s : State) (a : AvgRef) (x : Averager Sample) (d : Byte), s.averager? a = some x →
    (x.cap ≤ d.toNat → exec (.avgSetDepth a d) s = .next { s with result := .flag false }) ∧
    (d.toNat < x.cap → ∃ t, exec (.avgSetDepth a d) s = .next t ∧
      OnlyAverager s t a (x.clearedTo (sampleArith s.cfg).szero d) (.flag true))

/-- R112: `AVG.COLLECT`, in its four cases: pass-through, the cursor wraps, the first fill, no new
output. The operand is a sample of the type bound (R91); the hypothesis on the cursor is R61's bound,
which `StepKeepsInvariant` maintains. -/
def Obligations.AvgCollectFourCases : Prop :=
  ∀ (s : State) (a : AvgRef) (x : Averager Sample) (v : Sample) (ts : U32) (old : Sample),
    s.averager? a = some x → sampleLegal s.cfg v = true → x.buf[x.cursor.toNat]? = some old →
    let A := sampleArith s.cfg
    let acc := A.sadd (A.ssub x.acc old) v
    let k := (x.cursor.toNat + 1) % x.depth.toNat
    let y := { x with acc := acc, buf := x.buf.set x.cursor.toNat v, cursor := BitVec.ofNat 8 k }
    ∃ t, exec (.avgCollect a v ts) s = .next t ∧
      (x.depth = 0 →
        OnlyAverager s t a { x with acc := v, lastAvg := v, lastTs := ts } (.flag true)) ∧
      (x.depth ≠ 0 → k = 0 →
        OnlyAverager s t a
          { y with consolidated := true, lastAvg := A.sdivn acc x.depth.toNat, lastTs := ts }
          (.flag true)) ∧
      (x.depth ≠ 0 → k ≠ 0 → x.consolidated = false →
        OnlyAverager s t a { y with lastAvg := v, lastTs := ts } (.flag true)) ∧
      (x.depth ≠ 0 → k ≠ 0 → x.consolidated = true → OnlyAverager s t a y (.flag false))

/-- R113 to R116: the accessors return their register and change nothing else. -/
def Obligations.AvgAccessorsReturnRegisters : Prop :=
  ∀ (s : State) (a : AvgRef) (x : Averager Sample), s.averager? a = some x →
    exec (.avgLastAvg a) s = .next { s with result := .sample x.lastAvg } ∧
    exec (.avgLastCum a) s = .next { s with result := .sample x.acc } ∧
    exec (.avgLastTs a) s = .next { s with result := .time x.lastTs } ∧
    exec (.avgGetDepth a) s = .next { s with result := .byte x.depth }

/-- U5, U6: an averager operand names no averager exactly when its channel is outside the bank, and
then every averager operation is refused; so is a feed outside the bank. A byte string that is no
sample of the type bound is refused too (the model's reading of R91, log 5). -/
def Obligations.OperandsOutsideBankRefused : Prop :=
  ∀ (s : State) (a : AvgRef) (d : Byte) (v : Sample) (ts : U32), s.Inv →
    (s.averager? a = none ↔ s.cfg.nch ≤ a.channel.toNat) ∧
    (s.cfg.nch ≤ a.channel.toNat →
      exec (.avgInit a) s = .refused .noSuchAverager ∧
      exec (.avgSetDepth a d) s = .refused .noSuchAverager ∧
      exec (.avgCollect a v ts) s = .refused .noSuchAverager ∧
      exec (.avgLastAvg a) s = .refused .noSuchAverager ∧
      exec (.avgLastCum a) s = .refused .noSuchAverager ∧
      exec (.avgLastTs a) s = .refused .noSuchAverager ∧
      exec (.avgGetDepth a) s = .refused .noSuchAverager ∧
      exec (.chFeed a.channel v ts) s = .refused .noSuchChannel) ∧
    (a.channel.toNat < s.cfg.nch → sampleLegal s.cfg v = false →
      exec (.avgCollect a v ts) s = .refused .noSuchSample ∧
      exec (.chFeed a.channel v ts) s = .refused .noSuchSample)

/-- R117(a), (c): after a change to depth `d`, call `n` reports an output exactly when `d = 0`,
`n < d` or `n mod d = 0`, for every sample type and arithmetic; every sample is accepted. -/
def Obligations.AveragerCadence : Prop :=
  ∀ (S : Type) (A : SampleArith S) (a : Averager S) (d : Byte) (xs : List (S × U32)),
    d.toNat < a.cap →
    ∃ b, (a.clearedTo A.szero d).collects A xs =
      some ((List.range xs.length).map (fun k => decide (Reports d.toNat (k + 1))), b)

/-- R117(b), (e): under an exact arithmetic, of any sample type, the accumulator is the sum of the
last `min(n, d)` samples since the change of depth, whatever was collected before it (R117(g)). -/
def Obligations.AveragerWindowSum : Prop :=
  ∀ (S : Type) (A : SampleArith S) (val : S → ℚ) (a : Averager S) (d : Byte) (xs : List (S × U32)),
    ExactArith A val → 1 ≤ d.toNat → d.toNat < a.cap →
    ∃ ps b, (a.clearedTo A.szero d).collects A xs = some (ps, b) ∧
      val b.acc = ((xs.map (fun x => val x.1)).drop (xs.length - d.toNat)).sum

/-- R117(d): before the first full window the latched output is the last sample with its timestamp;
afterwards it is, under an exact arithmetic, the mean of the last complete block of `d` samples, with
the timestamp of the block's last sample. -/
def Obligations.AveragerLatchedOutput : Prop :=
  ∀ (S : Type) (A : SampleArith S) (val : S → ℚ) (a : Averager S) (d : Byte)
    (xs : List (S × U32)) (v : S) (ts : U32),
    ExactArith A val → 1 ≤ d.toNat → d.toNat < a.cap →
    let n := xs.length
    let m := d.toNat * (n / d.toNat)
    ∃ ps b, (a.clearedTo A.szero d).collects A xs = some (ps, b) ∧
      (n < d.toNat → xs.getLast? = some (v, ts) →
        b.lastAvg = v ∧ b.lastTs = ts ∧ b.consolidated = false) ∧
      (d.toNat ≤ n →
        val b.lastAvg =
          (((xs.map (fun x => val x.1)).take m).drop (m - d.toNat)).sum / d.toNat ∧
        (xs.map Prod.snd)[m - 1]? = some b.lastTs ∧ b.consolidated = true)

/-- R279: under `B32`, at a positive depth, a NaN in the accumulator, in the slot overwritten or in
the sample makes the accumulator a NaN. -/
def Obligations.NaNPoisonsAccumulator : Prop :=
  ∀ (c : Config) (a b : Averager Sample) (v old : Sample) (ts : U32) (p : Bool), c.arith = .b32 →
    a.depth ≠ 0 → a.buf[a.cursor.toNat]? = some old →
    fIsNaN (sampleF32 a.acc) || fIsNaN (sampleF32 old) || fIsNaN (sampleF32 v) →
    a.collect (sampleArith c) v ts = some (p, b) → fIsNaN (sampleF32 b.acc) = true

/-- R9, `ExactSmall`: on multiples of 1/2 of magnitude below 2^20 the reference binding is exact;
`b32Half k` is the number `k / 2`. -/
def Obligations.B32ExactOnSmallHalves : Prop :=
  (∀ k : Int, k.natAbs < 2 ^ 21 → fValue (b32Half k) = k * 2 ^ 148 ∧ fIsNaN (b32Half k) = false) ∧
  (∀ x y : Int, x.natAbs < 2 ^ 21 → y.natAbs < 2 ^ 21 → (x + y).natAbs < 2 ^ 21 →
    arithB32.sadd (b32Half x) (b32Half y) = b32Half (x + y)) ∧
  (∀ x y : Int, x.natAbs < 2 ^ 21 → y.natAbs < 2 ^ 21 → (x - y).natAbs < 2 ^ 21 →
    arithB32.ssub (b32Half x) (b32Half y) = b32Half (x - y)) ∧
  (∀ (q : Int) (n : Nat), 1 ≤ n → n ≤ 255 → (q * n).natAbs < 2 ^ 21 →
    arithB32.sdivn (b32Half (q * n)) n = b32Half q)

/-! ### The postscaler table, channels and bank -/

/-- R130: the entry chosen is the closest one not exceeding the request, or the first one when there
is none. -/
def Obligations.LutResolveSelectsClosest : Prop :=
  ∀ (s : State) (req : Byte), s.cfg.WF →
    ∃ e ∈ s.cfg.lut,
      exec (.lutResolve req) s = .next { s with result := .depths e.inner e.outer } ∧
      ((e.factor.toNat ≤ req.toNat ∧
          ∀ e' ∈ s.cfg.lut, e'.factor.toNat ≤ req.toNat → e'.factor.toNat ≤ e.factor.toNat) ∨
        ((∀ e' ∈ s.cfg.lut, req.toNat < e'.factor.toNat) ∧ s.cfg.lut.head? = some e))

/-- R140: the resolution is monotonic, does not exceed the request, is idempotent, and what is set
reads back as the factor selected. -/
def Obligations.ResolutionLaws : Prop :=
  ∀ (c : Config), c.WF →
    let F := fun (r : Byte) => (lutSelect c.lut r).factor
    (∀ r1 r2 : Byte, r1.toNat ≤ r2.toNat → (F r1).toNat ≤ (F r2).toNat) ∧
    (∀ r : Byte, (∃ e ∈ c.lut, e.factor.toNat ≤ r.toNat) → (F r).toNat ≤ r.toNat) ∧
    (∀ r : Byte, lutSelect c.lut (F r) = lutSelect c.lut r) ∧
    (∀ (s : State) (ch r : Byte), s.Inv → s.cfg = c → ch.toNat < c.nch →
      ∃ t, exec (.chSetPost ch r) s = .next t ∧ t.result = .flag true ∧
        exec (.chGetPost ch) t = .next { t with result := .checkedByte (some (F r)) })

/-- R131: `CH.SETPOST` is the resolution and then the two changes of depth; outside the bank it fails
and changes nothing. -/
def Obligations.ChSetPostSetsBothDepths : Prop :=
  ∀ (s : State) (c req i o : Byte), s.Inv →
    (s.cfg.nch ≤ c.toNat → exec (.chSetPost c req) s = .next { s with result := .flag false }) ∧
    (c.toNat < s.cfg.nch → exec (.lutResolve req) s = .next { s with result := .depths i o } →
      ∃ t u, exec (.avgSetDepth ⟨c, .inner⟩ i) s = .next t ∧ t.result = .flag true ∧
        exec (.avgSetDepth ⟨c, .outer⟩ o) t = .next u ∧ u.result = .flag true ∧
        exec (.chSetPost c req) s = .next u)

/-- R132: `CH.GETPOST` is the product of the two depths, depth 0 counting as 1, modulo 256. -/
def Obligations.ChGetPostReportsProduct : Prop :=
  ∀ (s : State) (c : Byte), s.Inv →
    (s.cfg.nch ≤ c.toNat → exec (.chGetPost c) s = .next { s with result := .checkedByte none }) ∧
    (∀ i o, s.averager? ⟨c, .inner⟩ = some i → s.averager? ⟨c, .outer⟩ = some o →
      ∃ p : Byte, exec (.chGetPost c) s = .next { s with result := .checkedByte (some p) } ∧
        p.toNat = ((if i.depth = 0 then 1 else i.depth.toNat) *
          (if o.depth = 0 then 1 else o.depth.toNat)) % 256)

/-- R133: `CH.FEED` collects into the inner averager and, only when that reports an output, passes
its latched value and timestamp to the outer one. -/
def Obligations.ChFeedChainsOnOutput : Prop :=
  ∀ (s : State) (c : Byte) (v : Sample) (ts : U32), s.Inv → c.toNat < s.cfg.nch →
    sampleLegal s.cfg v = true →
    ∃ t, exec (.avgCollect ⟨c, .inner⟩ v ts) s = .next t ∧
      (t.result = .flag false ∧ exec (.chFeed c v ts) s = .next t ∨
       t.result = .flag true ∧ ∃ i u, t.averager? ⟨c, .inner⟩ = some i ∧
        exec (.avgCollect ⟨c, .outer⟩ i.lastAvg i.lastTs) t = .next u ∧
        exec (.chFeed c v ts) s = .next u)

/-- R134: `CH.LAST` reads the outer mean, or the live sum for the volume channel, clamped at zero
except for the temperature channel, with the outer timestamp. -/
def Obligations.ChLastReadsOuterStage : Prop :=
  ∀ (s : State) (c : Byte), s.Inv →
    (s.cfg.nch ≤ c.toNat → exec (.chLast c) s = .next { s with result := .checkedSample none }) ∧
    (∀ o, s.averager? ⟨c, .outer⟩ = some o →
      ∃ v, exec (.chLast c) s = .next { s with result := .checkedSample (some (v, o.lastTs)) } ∧
        (let x := if c.toNat = s.cfg.chVol then o.acc else o.lastAvg
         v = if c.toNat ≠ s.cfg.chTemp ∧ (sampleArith s.cfg).slt0 x = true
          then (sampleArith s.cfg).szero else x))

/-- R141: the cadence of a pair. -/
def Obligations.PairCadence : Prop :=
  ∀ (A : SampleArith Sample) (ch : Channel) (di d : Byte) (xs : List (Sample × U32)),
    di.toNat < ch.inner.cap → d.toNat < ch.outer.cap →
    ∃ ch', Channel.feeds A ⟨ch.inner.clearedTo A.szero di, ch.outer.clearedTo A.szero d⟩ xs =
      some ((List.range xs.length).map (fun k => decide (Reports di.toNat (k + 1) ∧
        Reports d.toNat (outputsBy di.toNat (k + 1)))), ch')

/-- R135: after `BANK.CORRECT` every OPC channel holds the most frequent pair (on a tie the one held
by the lowest channel index); channels that held it, and the MOX channels, are untouched; the others
are cleared. -/
def Obligations.BankCorrectImposesMajority : Prop :=
  ∀ s : State, s.Inv →
    let opc := s.channels.take s.cfg.partition
    let count := fun (p : Byte × Byte) => opc.countP (fun ch => decide (ch.pair = p))
    let z := (sampleArith s.cfg).szero
    ∃ (t : State) (c0 : Nat) (ch0 : Channel), exec .bankCorrect s = .next t ∧
      opc[c0]? = some ch0 ∧
      (∀ (c : Nat) (ch : Channel), opc[c]? = some ch → count ch.pair ≤ count ch0.pair ∧
        (count ch.pair = count ch0.pair → c0 ≤ c)) ∧
      (∀ (c : Nat) (ch : Channel), s.channels[c]? = some ch → ∃ ch', t.channels[c]? = some ch' ∧
        (s.cfg.partition ≤ c ∨ ch.pair = ch0.pair → ch' = ch) ∧
        (c < s.cfg.partition → ch.pair ≠ ch0.pair →
          ch' = ⟨ch.inner.clearedTo z ch0.inner.depth, ch.outer.clearedTo z ch0.outer.depth⟩)) ∧
      t.channels.length = s.channels.length ∧
      t = { s with channels := t.channels, result := .none }

/-- R136: `BANK.RESTART` clears every averager at its own depth. -/
def Obligations.BankRestartClearsAll : Prop :=
  ∀ s : State, s.Inv →
    let z := (sampleArith s.cfg).szero
    exec .bankRestart s = .next { s with
      channels := s.channels.map (fun ch =>
        ⟨ch.inner.clearedTo z ch.inner.depth, ch.outer.clearedTo z ch.outer.depth⟩)
      result := .none }

/-- R137: `BANK.ENABLESAMPLING`. -/
def Obligations.EnableSamplingRequests : Prop :=
  ∀ s : State, s.Inv →
    (s.ports.samplingEnabled = true →
      exec (.bankEnableSampling true) s = .next { s with result := .none }) ∧
    (s.ports.samplingEnabled = false → ∃ t u, exec .bankCorrect s = .next t ∧
      exec .bankRestart t = .next u ∧
      exec (.bankEnableSampling true) s =
        .next { u with events := s.events ++ [PortEvent.startReq] }) ∧
    exec (.bankEnableSampling false) s =
      .next { s with events := s.events ++ [PortEvent.stopReq], result := .none }

/-- R138: `CH.LOADPRESET` reads the three bytes, sets the prescaler through `CH.SETPRE` and both
depths, ignoring whether the depths were accepted. -/
def Obligations.LoadPresetSetsFromStore : Prop :=
  ∀ (s : State) (c : Byte), s.Inv →
    (s.cfg.nch ≤ c.toNat → exec (.chLoadPreset c) s = .next { s with result := .flag false }) ∧
    (c.toNat < s.cfg.nch →
      let x := if c.toNat < s.cfg.partition then 0 else 1
      let pb := s.nv.read (s.cfg.nvPreBase + x)
      let e := if pb = 0xFF then s.cfg.defaultPrescaler else pb
      ∃ t u w, exec (.chSetPre c e) s = .next t ∧
        exec (.avgSetDepth ⟨c, .inner⟩ (s.nv.read (s.cfg.nvInnerBase + c.toNat))) t = .next u ∧
        exec (.avgSetDepth ⟨c, .outer⟩ (s.nv.read (s.cfg.nvOuterBase + c.toNat))) u = .next w ∧
        exec (.chLoadPreset c) s = .next { w with result := .flag true })

/-- R139, R66: `CH.SAVEPRESET` stores the prescaler and both depths at their addresses and changes
nothing else, no other byte of the store included. -/
def Obligations.SavePresetWritesThreeBytes : Prop :=
  ∀ (s : State) (c : Byte), s.Inv →
    (s.cfg.nch ≤ c.toNat → exec (.chSavePreset c) s = .next { s with result := .flag false }) ∧
    (∀ i o, s.averager? ⟨c, .inner⟩ = some i → s.averager? ⟨c, .outer⟩ = some o →
      let x := sensorOf s.cfg c
      let pre := s.cfg.nvPreBase + (if c.toNat < s.cfg.partition then 0 else 1)
      let ia := s.cfg.nvInnerBase + c.toNat
      let oa := s.cfg.nvOuterBase + c.toNat
      ∃ t, exec (.chSavePreset c) s = .next t ∧
        (t.nv.read pre).toNat = (s.sampler x).p10.toNat / 10 ∧
        t.nv.read ia = i.depth ∧ t.nv.read oa = o.depth ∧
        (∀ a, a ≠ pre → a ≠ ia → a ≠ oa → t.nv.read a = s.nv.read a) ∧
        t = { s with nv := t.nv, result := .flag true })

/-- R143: saving and reloading a channel gives back its prescaler and both depths, unless the
prescaler is 255 or below the MOX minimum; the averagers are cleared and the counter is reset. -/
def Obligations.PresetRoundTrip : Prop :=
  ∀ (s : State) (c : Byte) (i o : Averager Sample), s.Inv →
    s.averager? ⟨c, .inner⟩ = some i → s.averager? ⟨c, .outer⟩ = some o →
    let x := sensorOf s.cfg c
    let e := (s.sampler x).p10.toNat / 10
    e ≠ 255 → (x = .mox → s.cfg.moxMinPrescaler.toNat ≤ e) →
    let z := (sampleArith s.cfg).szero
    ∃ t u, exec (.chSavePreset c) s = .next t ∧ exec (.chLoadPreset c) t = .next u ∧
      u.result = .flag true ∧ u.nv = t.nv ∧
      u.sampler x = { s.sampler x with counter := 0 } ∧
      u.averager? ⟨c, .inner⟩ = some (i.clearedTo z i.depth) ∧
      u.averager? ⟨c, .outer⟩ = some (o.clearedTo z o.depth)

/-! ### The tick and the samplers -/

/-- R151: `SMP.TICK`. -/
def Obligations.SmpTickCountsPeriod : Prop :=
  ∀ (s : State) (x : Sensor), ∃ y started,
    exec (.smpTick x) s = .next { s.setSampler x y with result := .flag started } ∧
    TickOf s.ticks (s.sampler x) y started

/-- R150: `SYS.TICKIRQ` advances the clock, then ticks both samplers at the new time, and touches
nothing else (R250). -/
def Obligations.TickIrqTicksBothSamplers : Prop :=
  ∀ s : State, ∃ a b started started',
    exec .sysTickIrq s =
      .next { s with ticks := s.ticks + 1, opc := a, mox := b, result := .none } ∧
    TickOf (s.ticks + 1) s.opc a started ∧ TickOf (s.ticks + 1) s.mox b started'

/-- R152: `SMP.TASK` reads and clears `go`, latches the running timestamp if it was set, and returns
the handler's value, or the flag when no handler is bound. -/
def Obligations.SmpTaskReadsAndClearsGo : Prop :=
  ∀ (s : State) (x : Sensor) (hret : Bool),
    let m := s.sampler x
    let t := s.setSampler x { m with go := false, latTs := if m.go then m.runTs else m.latTs }
    (m.bound = false → exec (.smpTask x hret) s = .next { t with result := .flag m.go }) ∧
    (m.bound = true → exec (.smpTask x hret) s = .next { t with
      events := s.events ++ [PortEvent.handlerCall x m.go], result := .flag hret })

/-- R153, R154: `SMP.SETPRE` stores ten times the external value and restarts the period;
`SMP.GETPRE` gives the external value back. -/
def Obligations.SmpPrescalerTimesTen : Prop :=
  ∀ (s : State) (x : Sensor) (e : Byte),
    ∃ p : U16, p.toNat = 10 * e.toNat ∧
      exec (.smpSetPre x e) s =
        .next { s.setSampler x { s.sampler x with p10 := p, counter := 0 } with result := .none } ∧
    (∃ r : Byte, r.toNat = (s.sampler x).p10.toNat / 10 % 256 ∧
      exec (.smpGetPre x) s = .next { s with result := .byte r }) ∧
    ∀ t, exec (.smpSetPre x e) s = .next t →
      exec (.smpGetPre x) t = .next { t with result := .byte e }

/-- R155, R156: the per-channel prescaler acts on the channel's sensor; a MOX channel's value is
raised to the minimum; outside the bank both fail and change nothing. -/
def Obligations.ChannelPrescalerFloorsMox : Prop :=
  ∀ (s : State) (c e : Byte), s.Inv →
    (s.cfg.nch ≤ c.toNat →
      exec (.chSetPre c e) s = .next { s with result := .flag false } ∧
      exec (.chGetPre c) s = .next { s with result := .checkedByte none }) ∧
    (c.toNat < s.cfg.partition →
      (∃ t, exec (.smpSetPre .opc e) s = .next t ∧
        exec (.chSetPre c e) s = .next { t with result := .flag true }) ∧
      (∃ r, exec (.smpGetPre .opc) s = .next { s with result := .byte r } ∧
        exec (.chGetPre c) s = .next { s with result := .checkedByte (some r) })) ∧
    (s.cfg.partition ≤ c.toNat → c.toNat < s.cfg.nch →
      let e' := if e.toNat < s.cfg.moxMinPrescaler.toNat then s.cfg.moxMinPrescaler else e
      (∃ t, exec (.smpSetPre .mox e') s = .next t ∧
        exec (.chSetPre c e) s = .next { t with result := .flag true }) ∧
      (∃ r, exec (.smpGetPre .mox) s = .next { s with result := .byte r } ∧
        exec (.chGetPre c) s = .next { s with result := .checkedByte (some r) }))

/-- R157: after the prescaler is set to `e >= 1`, the counter after `k` ticks is `k mod 10e`, and a
period starts exactly at the ticks that are multiples of `10e`. -/
def Obligations.SamplerPeriodIsTenE : Prop :=
  ∀ (s : Sampler) (e : Byte) (now : Nat → U32) (k : Nat), 1 ≤ e.toNat →
    (((s.setPre e).afterTicks now k).counter.toNat = k % (10 * e.toNat)) ∧
    ((((s.setPre e).afterTicks now k).tick (now k)).1 = true ↔ (k + 1) % (10 * e.toNat) = 0)

/-! ### The bus link -/

/-- R172: a header byte starts a new frame in any state, whatever was in progress. -/
def Obligations.HeaderByteStartsFrame : Prop :=
  ∀ s : State, exec (.lnkRx 0x5B) s = .next { s with
    link := { s.link with rxState := .headerFound, frameStart := s.ticks, rxLen := 0 }
    result := .none }

/-- R171, R247: the timeout comes first: a byte that is no header, taken when the frame is older than
the limit, is ignored and the frame is dropped, a trailer included. -/
def Obligations.ExpiredFrameDropped : Prop :=
  ∀ (s : State) (b : Byte), b ≠ 0x5B → s.link.rxState ≠ .searching →
    s.cfg.frameTimeout < (s.ticks - s.link.frameStart).toNat →
    exec (.lnkRx b) s = .next { s with
      link := { s.link with rxState := .searching, rxLen := 0 }, result := .none }

/-- R173 to R176: what a byte that is no header does before the payload, in a frame that has not
expired. -/
def Obligations.FrameHeaderPhases : Prop :=
  ∀ (s : State) (b : Byte), b ≠ 0x5B →
    let dropped := Host.Outcome.next (φ := Fault) (ρ := Refusal)
      { s with link := { s.link with rxState := .searching, rxLen := 0 }, result := .none }
    (s.link.rxState = .searching → exec (.lnkRx b) s = .next { s with result := .none }) ∧
    ((s.ticks - s.link.frameStart).toNat ≤ s.cfg.frameTimeout →
      (s.link.rxState = .headerFound →
        (b = s.cfg.protoVersion → exec (.lnkRx b) s = .next { s with
          link := { s.link with rxState := .versionFound }, result := .none }) ∧
        (b ≠ s.cfg.protoVersion → exec (.lnkRx b) s = dropped)) ∧
      (s.link.rxState = .versionFound →
        (∀ n, hexVal s.cfg b = some n → exec (.lnkRx b) s = .next { s with
          link := { s.link with rxState := .addressMsbFound, addrMsb := n }, result := .none }) ∧
        (hexVal s.cfg b = none → exec (.lnkRx b) s = dropped)) ∧
      (s.link.rxState = .addressMsbFound →
        (∀ n, hexVal s.cfg b = some n → s.link.addrMsb ++ n = s.boardId →
          exec (.lnkRx b) s = .next { s with
            link := { s.link with rxState := .receiving, rxLen := 0 }, result := .none }) ∧
        (∀ n, hexVal s.cfg b = some n → s.link.addrMsb ++ n ≠ s.boardId →
          exec (.lnkRx b) s = dropped) ∧
        (hexVal s.cfg b = none → exec (.lnkRx b) s = dropped)))

/-- R177: a payload byte is stored; one more than the buffer holds drops the frame. -/
def Obligations.PayloadByteStoredOrOverflow : Prop :=
  ∀ (s : State) (b : Byte), s.Inv → b ≠ 0x5B → b ≠ 0x5D → s.link.rxState = .receiving →
    (s.ticks - s.link.frameStart).toNat ≤ s.cfg.frameTimeout →
    (s.link.rxLen = s.cfg.rxBufSize → exec (.lnkRx b) s = .next { s with
      link := { s.link with rxState := .searching, rxLen := 0 }, result := .none }) ∧
    (s.link.rxLen ≠ s.cfg.rxBufSize → ∃ t, exec (.lnkRx b) s = .next t ∧
      t.link.rxBuf.take (s.link.rxLen + 1) = s.link.rxBuf.take s.link.rxLen ++ [b] ∧
      t.link.rxBuf.drop (s.link.rxLen + 1) = s.link.rxBuf.drop (s.link.rxLen + 1) ∧
      t = { s with
        link := { s.link with rxBuf := t.link.rxBuf, rxLen := s.link.rxLen + 1 }
        result := .none })

/-- R178, R184: the trailer hands the payload to the dispatch, the receiver being idle again and the
indicator pulsed. -/
def Obligations.TrailerCommitsPayload : Prop :=
  ∀ s : State, s.Inv → s.link.rxState = .receiving →
    (s.ticks - s.link.frameStart).toNat ≤ s.cfg.frameTimeout →
    exec (.lnkRx 0x5D) s = exec (.cmdDispatch (s.link.rxBuf.take s.link.rxLen)) { s with
      link := { s.link with
        rxState := .searching
        rxLen := 0
        ledOn := if s.link.ledEnabled then true else s.link.ledOn
        ledSince := if s.link.ledEnabled then s.ticks else s.link.ledSince } }

/-- R180, R183: `LNK.POLL` drops an expired frame, ends a flash and switches pulsing off, each by its
own strict limit, and changes nothing else. -/
def Obligations.PollAppliesThreeLimits : Prop :=
  ∀ s : State, ∃ drop flash idle : Bool,
    (drop = true ↔ s.link.rxState ≠ .searching ∧
      s.cfg.frameTimeout < (s.ticks - s.link.frameStart).toNat) ∧
    (flash = true ↔ s.link.ledOn = true ∧ s.cfg.ledFlash < (s.ticks - s.link.ledSince).toNat) ∧
    (idle = true ↔ s.link.ledEnabled = true ∧
      s.cfg.ledIdle < (s.ticks - s.link.ledEnableSince).toNat) ∧
    exec .lnkPoll s = .next { s with
      link := { s.link with
        rxState := if drop then .searching else s.link.rxState
        rxLen := if drop then 0 else s.link.rxLen
        ledOn := if flash then false else s.link.ledOn
        ledEnabled := if idle then false else s.link.ledEnabled }
      result := .none }

/-- R181, R184, R81: `LNK.TX` sends the whole reply frame when the receiver is idle and a reply is
pending, and otherwise does nothing. -/
def Obligations.TxSendsPendingReply : Prop :=
  ∀ s : State, s.Inv →
    (s.link.rxState = .searching → s.link.txPending = true → exec .lnkTx s = .next { s with
      tx := s.tx ++ ([0x28, s.cfg.protoVersion] ++ hex8 s.boardId ++
        s.link.txBuf.take s.link.txLen ++ [0x29])
      link := { s.link with
        txPending := false
        ledOn := if s.link.ledEnabled then true else s.link.ledOn
        ledSince := if s.link.ledEnabled then s.ticks else s.link.ledSince }
      result := .none }) ∧
    (s.link.rxState ≠ .searching ∨ s.link.txPending = false →
      exec .lnkTx s = .next { s with result := .none })

/-- R185: `LNK.LEDENABLE`. -/
def Obligations.LedEnableRestartsIdlePeriod : Prop :=
  ∀ s : State, exec .lnkLedEnable s = .next { s with
    link := { s.link with ledEnabled := true, ledEnableSince := s.ticks }, result := .none }

/-- R186(b): an echo frame for this board, received while idle, is answered by the echo reply. -/
def Obligations.EchoFrameIsAnswered : Prop :=
  ∀ s : State, s.Inv → s.link.rxState = .searching →
    ∃ t u, s.receive ([0x5B, s.cfg.protoVersion] ++ hex8 s.boardId ++ [0x45, 0x5D]) = .next t ∧
      exec .lnkTx t = .next u ∧
      u.tx = s.tx ++ ([0x28, s.cfg.protoVersion] ++ hex8 s.boardId ++ [0x45, 0x29]) ∧
      u.link.txPending = false ∧ u.channels = s.channels ∧ u.opc = s.opc ∧ u.mox = s.mox ∧
      u.nv = s.nv

/-- R186(a), R176: a frame for another board is dropped at its second address digit; its payload and
trailer are ignored, and nothing is left behind but what no idle state reads. -/
def Obligations.OtherBoardsFrameIgnored : Prop :=
  ∀ (s : State) (id : Byte) (p : List Byte), s.cfg.WF → id ≠ s.boardId → 0x5B#8 ∉ p →
    s.receive ([0x5B, s.cfg.protoVersion] ++ hex8 id ++ p) = .next { s with
      link := { s.link with
        rxState := .searching
        rxLen := 0
        frameStart := s.ticks
        addrMsb := id.extractLsb' 4 4 }
      result := .none }

/-! ### Commands -/

/-- R200, R216, R182: a dispatch always leaves exactly one reply pending: the error reply alone, or a
payload that begins with the request's id. That it does what the operation its payload decodes to
does, which for a payload rejected before its parameters is the row of the error reply run as an
operation, is the model's reading (DEDUCED, log 18). -/
def Obligations.DispatchLeavesOneReply : Prop :=
  ∀ (s : State) (p : List Byte), exec (.cmdDispatch p) s = exec (decodePayload p) s ∧
    (s.Inv → ∃ t, exec (.cmdDispatch p) s = .next t ∧ t.link.txPending = true ∧
      (t.link.txBuf.take t.link.txLen = [0x2A] ∨
        ∃ id, p.head? = some id ∧ (t.link.txBuf.take t.link.txLen).head? = some id))

/-- R200, R201, R243, R249, R202: every way a payload is answered with `*`, and that nothing else
changes then. That the row `*` itself, run as an operation, does the same is the model's reading
(DEDUCED, log 18), since the spec says that it is no operation anyone invokes (R215). -/
def Obligations.RejectedPayloadOnlyErrorReply : Prop :=
  ∀ s : State, s.cfg.WF →
    (∃ t, exec .errorReply s = .next t ∧ OnlyReply s t [0x2A]) ∧
    ∀ p : List Byte,
      (p = [] ∨
       (∃ id ps, p = id :: ps ∧ ∀ cmd : CmdId, cmd.byte ≠ id) ∨
       (∃ cmd : CmdId, ∃ ps, p = cmd.byte :: ps ∧ ps.length < 2 * cmd.params) ∨
       (∃ cmd : CmdId, ∃ ps, p = cmd.byte :: ps ∧ 2 * cmd.params ≤ ps.length ∧
         ∃ j < cmd.params, ∃ h l, ps[2 * j]? = some h ∧ ps[2 * j + 1]? = some l ∧
           hexByte s.cfg h l = none) ∨
       (∃ cmd : CmdId, ∃ h l c ps, p = cmd.byte :: h :: l :: ps ∧ 1 ≤ cmd.params ∧
         hexByte s.cfg h l = some c ∧ s.cfg.nch ≤ c.toNat)) →
      ∃ t, exec (.cmdDispatch p) s = .next t ∧ OnlyReply s t [0x2A]

/-- R203, R208, R210, R211, R212: the commands that only read reply with the value the operation
reads, and change nothing but the reply; with a channel outside the bank they are answered with `*`.
That `G` and `Y` are answered with `*` when the optional driver input of R217 is raised, and change
nothing then, is the model's choice (DESIGN CHOICE, log 19). -/
def Obligations.ReadCommandsReply : Prop :=
  ∀ (s : State) (h l c : Byte), s.Inv → hexByte s.cfg h l = some c →
    (∃ t, exec .cmdE s = .next t ∧ OnlyReply s t [0x45]) ∧
    (c.toNat < s.cfg.nch →
      (∃ e t, exec (.chGetPre c) s = .next { s with result := .checkedByte (some e) } ∧
        exec (.cmdQ h l) s = .next t ∧ OnlyReply s t (0x51 :: hex8 c ++ hex8 e)) ∧
      (∃ p t, exec (.chGetPost c) s = .next { s with result := .checkedByte (some p) } ∧
        exec (.cmdN h l) s = .next t ∧ OnlyReply s t (0x4E :: hex8 c ++ hex8 p)) ∧
      (s.ports.driverFails = false →
        ∃ v ts t u, exec (.chLast c) s = .next { s with result := .checkedSample (some (v, ts)) } ∧
          exec (.cmdG h l) s = .next t ∧
          OnlyReply s t (0x47 :: hex8 c ++ (hex16 ((sampleArith s.cfg).trunc16 v) ++ hex32 ts)) ∧
          exec (.cmdY h l) s = .next u ∧
          OnlyReply s u (0x59 :: hex8 c ++ (hex32 ((sampleArith s.cfg).bits32 v) ++ hex32 ts)))) ∧
    (s.cfg.nch ≤ c.toNat ∨ s.ports.driverFails = true →
      (∃ t, exec (.cmdG h l) s = .next t ∧ OnlyReply s t [0x2A]) ∧
      (∃ t, exec (.cmdY h l) s = .next t ∧ OnlyReply s t [0x2A])) ∧
    (s.cfg.nch ≤ c.toNat →
      (∃ t, exec (.cmdQ h l) s = .next t ∧ OnlyReply s t [0x2A]) ∧
      (∃ t, exec (.cmdN h l) s = .next t ∧ OnlyReply s t [0x2A]))

/-- R207, R209, R213, R214: the commands that write do what their channel operation does, and then
reply with id and channel; with a channel outside the bank they are answered with `*` and change
nothing else. That the same holds of `L` and `W` when the optional driver input of R217 is raised is
the model's choice (DESIGN CHOICE, unsafe, log 19). -/
def Obligations.WriteCommandsActAndReply : Prop :=
  ∀ (s : State) (h l c h' l' e : Byte), s.Inv → hexByte s.cfg h l = some c →
    hexByte s.cfg h' l' = some e →
    (c.toNat < s.cfg.nch →
      (∃ t u, exec (.chSetPre c e) s = .next t ∧ t.result = .flag true ∧
        exec (.cmdP h l h' l') s = .next u ∧ OnlyReply t u (0x50 :: hex8 c)) ∧
      (∃ t u, exec (.chSetPost c e) s = .next t ∧ t.result = .flag true ∧
        exec (.cmdO h l h' l') s = .next u ∧ OnlyReply t u (0x4F :: hex8 c)) ∧
      (s.ports.driverFails = false →
        (∃ t u, exec (.chLoadPreset c) s = .next t ∧ t.result = .flag true ∧
          exec (.cmdL h l) s = .next u ∧ OnlyReply t u (0x4C :: hex8 c)) ∧
        (∃ t u, exec (.chSavePreset c) s = .next t ∧ t.result = .flag true ∧
          exec (.cmdW h l) s = .next u ∧ OnlyReply t u (0x57 :: hex8 c)))) ∧
    (s.cfg.nch ≤ c.toNat ∨ s.ports.driverFails = true →
      (∃ u, exec (.cmdL h l) s = .next u ∧ OnlyReply s u [0x2A]) ∧
      (∃ u, exec (.cmdW h l) s = .next u ∧ OnlyReply s u [0x2A])) ∧
    (s.cfg.nch ≤ c.toNat →
      (∃ u, exec (.cmdP h l h' l') s = .next u ∧ OnlyReply s u [0x2A]) ∧
      (∃ u, exec (.cmdO h l h' l') s = .next u ∧ OnlyReply s u [0x2A]))

/-- R205, R206, R217: `S` and `X` do what `BANK.ENABLESAMPLING` does and echo their id. That they
change nothing but the reply when the optional driver input of R217 makes them fail is the model's
choice (DESIGN CHOICE, unsafe, log 19). -/
def Obligations.SamplingCommandsActAndReply : Prop :=
  ∀ s : State, s.Inv →
    (s.ports.driverFails = false →
      (∃ t u, exec (.bankEnableSampling true) s = .next t ∧ exec .cmdS s = .next u ∧
        OnlyReply t u [0x53]) ∧
      (∃ t u, exec (.bankEnableSampling false) s = .next t ∧ exec .cmdX s = .next u ∧
        OnlyReply t u [0x58])) ∧
    (s.ports.driverFails = true →
      (∃ u, exec .cmdS s = .next u ∧ OnlyReply s u [0x2A]) ∧
      (∃ u, exec .cmdX s = .next u ∧ OnlyReply s u [0x2A]))

/-- R204: `I` replies with the name in hex and "00", or fails when the channel is outside the bank or
the port gives no name; a name too long for the reply buffer has no meaning (U7). -/
def Obligations.InquiryRepliesWithName : Prop :=
  ∀ (s : State) (h l c : Byte), s.cfg.WF → hexByte s.cfg h l = some c →
    (c.toNat < s.cfg.nch → ∀ name, s.sensorName c = some name →
      (5 + 2 * name.length ≤ s.cfg.txBufSize → ∃ t, exec (.cmdI h l) s = .next t ∧
        OnlyReply s t (0x49 :: hex8 c ++ (name.flatMap hex8 ++ [0x30, 0x30]))) ∧
      (s.cfg.txBufSize < 5 + 2 * name.length → exec (.cmdI h l) s = .refused .replyTooLong)) ∧
    (s.cfg.nch ≤ c.toNat ∨ s.sensorName c = none →
      ∃ t, exec (.cmdI h l) s = .next t ∧ OnlyReply s t [0x2A])

/-! ### The machine as a whole -/

/-- R4, R67: a step runs the operation presented first, on the state from which only that request has
been taken; what decodes to nothing is refused (U6); with nothing presented the state stays. -/
def Obligations.StepRunsPresentedOperation : Prop :=
  ∀ (s : State) (port : Port) (bytes : List Byte) (rest : List Stimulus), s.cfg.WF →
    (s.inbox = .request port bytes :: rest →
      (∀ i, decodeAt port bytes = .ok i → step s = exec i { s with inbox := rest }) ∧
      (∀ e, decodeAt port bytes = .error e → step s = .refused (.noSuchOperation e))) ∧
    (s.inbox = [] → step s = .next s)

/-- R23, R27, R29: the state right after reset meets the invariant. -/
def Obligations.ResetMeetsInvariant : Prop := State.reset.Inv

/-- R23, R27, R63: every step keeps the invariant. -/
def Obligations.StepKeepsInvariant : Prop :=
  ∀ s t : State, s.Inv → step s = .next t → t.Inv

/-- R240: from a state that meets the invariant no step stops with a fault, and no well-formed
operation is refused. -/
def Obligations.NothingHaltsTheBlock : Prop :=
  (∀ s : State, s.Inv → noFault (step s) = true) ∧
  ∀ (s : State) (i : Instr), s.Inv → i.wellFormed s.cfg = true → ∃ t, exec i s = .next t

/-- R28, R35, R60, R139, R182, R216, R270: who writes what the units share. No operation changes the
configuration or the inputs; the clock moves by the tick and by reset only; the board's address is
taken at reset only; bytes leave by `LNK.TX` only; the store changes by a save only, whether at the
operation port, as `W`, or in a frame. That none changes the schedule `inbox`, and that only reset
advances `draws`, speaks of the model's own fields (DESIGN CHOICE, logs 3 and 10). -/
def Obligations.WritersOfSharedState : Prop :=
  ∀ (i : Instr) (s t : State), exec i s = .next t →
    t.cfg = s.cfg ∧ t.ports = s.ports ∧ t.inbox = s.inbox ∧
    (i ≠ .sysReset → t.boardId = s.boardId ∧ t.draws = s.draws) ∧
    (i ≠ .sysReset → i ≠ .sysTickIrq → t.ticks = s.ticks) ∧
    (i ≠ .lnkTx → t.tx = s.tx) ∧
    ((∀ c, i ≠ .chSavePreset c) → (∀ h l, i ≠ .cmdW h l) →
      (∀ p, i = .cmdDispatch p → p.head? ≠ some 0x57) →
      (i = .lnkRx 0x5D → s.link.rxBuf.head? ≠ some 0x57) → t.nv = s.nv)

/-- R61, R66, R72: the store: what is written is read back, every other address reads as before, an
address nothing has written reads as erased (the model's choice, log 11), and the canonical form is
kept. -/
def Obligations.StoreReadsBackWrites : Prop :=
  ∀ (m : Memory) (a : Nat) (b : Byte), m.wf →
    (m.write a b).wf ∧ (m.write a b).read a = b ∧
    (∀ a', a' ≠ a → (m.write a b).read a' = m.read a') ∧ Memory.read [] a = 0xFF

/-- R270, R36: what `SYS.RESET` leaves: every register with a reset value holds it, the store and the
inputs are untouched, and the invariants hold. -/
def Obligations.SysResetInitialises : Prop :=
  ∀ s : State, ∃ t, exec .sysReset s = .next t ∧
    t.channels.length = s.cfg.nch ∧
    (∀ (c : Nat) (ch : Channel), t.channels[c]? = some ch →
      let z := (sampleArith s.cfg).szero
      ch.inner = {
        depth := 0, buf := List.replicate (s.cfg.capInner c) z, acc := z, cursor := 0
        consolidated := false, lastAvg := ch.inner.lastAvg, lastTs := ch.inner.lastTs } ∧
      ch.outer = {
        depth := 0, buf := List.replicate (s.cfg.capOuter c) z, acc := z, cursor := 0
        consolidated := false, lastAvg := ch.outer.lastAvg, lastTs := ch.outer.lastTs }) ∧
    (∀ x, (t.sampler x).p10.toNat = 10 * s.cfg.smpResetPrescaler.toNat ∧
      (t.sampler x).counter = 0 ∧ (t.sampler x).go = false ∧
      (t.sampler x).bound = (s.sampler x).bound) ∧
    t.ticks = 0 ∧ t.link.rxState = .searching ∧ t.link.rxLen = 0 ∧ t.link.txLen = 0 ∧
    t.link.txPending = false ∧ t.link.ledOn = false ∧ t.link.ledEnabled = true ∧
    t.link.ledEnableSince = 0 ∧ t.boardId = s.ports.addressPins ∧
    t.nv = s.nv ∧ t.cfg = s.cfg ∧ t.ports = s.ports ∧ t.tx = s.tx ∧ t.events = s.events ∧
    (s.Inv → t.Inv)

/-- R36: the state the model calls reset holds the values of R36's table under its configuration; the
values R36 leaves unspecified are the model's choice (log 9) and are not stated here. -/
def Obligations.ResetStateHoldsTable : Prop :=
  let s := State.reset
  s.channels.length = s.cfg.nch ∧
  (∀ (c : Nat) (ch : Channel), s.channels[c]? = some ch →
    ∀ a, a = ch.inner ∨ a = ch.outer →
      a.depth = 0 ∧ a.acc = (sampleArith s.cfg).szero ∧ a.cursor = 0 ∧ a.consolidated = false ∧
      a.buf = List.replicate 16 (sampleArith s.cfg).szero) ∧
  (∀ x, (s.sampler x).p10.toNat = 10 * s.cfg.smpResetPrescaler.toNat ∧
    (s.sampler x).counter = 0 ∧ (s.sampler x).go = false) ∧
  s.ticks = 0 ∧ s.link.rxState = .searching ∧ s.link.rxLen = 0 ∧ s.link.txLen = 0 ∧
  s.link.txPending = false ∧ s.link.ledOn = false ∧ s.link.ledEnabled = true ∧
  s.link.ledEnableSince = 0 ∧ s.boardId = s.ports.addressPins ∧ s.nv.wf

/-- R9: the reference binding on the patterns of 32-bit floats: the machine's arithmetic is that of
`arithB32`; `slt0` is the ordered comparison with zero, false for -0 and for a NaN; `trunc16` is the
integer part on `0 <= a < 65536`; `bits32` is the encoding. `fValue` is the value in multiples of
2^-149, and exponent 255 marks the infinities and the NaNs. -/
def Obligations.B32ComparesTruncatesExposesBits : Prop :=
  ∀ c : Config, c.arith = .b32 →
    let A := sampleArith c
    A.szero = f32Sample 0 ∧
    (∀ x y : F32,
      A.sadd (f32Sample x) (f32Sample y) = f32Sample (arithB32.sadd x y) ∧
      A.ssub (f32Sample x) (f32Sample y) = f32Sample (arithB32.ssub x y)) ∧
    (∀ (x : F32) (n : Nat), A.sdivn (f32Sample x) n = f32Sample (arithB32.sdivn x n)) ∧
    (∀ x : F32, fExp x ≠ 255 → (A.slt0 (f32Sample x) = true ↔ fValue x < 0)) ∧
    (∀ x : F32, fIsNaN x = true → A.slt0 (f32Sample x) = false) ∧
    A.slt0 (f32Sample 0x80000000) = false ∧ A.slt0 (f32Sample 0xFF800000) = true ∧
    A.slt0 (f32Sample 0x7F800000) = false ∧
    (∀ x : F32, fExp x ≠ 255 → 0 ≤ fValue x → fValue x < 65536 * 2 ^ 149 →
      ((A.trunc16 (f32Sample x)).toNat : Int) = fValue x / 2 ^ 149) ∧
    (∀ x : F32, A.bits32 (f32Sample x) = x)

/-- R34, R204, U1, U7, U13: what a step does that takes a move of an input: that input, or that byte of
the store, and nothing else, the board's address included, which takes the pins at `SYS.RESET` only;
a name the port cannot give is refused; so is every step under an ill-formed configuration. The form
of the stimuli is the model's own (DESIGN CHOICE, logs 3, 19 and 20). -/
def Obligations.StepMovesInputs : Prop :=
  (∀ s : State, ¬ s.cfg.WF → step s = .refused .illFormedConfig) ∧
  ∀ (s : State) (st : Stimulus) (rest : List Stimulus), s.cfg.WF → s.inbox = st :: rest →
    let u : State := { s with inbox := rest }
    (∀ on, st = .setSamplingEnabled on →
      step s = .next { u with ports := { s.ports with samplingEnabled := on } }) ∧
    (∀ on, st = .setDriverFails on →
      step s = .next { u with ports := { s.ports with driverFails := on } }) ∧
    (∀ v, st = .setAddressPins v → ∃ t w,
      step s = .next t ∧ t = { u with ports := { s.ports with addressPins := v } } ∧
      t.boardId = s.boardId ∧ exec .sysReset t = .next w ∧ w.boardId = v) ∧
    (∀ c name, st = .setSensorName c name →
      let legal := ∀ n, name = some n →
        c.toNat < s.cfg.nch ∧ (0 : Byte) ∉ n ∧ 5 + 2 * n.length ≤ s.cfg.txBufSize
      (legal → ∃ t, step s = .next t ∧ t.sensorName c = name ∧
        (∀ d, d ≠ c → t.sensorName d = s.sensorName d) ∧
        t = { u with ports := { s.ports with sensorNames := t.ports.sensorNames } }) ∧
      (¬ legal → step s = .refused .illFormedName)) ∧
    (∀ a b, st = .writeStore a b → s.nv.wf → ∃ t, step s = .next t ∧ t.nv.read a = b ∧
      (∀ a', a' ≠ a → t.nv.read a' = s.nv.read a') ∧ t = { u with nv := t.nv })
end

