-- ==== Sys2Proof/Laws/Decode.lean ====
section
/-! SUPPORT. The decoder's and encoder's parts, each said once: the bytes of a word, the code tables,
and when each operand reader succeeds. -/

namespace Sys2Proof

/-! ### Bytes of a word -/

theorem u32OfBytes_extract (w : U32) :
    u32OfBytes (w.extractLsb' 24 8) (w.extractLsb' 16 8) (w.extractLsb' 8 8) (w.extractLsb' 0 8) = w := by
  apply BitVec.eq_of_getLsbD_eq
  intro i hi
  simp only [u32OfBytes, BitVec.getLsbD_append, BitVec.getLsbD_extractLsb']
  by_cases h1 : i < 8
  · simp [h1]
  · by_cases h2 : i < 16
    · have : i - 8 < 8 := by omega
      simp [h1, this]; congr 1; omega
    · by_cases h3 : i < 24
      · have a1 : ¬ i - 8 < 8 := by omega
        have a2 : i - 8 - 8 < 8 := by omega
        simp [h1, a1, a2]; congr 1; omega
      · have a1 : ¬ i - 8 < 8 := by omega
        have a2 : ¬ i - 8 - 8 < 8 := by omega
        have a3 : i - 8 - 8 - 8 < 8 := by omega
        simp [h1, a1, a2, a3]; congr 1; omega

theorem u32Bytes_u32OfBytes (a b c d : Byte) : u32Bytes (u32OfBytes a b c d) = [a, b, c, d] := by
  have key : ∀ (k : Nat) (x : Byte), (∀ i, i < 8 → (u32OfBytes a b c d).getLsbD (k + i) = x.getLsbD i) →
      (u32OfBytes a b c d).extractLsb' k 8 = x := by
    intro k x h
    apply BitVec.eq_of_getLsbD_eq
    intro i hi
    simp [hi, h i hi]
  simp only [u32Bytes, List.cons.injEq, and_true]
  refine ⟨key 24 a ?_, key 16 b ?_, key 8 c ?_, key 0 d ?_⟩ <;> intro i hi <;>
    simp only [u32OfBytes, BitVec.getLsbD_append]
  · have a0 : ¬ 24 + i < 8 := by omega
    have a1 : ¬ 24 + i - 8 < 8 := by omega
    have a2 : ¬ 24 + i - 8 - 8 < 8 := by omega
    have a3 : 24 + i - 8 - 8 - 8 = i := by omega
    simp [a0, a1, a2, a3]
  · have a0 : ¬ 16 + i < 8 := by omega
    have a1 : ¬ 16 + i - 8 < 8 := by omega
    have a2 : 16 + i - 8 - 8 = i := by omega
    simp [a0, a1, a2, hi]
  · have a0 : ¬ 8 + i < 8 := by omega
    have a1 : 8 + i - 8 = i := by omega
    simp [a0, a1, hi]
  · simp [hi]

@[simp] theorem stageOfByte_stageByte (x : Stage) : stageOfByte (stageByte x) = .ok x := by
  cases x <;> rfl

@[simp] theorem sensorOfByte_sensorByte (x : Sensor) : sensorOfByte (sensorByte x) = .ok x := by
  cases x <;> rfl

@[simp] theorem boolOfByte_boolByte (x : Bool) : boolOfByte (boolByte x) = .ok x := by
  cases x <;> rfl

theorem stageOfByte_eq_ok {b : Byte} {x : Stage} : stageOfByte b = .ok x ↔ b = stageByte x := by
  unfold stageOfByte stageByte; cases x <;> split <;> (try split) <;> simp_all

theorem sensorOfByte_eq_ok {b : Byte} {x : Sensor} : sensorOfByte b = .ok x ↔ b = sensorByte x := by
  unfold sensorOfByte sensorByte; cases x <;> split <;> (try split) <;> simp_all

theorem boolOfByte_eq_ok {b : Byte} {x : Bool} : boolOfByte b = .ok x ↔ b = boolByte x := by
  unfold boolOfByte boolByte; cases x <;> split <;> (try split) <;> simp_all

/-! ### Code tables -/

@[simp] theorem opCode?_code (op : OpCode) : opCode? op.code = some op := by cases op <;> rfl

theorem opCode?_eq_some {b : Byte} {op : OpCode} : opCode? b = some op ↔ b = op.code :=
  ⟨fun h => by have := List.find?_some h; exact (beq_iff_eq.1 this).symm,
    fun h => h ▸ opCode?_code op⟩

@[simp] theorem cmdOfByte?_byte (cmd : CmdId) : cmdOfByte? cmd.byte = some cmd := by cases cmd <;> rfl

theorem cmdOfByte?_eq_some {b : Byte} {cmd : CmdId} : cmdOfByte? b = some cmd ↔ b = cmd.byte :=
  ⟨fun h => by have := List.find?_some h; exact (beq_iff_eq.1 this).symm,
    fun h => h ▸ cmdOfByte?_byte cmd⟩

theorem cmdOfByte?_eq_none {b : Byte} : cmdOfByte? b = none ↔ ∀ cmd : CmdId, cmd.byte ≠ b := by
  constructor
  · intro h cmd hb; rw [← hb, cmdOfByte?_byte] at h; cases h
  · intro h
    cases hc : cmdOfByte? b with
    | none => rfl
    | some cmd => exact absurd (cmdOfByte?_eq_some.1 hc).symm (h cmd)

/-! ### Payloads -/

theorem parsePayload_short {cmd : CmdId} {ps : List Byte} (h : ps.length < 2 * cmd.params) :
    parsePayload (cmd.byte :: ps) = .error .shortParams := by simp [parsePayload, h]

theorem parsePayload_ok {cmd : CmdId} {ps : List Byte} (h : 2 * cmd.params ≤ ps.length) :
    parsePayload (cmd.byte :: ps) = .ok (cmd, ps.take (2 * cmd.params)) := by
  simp [parsePayload, Nat.not_lt.2 h]

theorem parsePayload_unknown {id : Byte} {ps : List Byte} (h : ∀ cmd : CmdId, cmd.byte ≠ id) :
    parsePayload (id :: ps) = .error .unknownId := by simp [parsePayload, cmdOfByte?_eq_none.2 h]

theorem parsePayload_eq_ok {p : List Byte} {cmd : CmdId} {ds : List Byte} :
    parsePayload p = .ok (cmd, ds) ↔ ∃ ps, p = cmd.byte :: ps ∧ 2 * cmd.params ≤ ps.length ∧
      ds = ps.take (2 * cmd.params) := by
  constructor
  · intro h
    cases p with
    | nil => cases h
    | cons id ps =>
      simp only [parsePayload] at h
      split at h
      · cases h
      · rename_i c hc
        split at h
        · cases h
        · cases h
          exact ⟨ps, by rw [cmdOfByte?_eq_some.1 hc], by omega, rfl⟩
  · rintro ⟨ps, rfl, h, rfl⟩
    exact parsePayload_ok h

/-! ### Operand readers -/

theorem readEnd_eq_ok {i j : Instr} {bs : List Byte} : readEnd i bs = .ok j ↔ bs = [] ∧ i = j := by
  cases bs <;> simp [readEnd]

theorem readByte_eq_ok {k : Byte → OperandReader} {bs : List Byte} {j : Instr} :
    readByte k bs = .ok j ↔ ∃ b r, bs = b :: r ∧ k b r = .ok j := by
  cases bs <;> simp [readByte]

theorem readWord_eq_ok {k : U32 → OperandReader} {bs : List Byte} {j : Instr} :
    readWord k bs = .ok j ↔ ∃ w r, bs = u32Bytes w ++ r ∧ k w r = .ok j := by
  constructor
  · intro h
    unfold readWord at h
    split at h
    · exact ⟨_, _, by rw [u32Bytes_u32OfBytes]; rfl, h⟩
    · cases h
  · rintro ⟨w, r, rfl, h⟩
    simpa [u32Bytes, readWord, u32OfBytes_extract] using h

theorem readSampleTime_eq_ok {k : Sample → U32 → Instr} {bs : List Byte} {j : Instr} :
    readSampleTime k bs = .ok j ↔ ∃ v ts, bs = v ++ u32Bytes ts ∧ k v ts = j := by
  unfold readSampleTime
  constructor
  · intro h
    obtain ⟨ts, r, hr, h1⟩ := readWord_eq_ok.1 h
    obtain ⟨rfl, rfl⟩ := readEnd_eq_ok.1 h1
    refine ⟨bs.take (bs.length - 4), ts, ?_, rfl⟩
    rw [← List.append_nil (u32Bytes ts), ← hr, List.take_append_drop]
  · rintro ⟨v, ts, rfl, rfl⟩
    have h4 : (u32Bytes ts).length = 4 := rfl
    exact readWord_eq_ok.2 ⟨ts, [], by simp [h4], by simp [h4, readEnd]⟩

@[simp] theorem readSampleTime_append (k : Sample → U32 → Instr) (v : Sample) (ts : U32) :
    readSampleTime k (v ++ u32Bytes ts) = .ok (k v ts) := readSampleTime_eq_ok.2 ⟨v, ts, rfl, rfl⟩

theorem readSensor_eq_ok {k : Sensor → OperandReader} {bs : List Byte} {j : Instr} :
    readSensor k bs = .ok j ↔ ∃ x r, bs = sensorByte x :: r ∧ k x r = .ok j := by
  unfold readSensor
  constructor
  · intro h
    obtain ⟨b, r, rfl, h1⟩ := readByte_eq_ok.1 h
    split at h1
    · rename_i x hx; exact ⟨x, r, by rw [sensorOfByte_eq_ok.1 hx], h1⟩
    · cases h1
  · rintro ⟨x, r, rfl, h⟩; simp [readByte, h]

theorem readBool_eq_ok {k : Bool → OperandReader} {bs : List Byte} {j : Instr} :
    readBool k bs = .ok j ↔ ∃ x r, bs = boolByte x :: r ∧ k x r = .ok j := by
  unfold readBool
  constructor
  · intro h
    obtain ⟨b, r, rfl, h1⟩ := readByte_eq_ok.1 h
    split at h1
    · rename_i x hx; exact ⟨x, r, by rw [boolOfByte_eq_ok.1 hx], h1⟩
    · cases h1
  · rintro ⟨x, r, rfl, h⟩; simp [readByte, h]

theorem readAvg_eq_ok {k : AvgRef → OperandReader} {bs : List Byte} {j : Instr} :
    readAvg k bs = .ok j ↔ ∃ a r, bs = avgRefBytes a ++ r ∧ k a r = .ok j := by
  unfold readAvg
  constructor
  · intro h
    obtain ⟨c, r, rfl, h1⟩ := readByte_eq_ok.1 h
    obtain ⟨b, r, rfl, h2⟩ := readByte_eq_ok.1 h1
    split at h2
    · rename_i x hx
      exact ⟨⟨c, x⟩, r, by rw [stageOfByte_eq_ok.1 hx]; rfl, h2⟩
    · cases h2
  · rintro ⟨a, r, rfl, h⟩; simp [readByte, avgRefBytes, h]

@[simp] theorem readEnd_nil (i : Instr) : readEnd i [] = .ok i := rfl

@[simp] theorem readByte_cons (k : Byte → OperandReader) (b : Byte) (r : List Byte) :
    readByte k (b :: r) = k b r := rfl

@[simp] theorem readWord_append (k : U32 → OperandReader) (w : U32) (r : List Byte) :
    readWord k (u32Bytes w ++ r) = k w r := by simp [u32Bytes, readWord, u32OfBytes_extract]

@[simp] theorem readWord_bytes (k : U32 → OperandReader) (w : U32) :
    readWord k (u32Bytes w) = k w [] := by simpa using readWord_append k w []

@[simp] theorem readSensor_cons (k : Sensor → OperandReader) (x : Sensor) (r : List Byte) :
    readSensor k (sensorByte x :: r) = k x r := by simp [readSensor]

@[simp] theorem readBool_cons (k : Bool → OperandReader) (x : Bool) (r : List Byte) :
    readBool k (boolByte x :: r) = k x r := by simp [readBool]

@[simp] theorem readAvg_append (k : AvgRef → OperandReader) (a : AvgRef) (r : List Byte) :
    readAvg k (avgRefBytes a ++ r) = k a r := by simp [readAvg, avgRefBytes]

@[simp] theorem readAvg_bytes (k : AvgRef → OperandReader) (a : AvgRef) :
    readAvg k (avgRefBytes a) = k a [] := by simpa using readAvg_append k a []

theorem decodeOp_cons (op : OpCode) (bs : List Byte) :
    decodeOp (op.code :: bs) = readOperands op bs := by simp [decodeOp]

theorem decodeOp_eq_ok {bs : List Byte} {i : Instr} :
    decodeOp bs = .ok i ↔ ∃ op r, bs = op.code :: r ∧ readOperands op r = .ok i := by
  constructor
  · intro h
    cases bs with
    | nil => cases h
    | cons b r =>
      simp only [decodeOp] at h
      split at h
      · rename_i op hop; exact ⟨op, r, by rw [opCode?_eq_some.1 hop], h⟩
      · cases h
  · rintro ⟨op, r, rfl, h⟩; rw [decodeOp_cons, h]

end Sys2Proof
end

