-- ==== Sys2Proof/Laws/Sample.lean ====
section
/-! SUPPORT. The sample arithmetic of a configuration: what `B32` does on patterns, and that every
operation of every binding gives a value of the sample type. -/

namespace Sys2Proof.Machine

/-! ### Patterns of 32-bit floats -/

@[simp] theorem sampleF32_f32Sample (x : F32) : sampleF32 (f32Sample x) = x := u32OfBytes_extract x

@[simp] theorem f32Sample_length (x : F32) : (f32Sample x).length = 4 := rfl

/-- A string of four bytes is the pattern of the float it reads as. -/
theorem f32Sample_sampleF32 {v : Sample} (h : v.length = 4) : f32Sample (sampleF32 v) = v := by
  match v, h with
  | [a, b, c, d], _ => exact u32Bytes_u32OfBytes a b c d

variable {c : Config}

theorem sampleArith_b32 (h : c.arith = .b32) : sampleArith c = onPatterns arithB32 := by
  simp [sampleArith, h]

theorem sampleLegal_b32 (h : c.arith = .b32) (v : Sample) : sampleLegal c v = (v.length == 4) := by
  simp [sampleLegal, h]

/-! ### Every operation gives a sample -/

@[simp] theorem sampleLegal_szero (c : Config) : sampleLegal c (sampleArith c).szero = true := by
  cases h : c.arith <;> simp [sampleLegal, sampleArith, h, onPatterns]

@[simp] theorem sampleLegal_sadd (c : Config) (x y : Sample) :
    sampleLegal c ((sampleArith c).sadd x y) = true := by
  cases h : c.arith <;> simp [sampleLegal, sampleArith, h, onPatterns]

@[simp] theorem sampleLegal_ssub (c : Config) (x y : Sample) :
    sampleLegal c ((sampleArith c).ssub x y) = true := by
  cases h : c.arith <;> simp [sampleLegal, sampleArith, h, onPatterns]

@[simp] theorem sampleLegal_sdivn (c : Config) (x : Sample) (n : Nat) :
    sampleLegal c ((sampleArith c).sdivn x n) = true := by
  cases h : c.arith <;> simp [sampleLegal, sampleArith, h, onPatterns]

@[simp] theorem sampleLegal_freeSample (c : Config) (draw : Nat) (slot : FreeSlot) :
    sampleLegal c (freeSample c draw slot) = true := by
  cases h : c.arith <;> simp [sampleLegal, freeSample, h]

end Sys2Proof.Machine
end

