-- ==== Sys2Proof/Laws/State.lean ====
section
/-! SUPPORT. What the state's named updates leave and change, one lemma per field, and what they do to
the units that operands name. -/

namespace Sys2Proof.Machine

/-! ### Results -/

theorem State.answer_eq (s : State) (r : OpResult) : s.answer r = .next { s with result := r } := rfl

@[simp] theorem next_inj (s t : State) :
    ((Host.Outcome.next s : Outcome) = .next t) ↔ s = t := by constructor <;> simp_all

/-! ### `setSampler` -/

@[simp] theorem State.setSampler_cfg (s : State) (x : Sensor) (v : Sampler) :
    (s.setSampler x v).cfg = s.cfg := by cases x <;> rfl
@[simp] theorem State.setSampler_channels (s : State) (x : Sensor) (v : Sampler) :
    (s.setSampler x v).channels = s.channels := by cases x <;> rfl
@[simp] theorem State.setSampler_ticks (s : State) (x : Sensor) (v : Sampler) :
    (s.setSampler x v).ticks = s.ticks := by cases x <;> rfl
@[simp] theorem State.setSampler_link (s : State) (x : Sensor) (v : Sampler) :
    (s.setSampler x v).link = s.link := by cases x <;> rfl
@[simp] theorem State.setSampler_boardId (s : State) (x : Sensor) (v : Sampler) :
    (s.setSampler x v).boardId = s.boardId := by cases x <;> rfl
@[simp] theorem State.setSampler_nv (s : State) (x : Sensor) (v : Sampler) :
    (s.setSampler x v).nv = s.nv := by cases x <;> rfl
@[simp] theorem State.setSampler_ports (s : State) (x : Sensor) (v : Sampler) :
    (s.setSampler x v).ports = s.ports := by cases x <;> rfl
@[simp] theorem State.setSampler_inbox (s : State) (x : Sensor) (v : Sampler) :
    (s.setSampler x v).inbox = s.inbox := by cases x <;> rfl
@[simp] theorem State.setSampler_result (s : State) (x : Sensor) (v : Sampler) :
    (s.setSampler x v).result = s.result := by cases x <;> rfl
@[simp] theorem State.setSampler_tx (s : State) (x : Sensor) (v : Sampler) :
    (s.setSampler x v).tx = s.tx := by cases x <;> rfl
@[simp] theorem State.setSampler_events (s : State) (x : Sensor) (v : Sampler) :
    (s.setSampler x v).events = s.events := by cases x <;> rfl
@[simp] theorem State.setSampler_draws (s : State) (x : Sensor) (v : Sampler) :
    (s.setSampler x v).draws = s.draws := by cases x <;> rfl

@[simp] theorem State.sampler_setSampler (s : State) (x : Sensor) (v : Sampler) :
    (s.setSampler x v).sampler x = v := by cases x <;> rfl

theorem State.sampler_setSampler_ne (s : State) {x y : Sensor} (v : Sampler) (h : y ≠ x) :
    (s.setSampler x v).sampler y = s.sampler y := by
  cases x <;> cases y <;> first | rfl | exact absurd rfl h

/-! ### `setChannel` -/

@[simp] theorem State.setChannel_cfg (s : State) (c : Byte) (ch : Channel) :
    (s.setChannel c ch).cfg = s.cfg := rfl
@[simp] theorem State.setChannel_channels (s : State) (c : Byte) (ch : Channel) :
    (s.setChannel c ch).channels = s.channels.set c.toNat ch := rfl
@[simp] theorem State.setChannel_opc (s : State) (c : Byte) (ch : Channel) :
    (s.setChannel c ch).opc = s.opc := rfl
@[simp] theorem State.setChannel_mox (s : State) (c : Byte) (ch : Channel) :
    (s.setChannel c ch).mox = s.mox := rfl
@[simp] theorem State.setChannel_ticks (s : State) (c : Byte) (ch : Channel) :
    (s.setChannel c ch).ticks = s.ticks := rfl
@[simp] theorem State.setChannel_link (s : State) (c : Byte) (ch : Channel) :
    (s.setChannel c ch).link = s.link := rfl
@[simp] theorem State.setChannel_boardId (s : State) (c : Byte) (ch : Channel) :
    (s.setChannel c ch).boardId = s.boardId := rfl
@[simp] theorem State.setChannel_nv (s : State) (c : Byte) (ch : Channel) :
    (s.setChannel c ch).nv = s.nv := rfl
@[simp] theorem State.setChannel_ports (s : State) (c : Byte) (ch : Channel) :
    (s.setChannel c ch).ports = s.ports := rfl
@[simp] theorem State.setChannel_inbox (s : State) (c : Byte) (ch : Channel) :
    (s.setChannel c ch).inbox = s.inbox := rfl
@[simp] theorem State.setChannel_result (s : State) (c : Byte) (ch : Channel) :
    (s.setChannel c ch).result = s.result := rfl
@[simp] theorem State.setChannel_tx (s : State) (c : Byte) (ch : Channel) :
    (s.setChannel c ch).tx = s.tx := rfl
@[simp] theorem State.setChannel_events (s : State) (c : Byte) (ch : Channel) :
    (s.setChannel c ch).events = s.events := rfl
@[simp] theorem State.setChannel_draws (s : State) (c : Byte) (ch : Channel) :
    (s.setChannel c ch).draws = s.draws := rfl

theorem State.channel?_eq_some {s : State} {c : Byte} {ch : Channel} :
    s.channel? c = some ch ↔ c.toNat < s.cfg.nch ∧ s.channels[c.toNat]? = some ch := by
  unfold State.channel?; split <;> simp_all

theorem State.channel?_setChannel {s : State} {c : Byte} {old : Channel}
    (h : s.channel? c = some old) (ch : Channel) : (s.setChannel c ch).channel? c = some ch := by
  obtain ⟨hc, hs⟩ := State.channel?_eq_some.1 h
  have hl : c.toNat < s.channels.length := (List.getElem?_eq_some_iff.1 hs).1
  exact State.channel?_eq_some.2 ⟨hc, by simp [hl]⟩

theorem State.channel?_setChannel_ne {s : State} {c d : Byte} (ch : Channel) (h : d ≠ c) :
    (s.setChannel c ch).channel? d = s.channel? d := by
  have hn : c.toNat ≠ d.toNat := fun he => h (BitVec.eq_of_toNat_eq he.symm)
  simp [State.channel?, List.getElem?_set_ne hn]

/-! ### Averagers of a channel and of the state -/

@[simp] theorem Channel.stage_setStage (ch : Channel) (st : Stage) (a : Averager Sample) :
    (ch.setStage st a).stage st = a := by cases st <;> rfl

theorem Channel.stage_setStage_ne (ch : Channel) {st st' : Stage} (a : Averager Sample)
    (h : st' ≠ st) : (ch.setStage st a).stage st' = ch.stage st' := by
  cases st <;> cases st' <;> first | rfl | exact absurd rfl h

@[simp] theorem Channel.setStage_stage (ch : Channel) (st : Stage) :
    ch.setStage st (ch.stage st) = ch := by cases st <;> rfl

theorem State.averager?_eq_some {s : State} {a : AvgRef} {x : Averager Sample} :
    s.averager? a = some x ↔ ∃ ch, s.channel? a.channel = some ch ∧ ch.stage a.stage = x := by
  unfold State.averager?; split <;> simp_all

theorem State.setAverager_eq {s : State} {a : AvgRef} {ch : Channel}
    (h : s.channel? a.channel = some ch) (v : Averager Sample) :
    s.setAverager a v = s.setChannel a.channel (ch.setStage a.stage v) := by
  simp [State.setAverager, h]

/-- Putting back a changed averager changes that averager only. -/
theorem State.onlyAverager_setAverager {s : State} {a : AvgRef} {x : Averager Sample}
    (h : s.averager? a = some x) (v : Averager Sample) (r : OpResult) :
    OnlyAverager s { s.setAverager a v with result := r } a v r := by
  obtain ⟨ch, hch, -⟩ := State.averager?_eq_some.1 h
  have hset := State.channel?_setChannel hch (ch.setStage a.stage v)
  refine ⟨?_, fun b hb => ?_, ?_, ?_⟩
  · rw [State.setAverager_eq hch]
    exact State.averager?_eq_some.2 ⟨_, hset, by simp⟩
  · rw [State.setAverager_eq hch]
    change (s.setChannel a.channel (ch.setStage a.stage v)).averager? b = s.averager? b
    unfold State.averager?
    by_cases hc : b.channel = a.channel
    · have hst : b.stage ≠ a.stage := fun he => hb (by cases a; cases b; simp_all)
      rw [hc, hset, hch]
      simp [Channel.stage_setStage_ne ch v hst]
    · rw [State.channel?_setChannel_ne _ hc]
  · simp [State.setAverager_eq hch]
  · rw [State.setAverager_eq hch]; rfl

/-- Putting back an averager unchanged changes nothing. -/
theorem State.setAverager_self {s : State} {a : AvgRef} {x : Averager Sample}
    (h : s.averager? a = some x) : s.setAverager a x = s := by
  obtain ⟨ch, hch, rfl⟩ := State.averager?_eq_some.1 h
  obtain ⟨hc, hs⟩ := State.channel?_eq_some.1 hch
  rw [State.setAverager_eq hch, Channel.setStage_stage]
  obtain ⟨hl, rfl⟩ := List.getElem?_eq_some_iff.1 hs
  simp [State.setChannel]

@[simp] theorem State.setAverager_cfg (s : State) (a : AvgRef) (v : Averager Sample) :
    (s.setAverager a v).cfg = s.cfg := by unfold State.setAverager; split <;> rfl
@[simp] theorem State.setAverager_opc (s : State) (a : AvgRef) (v : Averager Sample) :
    (s.setAverager a v).opc = s.opc := by unfold State.setAverager; split <;> rfl
@[simp] theorem State.setAverager_mox (s : State) (a : AvgRef) (v : Averager Sample) :
    (s.setAverager a v).mox = s.mox := by unfold State.setAverager; split <;> rfl
@[simp] theorem State.setAverager_ticks (s : State) (a : AvgRef) (v : Averager Sample) :
    (s.setAverager a v).ticks = s.ticks := by unfold State.setAverager; split <;> rfl
@[simp] theorem State.setAverager_link (s : State) (a : AvgRef) (v : Averager Sample) :
    (s.setAverager a v).link = s.link := by unfold State.setAverager; split <;> rfl
@[simp] theorem State.setAverager_boardId (s : State) (a : AvgRef) (v : Averager Sample) :
    (s.setAverager a v).boardId = s.boardId := by unfold State.setAverager; split <;> rfl
@[simp] theorem State.setAverager_nv (s : State) (a : AvgRef) (v : Averager Sample) :
    (s.setAverager a v).nv = s.nv := by unfold State.setAverager; split <;> rfl
@[simp] theorem State.setAverager_ports (s : State) (a : AvgRef) (v : Averager Sample) :
    (s.setAverager a v).ports = s.ports := by unfold State.setAverager; split <;> rfl
@[simp] theorem State.setAverager_inbox (s : State) (a : AvgRef) (v : Averager Sample) :
    (s.setAverager a v).inbox = s.inbox := by unfold State.setAverager; split <;> rfl
@[simp] theorem State.setAverager_result (s : State) (a : AvgRef) (v : Averager Sample) :
    (s.setAverager a v).result = s.result := by unfold State.setAverager; split <;> rfl
@[simp] theorem State.setAverager_tx (s : State) (a : AvgRef) (v : Averager Sample) :
    (s.setAverager a v).tx = s.tx := by unfold State.setAverager; split <;> rfl
@[simp] theorem State.setAverager_events (s : State) (a : AvgRef) (v : Averager Sample) :
    (s.setAverager a v).events = s.events := by unfold State.setAverager; split <;> rfl
@[simp] theorem State.setAverager_draws (s : State) (a : AvgRef) (v : Averager Sample) :
    (s.setAverager a v).draws = s.draws := by unfold State.setAverager; split <;> rfl

/-! ### The averager's registers -/

/-- `clearedTo` is what the machine's `clear` gives with the new depth. -/
theorem Averager.clear_depth {S : Type} (z : S) (a : Averager S) (d : Byte) :
    { a.clear z with depth := d } = a.clearedTo z d := rfl

theorem Averager.init_eq {S : Type} (z : S) (a : Averager S) : a.init z = a.clearedTo z 0 := rfl

theorem Averager.setDepth_of_lt {S : Type} (z : S) {a : Averager S} {d : Byte} (h : d.toNat < a.cap) :
    a.setDepth z d = (true, a.clearedTo z d) := by
  simp [Averager.setDepth, Nat.not_le.2 h, Averager.clear_depth]

theorem Averager.setDepth_of_le {S : Type} (z : S) {a : Averager S} {d : Byte} (h : a.cap ≤ d.toNat) :
    a.setDepth z d = (false, a) := by simp [Averager.setDepth, h]

@[simp] theorem Averager.clearedTo_cap {S : Type} (z : S) (a : Averager S) (d : Byte) :
    (a.clearedTo z d).cap = a.cap := by simp [Averager.clearedTo, Averager.cap]

theorem Averager.clearedTo_inv {S : Type} {z : S} {a : Averager S} {d : Byte} (hc : a.cap ≤ 256)
    (h : d.toNat < a.cap) : (a.clearedTo z d).Inv z where
  capBound := by simpa using hc
  depthBound := by rw [Averager.clearedTo_cap]; exact h
  cursorBound hd := by
    have : d.toNat ≠ 0 := fun h0 => hd (by simpa [Averager.clearedTo] using BitVec.eq_of_toNat_eq (by simpa using h0))
    simpa [Averager.clearedTo] using Nat.pos_of_ne_zero this
  cursorZero _ := rfl
  cleared x hx := by
    have := List.mem_of_mem_drop hx
    exact List.eq_of_mem_replicate this
  notConsolidated _ := rfl

/-! ### The link -/

@[simp] theorem Link.abort_rxState (l : Link) (r : FrameAbort) : (l.abort r).rxState = .searching := rfl
@[simp] theorem Link.abort_rxLen (l : Link) (r : FrameAbort) : (l.abort r).rxLen = 0 := rfl

/-- The pulse, written as one update. -/
theorem Link.pulse_eq (now : U32) (l : Link) : l.pulse now = { l with
    ledOn := if l.ledEnabled then true else l.ledOn
    ledSince := if l.ledEnabled then now else l.ledSince } := by
  cases l; unfold Link.pulse; dsimp only; split <;> simp_all

/-- What leaving a reply does when it fits. -/
theorem State.leaveReply_of_le {s : State} {r : List Byte} (h : r.length ≤ s.cfg.txBufSize) :
    s.leaveReply r = .next { s with link := s.link.setReply r, result := .none } := by
  simp [State.leaveReply, h]

theorem Link.onlyReply (s : State) (r : List Byte) :
    OnlyReply s { s with link := s.link.setReply r, result := .none } r where
  payload := by simp [Link.setReply]
  slots := by simp [Link.setReply]
  rest := rfl

end Sys2Proof.Machine
end

