-- ==== Sys2Proof/Laws/Averager.lean ====
section
/-! SUPPORT. The averager and the pair: the four cases of a sample, and that every operation keeps
the invariants of R23. -/

namespace Sys2Proof.Machine

variable {S : Type} (A : SampleArith S) {a : Averager S}

/-! ### The four cases of `AVG.COLLECT` (R112) -/

theorem Averager.collect_pass (h : a.depth = 0) (v : S) (ts : U32) :
    a.collect A v ts = some (true, { a with acc := v, lastAvg := v, lastTs := ts }) := by
  simp [Averager.collect, h, Averager.latch]

theorem Averager.collect_wrap {old : S} (h : a.depth ≠ 0) (ho : a.buf[a.cursor.toNat]? = some old)
    (hk : nextCursor a = 0) (v : S) (ts : U32) :
    a.collect A v ts = some (true, { a.accept A old v with
      consolidated := true, lastAvg := A.sdivn (a.accept A old v).acc a.depth.toNat, lastTs := ts }) := by
  rw [Averager.collect, if_neg h]; simp [ho, cursorWraps, hk, Averager.latch]

theorem Averager.collect_fill {old : S} (h : a.depth ≠ 0) (ho : a.buf[a.cursor.toNat]? = some old)
    (hk : nextCursor a ≠ 0) (hc : a.consolidated = false) (v : S) (ts : U32) :
    a.collect A v ts = some (true, { a.accept A old v with lastAvg := v, lastTs := ts }) := by
  rw [Averager.collect, if_neg h]; simp [ho, cursorWraps, hk, hc, Averager.latch]

theorem Averager.collect_quiet {old : S} (h : a.depth ≠ 0) (ho : a.buf[a.cursor.toNat]? = some old)
    (hk : nextCursor a ≠ 0) (hc : a.consolidated = true) (v : S) (ts : U32) :
    a.collect A v ts = some (false, a.accept A old v) := by
  rw [Averager.collect, if_neg h]; simp [ho, cursorWraps, hk, hc]

/-- At a positive depth a sample either fails on the cursor or accepts, latching or not. -/
theorem Averager.collect_cases {v : S} {ts : U32} {p : Bool} {b : Averager S}
    (h : a.collect A v ts = some (p, b)) :
    (a.depth = 0 ∧ p = true ∧ b = { a with acc := v, lastAvg := v, lastTs := ts }) ∨
    (a.depth ≠ 0 ∧ ∃ old, a.buf[a.cursor.toNat]? = some old ∧
      ∃ co la lt, b = { a.accept A old v with consolidated := co, lastAvg := la, lastTs := lt } ∧
        (p = false → la = a.lastAvg ∧ lt = a.lastTs)) := by
  unfold Averager.collect at h
  split at h
  · rename_i hd; cases h; exact .inl ⟨hd, rfl, rfl⟩
  · rename_i hd
    refine .inr ⟨hd, ?_⟩
    split at h
    · cases h
    · rename_i old ho
      refine ⟨old, ho, ?_⟩
      split at h
      · cases h; exact ⟨_, _, _, rfl, by simp⟩
      · split at h
        · cases h; exact ⟨_, _, _, rfl, by simp⟩
        · cases h; exact ⟨_, _, _, rfl, fun _ => ⟨rfl, rfl⟩⟩

/-! ### Every operation keeps the invariants -/

variable {A} {z : S}

/-- The cursor of an averager that meets its invariants names a slot (R61). -/
theorem Averager.Inv.slot (h : a.Inv z) : ∃ old, a.buf[a.cursor.toNat]? = some old := by
  have hl : a.cursor.toNat < a.buf.length := by
    have hd : a.depth.toNat < a.buf.length := h.depthBound
    by_cases h0 : a.depth = 0
    · rw [h.cursorZero h0]; simpa using Nat.lt_of_le_of_lt (Nat.zero_le _) hd
    · exact Nat.lt_trans (h.cursorBound h0) hd
  exact ⟨_, List.getElem?_eq_getElem hl⟩

/-- A sample is always accepted (R117(c)). -/
theorem Averager.Inv.collect (h : a.Inv z) (v : S) (ts : U32) :
    ∃ p b, a.collect A v ts = some (p, b) := by
  obtain ⟨old, ho⟩ := h.slot
  unfold Averager.collect
  split
  · exact ⟨_, _, rfl⟩
  · simp only [ho]; split
    · exact ⟨_, _, rfl⟩
    · split <;> exact ⟨_, _, rfl⟩

theorem Averager.collect_cap {v : S} {ts : U32} {p : Bool} {b : Averager S}
    (h : a.collect A v ts = some (p, b)) : b.cap = a.cap := by
  rcases Averager.collect_cases A h with ⟨-, -, rfl⟩ | ⟨-, old, -, co, la, lt, rfl, -⟩
  · rfl
  · simp [Averager.accept, Averager.cap]

theorem Averager.collect_depth {v : S} {ts : U32} {p : Bool} {b : Averager S}
    (h : a.collect A v ts = some (p, b)) : b.depth = a.depth := by
  rcases Averager.collect_cases A h with ⟨-, -, rfl⟩ | ⟨-, old, -, co, la, lt, rfl, -⟩ <;> rfl

theorem Averager.Inv.collect_inv (h : a.Inv z) {v : S} {ts : U32} {p : Bool} {b : Averager S}
    (hb : a.collect A v ts = some (p, b)) : b.Inv z := by
  have hcap := Averager.collect_cap hb
  rcases Averager.collect_cases A hb with ⟨hd, -, rfl⟩ | ⟨hd, old, -, co, la, lt, rfl, -⟩
  · exact ⟨h.capBound, h.depthBound, h.cursorBound, h.cursorZero, h.cleared, h.notConsolidated⟩
  · have hpos : 0 < a.depth.toNat :=
      Nat.pos_of_ne_zero fun h0 => hd (BitVec.eq_of_toNat_eq (by simpa using h0))
    have hlt : nextCursor a < a.depth.toNat := Nat.mod_lt _ hpos
    refine ⟨by rw [hcap]; exact h.capBound, by rw [hcap]; exact h.depthBound, fun _ => ?_,
      fun h0 => absurd h0 hd, ?_, fun h0 => absurd h0 hd⟩
    · have h256 : nextCursor a < 256 := Nat.lt_trans hlt a.depth.isLt
      change (BitVec.ofNat 8 (nextCursor a)).toNat < a.depth.toNat
      simpa [Nat.mod_eq_of_lt h256] using hlt
    · intro x hx
      change x ∈ (a.buf.set a.cursor.toNat v).drop a.depth.toNat at hx
      rw [List.drop_set_of_lt (h.cursorBound hd)] at hx
      exact h.cleared x hx

theorem Averager.Inv.setDepth_inv (h : a.Inv z) (d : Byte) :
    (a.setDepth z d).2.Inv z ∧ (a.setDepth z d).2.cap = a.cap := by
  by_cases hd : d.toNat < a.cap
  · rw [Averager.setDepth_of_lt z hd]
    exact ⟨Averager.clearedTo_inv h.capBound hd, by simp⟩
  · rw [Averager.setDepth_of_le z (Nat.not_lt.1 hd)]
    exact ⟨h, rfl⟩

theorem Averager.Inv.init_inv (h : a.Inv z) : (a.init z).Inv z ∧ (a.init z).cap = a.cap := by
  rw [Averager.init_eq]
  exact ⟨Averager.clearedTo_inv h.capBound (Nat.lt_of_le_of_lt (Nat.zero_le _) h.depthBound), by simp⟩

/-- A legal depth of the averager itself is always accepted. -/
theorem Averager.Inv.setDepth_self (h : a.Inv z) :
    a.setDepth z a.depth = (true, a.clearedTo z a.depth) := Averager.setDepth_of_lt z h.depthBound

/-! ### Every operation keeps to the sample type -/

theorem Averager.clearedTo_typed {cfg : Config} {a : Averager Sample} (h : a.Typed cfg) (d : Byte) :
    (a.clearedTo (sampleArith cfg).szero d).Typed cfg where
  buf x hx := by rw [List.eq_of_mem_replicate hx]; simp
  acc := by simp [Averager.clearedTo]
  lastAvg := h.lastAvg

theorem Averager.Typed.setDepth {cfg : Config} {a : Averager Sample} (h : a.Typed cfg) (d : Byte) :
    (a.setDepth (sampleArith cfg).szero d).2.Typed cfg := by
  by_cases hd : d.toNat < a.cap
  · rw [Averager.setDepth_of_lt _ hd]; exact Averager.clearedTo_typed h d
  · rw [Averager.setDepth_of_le _ (Nat.not_lt.1 hd)]; exact h

theorem Averager.Typed.collect {cfg : Config} {a b : Averager Sample} {v : Sample} {ts : U32} {p : Bool}
    (h : a.Typed cfg) (hv : sampleLegal cfg v = true)
    (hb : a.collect (sampleArith cfg) v ts = some (p, b)) : b.Typed cfg := by
  have hbuf : ∀ x ∈ a.buf.set a.cursor.toNat v, sampleLegal cfg x = true := fun x hx =>
    (List.mem_or_eq_of_mem_set hx).elim (h.buf x) fun he => he ▸ hv
  unfold Averager.collect at hb
  split at hb
  · cases hb; exact ⟨h.buf, hv, hv⟩
  · split at hb
    · cases hb
    · dsimp only at hb
      split at hb
      · cases hb; exact ⟨hbuf, by simp [Averager.accept, Averager.latch], by simp [Averager.latch]⟩
      · split at hb
        · cases hb; exact ⟨hbuf, by simp [Averager.accept, Averager.latch], hv⟩
        · cases hb; exact ⟨hbuf, by simp [Averager.accept], h.lastAvg⟩

/-! ### The pair -/

variable {cfg : Config} {c : Nat} {ch : Channel}

theorem Channel.Inv.feed (h : ch.Inv cfg c) {v : Sample} (hv : sampleLegal cfg v = true) (ts : U32) :
    ∃ p ch', ch.feed (sampleArith cfg) v ts = some (p, ch') ∧ ch'.Inv cfg c := by
  obtain ⟨p, i, hi⟩ := h.inner.collect (A := sampleArith cfg) v ts
  have hii := h.inner.collect_inv hi
  have hic := (Averager.collect_cap hi).trans h.innerCap
  have hit := h.innerTyped.collect hv hi
  unfold Channel.feed
  rw [hi]
  cases p with
  | false => exact ⟨_, _, rfl, hii, hic, hit, h.outer, h.outerCap, h.outerTyped⟩
  | true =>
    obtain ⟨q, o, ho⟩ := h.outer.collect (A := sampleArith cfg) i.lastAvg i.lastTs
    exact ⟨q, ⟨i, o⟩, by simp [ho], hii, hic, hit, h.outer.collect_inv ho,
      (Averager.collect_cap ho).trans h.outerCap, h.outerTyped.collect hit.lastAvg ho⟩

theorem Channel.Inv.setDepths (h : ch.Inv cfg c) (p : Byte × Byte) :
    (ch.setDepths (sampleArith cfg).szero p).Inv cfg c :=
  ⟨(h.inner.setDepth_inv p.1).1, (h.inner.setDepth_inv p.1).2.trans h.innerCap,
    h.innerTyped.setDepth p.1, (h.outer.setDepth_inv p.2).1,
    (h.outer.setDepth_inv p.2).2.trans h.outerCap, h.outerTyped.setDepth p.2⟩

theorem Channel.Inv.setStage (h : ch.Inv cfg c) {st : Stage} {x : Averager Sample}
    (hx : x.Inv (sampleArith cfg).szero) (hc : x.cap = (ch.stage st).cap) (ht : x.Typed cfg) :
    (ch.setStage st x).Inv cfg c := by
  cases st
  · exact ⟨hx, hc.trans h.innerCap, ht, h.outer, h.outerCap, h.outerTyped⟩
  · exact ⟨h.inner, h.innerCap, h.innerTyped, hx, hc.trans h.outerCap, ht⟩

theorem Channel.Inv.stageTyped (h : ch.Inv cfg c) (st : Stage) : (ch.stage st).Typed cfg := by
  cases st
  · exact h.innerTyped
  · exact h.outerTyped

theorem Channel.Inv.stage (h : ch.Inv cfg c) (st : Stage) :
    (ch.stage st).Inv (sampleArith cfg).szero := by
  cases st
  · exact h.inner
  · exact h.outer

/-- The pair after both depths are accepted. -/
theorem Channel.setDepths_of_lt (z : Sample) {ch : Channel} {p : Byte × Byte}
    (hi : p.1.toNat < ch.inner.cap) (ho : p.2.toNat < ch.outer.cap) :
    ch.setDepths z p = ⟨ch.inner.clearedTo z p.1, ch.outer.clearedTo z p.2⟩ := by
  simp [Channel.setDepths, Averager.setDepth_of_lt, hi, ho]

end Sys2Proof.Machine
end

