-- ==== Sys2Proof/Laws/Check.lean ====
section
/-! SUPPORT. Boolean checks of the invariants, so that `decide` can run on a concrete state, and that
each check gives its invariant. -/

namespace Sys2Proof.Machine

def Averager.check (z : Sample) (a : Averager Sample) : Bool :=
  decide (a.cap ≤ 256) && decide (a.depth.toNat < a.cap) &&
  (a.depth == 0 || decide (a.cursor.toNat < a.depth.toNat)) && (a.depth != 0 || a.cursor == 0) &&
  (a.buf.drop a.depth.toNat).all (fun x => x == z) && (a.depth != 0 || !a.consolidated)

theorem Averager.inv_of_check {z : Sample} {a : Averager Sample} (h : a.check z = true) : a.Inv z := by
  simp only [Averager.check, Bool.and_eq_true, Bool.or_eq_true, decide_eq_true_eq, beq_iff_eq,
    bne_iff_ne, List.all_eq_true, Bool.not_eq_true'] at h
  obtain ⟨⟨⟨⟨⟨h1, h2⟩, h3⟩, h4⟩, h5⟩, h6⟩ := h
  exact ⟨h1, h2, fun hd => h3.resolve_left hd, fun hd => h4.resolve_left (not_not_intro hd), h5,
    fun hd => h6.resolve_left (not_not_intro hd)⟩

def Averager.checkTyped (cfg : Config) (a : Averager Sample) : Bool :=
  a.buf.all (sampleLegal cfg) && sampleLegal cfg a.acc && sampleLegal cfg a.lastAvg

theorem Averager.typed_of_check {cfg : Config} {a : Averager Sample} (h : a.checkTyped cfg = true) :
    a.Typed cfg := by
  simp only [Averager.checkTyped, Bool.and_eq_true, List.all_eq_true] at h
  exact ⟨h.1.1, h.1.2, h.2⟩

def Channel.check (cfg : Config) (z : Sample) (c : Nat) (ch : Channel) : Bool :=
  ch.inner.check z && decide (ch.inner.cap = cfg.capInner c) && ch.inner.checkTyped cfg &&
  ch.outer.check z && decide (ch.outer.cap = cfg.capOuter c) && ch.outer.checkTyped cfg

theorem Channel.inv_of_check {cfg : Config} {c : Nat} {ch : Channel}
    (h : ch.check cfg (sampleArith cfg).szero c = true) : ch.Inv cfg c := by
  simp only [Channel.check, Bool.and_eq_true, decide_eq_true_eq] at h
  obtain ⟨⟨⟨⟨⟨h1, h2⟩, h3⟩, h4⟩, h5⟩, h6⟩ := h
  exact ⟨Averager.inv_of_check h1, h2, Averager.typed_of_check h3, Averager.inv_of_check h4, h5,
    Averager.typed_of_check h6⟩

def Sampler.check (s : Sampler) : Bool :=
  decide (s.p10.toNat % 10 = 0) && decide (s.p10.toNat ≤ 2550) &&
  (s.p10 == 0 || decide (s.counter.toNat < s.p10.toNat))

theorem Sampler.inv_of_check {s : Sampler} (h : s.check = true) : s.Inv := by
  simp only [Sampler.check, Bool.and_eq_true, Bool.or_eq_true, decide_eq_true_eq, beq_iff_eq] at h
  exact ⟨h.1.1, h.1.2, fun hp => h.2.resolve_left hp⟩

def Link.check (cfg : Config) (l : Link) : Bool :=
  decide (l.rxBuf.length = cfg.rxBufSize) && decide (l.rxLen ≤ cfg.rxBufSize) &&
  decide (l.txBuf.length = cfg.txBufSize) && decide (l.txLen ≤ cfg.txBufSize) &&
  (decide (l.rxState = .receiving) || decide (l.rxLen = 0)) &&
  (l.rxBuf.take l.rxLen).all (fun b => b != chHeader && b != chTrailer) &&
  (!l.txPending || (l.txBuf.take l.txLen).all replyByte)

theorem Link.inv_of_check {cfg : Config} {l : Link} (h : l.check cfg = true) : l.Inv cfg := by
  simp only [Link.check, Bool.and_eq_true, Bool.or_eq_true, decide_eq_true_eq, bne_iff_ne,
    List.all_eq_true, Bool.not_eq_true'] at h
  obtain ⟨⟨⟨⟨⟨⟨h1, h2⟩, h3⟩, h4⟩, h5⟩, h6⟩, h7⟩ := h
  exact ⟨h1, h2, h3, h4, fun hs => h5.resolve_left hs, h6,
    fun hp => h7.resolve_left (by simp [hp])⟩

def State.check (s : State) : Bool :=
  decide s.cfg.WF && decide (s.channels.length = s.cfg.nch) &&
  s.channels.zipIdx.all (fun p => p.1.check s.cfg (sampleArith s.cfg).szero p.2) &&
  s.opc.check && s.mox.check && s.link.check s.cfg && decide s.nv.wf &&
  s.ports.sensorNames.all (fun n => n.all (nameFits s.cfg))

theorem State.inv_of_check {s : State} (h : s.check = true) : s.Inv := by
  simp only [State.check, Bool.and_eq_true, decide_eq_true_eq, List.all_eq_true] at h
  obtain ⟨⟨⟨⟨⟨⟨⟨h1, h2⟩, h3⟩, h4⟩, h5⟩, h6⟩, h7⟩, h8⟩ := h
  refine ⟨h1, h2, fun c ch hc => ?_, Sampler.inv_of_check h4, Sampler.inv_of_check h5,
    Link.inv_of_check h6, h7, fun name hn => by simpa using h8 _ hn⟩
  exact Channel.inv_of_check (h3 (ch, c) (by simpa [List.mem_zipIdx_iff_getElem?] using hc))

end Sys2Proof.Machine
end

