-- ==== Sys2Proof/Laws/Store.lean ====
section
/-! SUPPORT. The external store: every operation keeps the canonical form, a write is read back and
leaves every other address alone, and equal readings are equal stores. -/

namespace Sys2Proof.Machine

theorem Memory.wf_nil : Memory.wf [] := by simp [Memory.wf]

theorem Memory.wf_cons {a : Nat} {v : Byte} {m : Memory} :
    Memory.wf ((a, v) :: m) ↔ (∀ x ∈ m, a < x.1) ∧ v ≠ storeErased ∧ Memory.wf m := by
  simp only [Memory.wf, List.pairwise_cons, List.mem_cons, forall_eq_or_imp]
  tauto

/-- Below every listed address the store reads as erased. -/
theorem Memory.read_below {m : Memory} {a : Nat} (h : ∀ x ∈ m, a < x.1) : m.read a = storeErased := by
  induction m with
  | nil => rfl
  | cons x m ih =>
    obtain ⟨b, v⟩ := x
    have hb : a < b := h (b, v) (by simp)
    simp [Memory.read, Nat.ne_of_gt hb, ih fun y hy => h y (by simp [hy])]

/-- A bound of the addresses that holds before a write and of the written address holds after. -/
theorem Memory.write_above {m : Memory} {a b : Nat} {v : Byte} (h : ∀ x ∈ m, a < x.1) (hb : a < b) :
    ∀ x ∈ m.write b v, a < x.1 := by
  induction m with
  | nil => unfold Memory.write Memory.entry; split <;> simp [hb]
  | cons y m ih =>
    obtain ⟨c, w⟩ := y
    have hm : ∀ x ∈ m, a < x.1 := fun x hx => h x (by simp [hx])
    have hc : a < c := h (c, w) (by simp)
    unfold Memory.write Memory.entry
    split
    · simpa [hc] using ih hm
    · split <;> split <;> simpa [hb, hc] using hm

theorem Memory.write_wf {m : Memory} (h : m.wf) (b : Nat) (v : Byte) : (m.write b v).wf := by
  induction m with
  | nil => unfold Memory.write Memory.entry; split <;> simp_all [Memory.wf]
  | cons y m ih =>
    obtain ⟨c, w⟩ := y
    obtain ⟨h1, h2, h3⟩ := Memory.wf_cons.1 h
    unfold Memory.write Memory.entry
    split
    · rename_i hcb; exact Memory.wf_cons.2 ⟨Memory.write_above h1 hcb, h2, ih h3⟩
    · split
      · rename_i hcb; subst hcb
        split
        · exact h3
        · rename_i hv; exact Memory.wf_cons.2 ⟨h1, hv, h3⟩
      · split
        · exact h
        · rename_i hcb hne hv
          refine Memory.wf_cons.2 ⟨fun x hx => ?_, hv, h⟩
          rcases List.mem_cons.1 hx with rfl | hx
          · change b < c; omega
          · have := h1 x hx; omega

theorem Memory.read_write_same {m : Memory} (h : m.wf) (b : Nat) (v : Byte) :
    (m.write b v).read b = v := by
  induction m with
  | nil => unfold Memory.write Memory.entry; split <;> simp_all [Memory.read]
  | cons y m ih =>
    obtain ⟨c, w⟩ := y
    obtain ⟨h1, h2, h3⟩ := Memory.wf_cons.1 h
    unfold Memory.write Memory.entry
    split
    · rename_i hcb; simp [Memory.read, Nat.ne_of_lt hcb, ih h3]
    · split
      · rename_i hcb; subst hcb
        split
        · rename_i hv; rw [hv]; exact Memory.read_below h1
        · simp [Memory.read]
      · split
        · rename_i hcb hne hv; rw [hv]; apply Memory.read_below
          intro x hx
          rcases List.mem_cons.1 hx with rfl | hx
          · change b < c; omega
          · have := h1 x hx; omega
        · simp [Memory.read]

theorem Memory.read_write_ne (m : Memory) {a b : Nat} (h : a ≠ b) (v : Byte) :
    (m.write b v).read a = m.read a := by
  induction m with
  | nil => unfold Memory.write Memory.entry; split <;> simp [Memory.read, Ne.symm h]
  | cons y m ih =>
    obtain ⟨c, w⟩ := y
    unfold Memory.write Memory.entry
    split
    · simp [Memory.read, ih]
    · split
      · rename_i hcb; subst hcb; split <;> simp [Memory.read, Ne.symm h]
      · split <;> simp [Memory.read, Ne.symm h]

end Sys2Proof.Machine
end

