-- ==== Sys2Proof/Laws/Invariant.lean ====
section
/-! SUPPORT. The machine's invariant under the shared updates of the state. -/

namespace Sys2Proof.Machine

variable {s t : State}

/-- The invariant reads these fields only. -/
theorem State.Inv.congr (h : s.Inv) (hcfg : t.cfg = s.cfg) (hch : t.channels = s.channels)
    (hopc : t.opc = s.opc) (hmox : t.mox = s.mox) (hlink : t.link = s.link) (hnv : t.nv = s.nv)
    (hnames : t.ports.sensorNames = s.ports.sensorNames) : t.Inv where
  config := hcfg ▸ h.config
  count := by rw [hcfg, hch]; exact h.count
  channels := by rw [hcfg, hch]; exact h.channels
  opc := hopc ▸ h.opc
  mox := hmox ▸ h.mox
  link := by rw [hcfg, hlink]; exact h.link
  store := hnv ▸ h.store
  names := by rw [hcfg, hnames]; exact h.names

theorem State.Inv.withResult (h : s.Inv) (r : OpResult) : State.Inv { s with result := r } :=
  h.congr rfl rfl rfl rfl rfl rfl rfl

theorem State.Inv.withEvents (h : s.Inv) (e : List PortEvent) : State.Inv { s with events := e } :=
  h.congr rfl rfl rfl rfl rfl rfl rfl

theorem State.Inv.withInbox (h : s.Inv) (i : List Stimulus) : State.Inv { s with inbox := i } :=
  h.congr rfl rfl rfl rfl rfl rfl rfl

theorem State.Inv.withChannels (h : s.Inv) {chs : List Channel} (hl : chs.length = s.channels.length)
    (hc : ∀ (c : Nat) (ch : Channel), chs[c]? = some ch → ch.Inv s.cfg c) :
    State.Inv { s with channels := chs } where
  config := h.config
  count := hl.trans h.count
  channels := hc
  opc := h.opc
  mox := h.mox
  link := h.link
  store := h.store
  names := h.names

theorem State.Inv.withLink (h : s.Inv) {l : Link} (hl : l.Inv s.cfg) :
    State.Inv { s with link := l } where
  config := h.config
  count := h.count
  channels := h.channels
  opc := h.opc
  mox := h.mox
  link := hl
  store := h.store
  names := h.names

theorem State.Inv.withNv (h : s.Inv) {m : Memory} (hm : m.wf) : State.Inv { s with nv := m } where
  config := h.config
  count := h.count
  channels := h.channels
  opc := h.opc
  mox := h.mox
  link := h.link
  store := hm
  names := h.names

theorem State.Inv.setSampler (h : s.Inv) (x : Sensor) {v : Sampler} (hv : v.Inv) :
    (s.setSampler x v).Inv := by
  cases x
  · exact ⟨h.config, h.count, h.channels, hv, h.mox, h.link, h.store, h.names⟩
  · exact ⟨h.config, h.count, h.channels, h.opc, hv, h.link, h.store, h.names⟩

theorem State.Inv.sampler (h : s.Inv) (x : Sensor) : (s.sampler x).Inv := by
  cases x
  · exact h.opc
  · exact h.mox

theorem State.Inv.setChannel (h : s.Inv) {c : Byte} {ch : Channel} (hc : ch.Inv s.cfg c.toNat) :
    (s.setChannel c ch).Inv := by
  refine h.withChannels (by simp) fun d ch' hd => ?_
  rw [List.getElem?_set] at hd
  split at hd
  · rename_i hcd
    split at hd
    · cases hd; exact hcd ▸ hc
    · cases hd
  · exact h.channels d ch' hd

theorem State.Inv.channel (h : s.Inv) {c : Byte} {ch : Channel} (hc : s.channel? c = some ch) :
    ch.Inv s.cfg c.toNat := h.channels _ _ (State.channel?_eq_some.1 hc).2

theorem State.Inv.averager (h : s.Inv) {a : AvgRef} {x : Averager Sample}
    (hx : s.averager? a = some x) : x.Inv (sampleArith s.cfg).szero := by
  obtain ⟨ch, hch, rfl⟩ := State.averager?_eq_some.1 hx
  exact (h.channel hch).stage a.stage

theorem State.Inv.setAverager (h : s.Inv) {a : AvgRef} {x v : Averager Sample}
    (hx : s.averager? a = some x) (hv : v.Inv (sampleArith s.cfg).szero) (hc : v.cap = x.cap)
    (ht : v.Typed s.cfg) : (s.setAverager a v).Inv := by
  obtain ⟨ch, hch, rfl⟩ := State.averager?_eq_some.1 hx
  rw [State.setAverager_eq hch]
  exact h.setChannel ((h.channel hch).setStage hv hc ht)

theorem State.Inv.averagerTyped (h : s.Inv) {a : AvgRef} {x : Averager Sample}
    (hx : s.averager? a = some x) : x.Typed s.cfg := by
  obtain ⟨ch, hch, rfl⟩ := State.averager?_eq_some.1 hx
  exact (h.channel hch).stageTyped a.stage

/-- A channel of the bank exists (R24). -/
theorem State.Inv.channel?_some (h : s.Inv) {c : Byte} (hc : c.toNat < s.cfg.nch) :
    ∃ ch, s.channel? c = some ch := by
  have hl : c.toNat < s.channels.length := by rw [h.count]; exact hc
  exact ⟨_, State.channel?_eq_some.2 ⟨hc, List.getElem?_eq_getElem hl⟩⟩

theorem State.Inv.averager?_some (h : s.Inv) {a : AvgRef} (hc : a.channel.toNat < s.cfg.nch) :
    ∃ x, s.averager? a = some x := by
  obtain ⟨ch, hch⟩ := h.channel?_some hc
  exact ⟨_, State.averager?_eq_some.2 ⟨ch, hch, rfl⟩⟩

/-! ### Samplers -/

theorem Sampler.Inv.tick {m : Sampler} (h : m.Inv) (now : U32) : (m.tick now).2.Inv := by
  unfold Sampler.tick
  split
  · exact h
  · rename_i h0
    have hp : 0 < m.p10.toNat :=
      Nat.pos_of_ne_zero fun hz => h0 (BitVec.eq_of_toNat_eq (by simpa using hz))
    split
    · exact ⟨h.tens, h.bound, fun _ => by simpa using hp⟩
    · rename_i he
      refine ⟨h.tens, h.bound, fun _ => ?_⟩
      have hc := h.counter h0
      have hne : m.counter ≠ m.p10 - 1 := fun hq => he (by simp [periodEnds, hq]; simpa using h0)
      have hb := h.bound
      change (m.counter + 1).toNat < m.p10.toNat
      bv_omega

theorem Sampler.Inv.take {m : Sampler} (h : m.Inv) : m.take.2.Inv := by
  unfold Sampler.take; split <;> exact ⟨h.tens, h.bound, h.counter⟩

/-- `10 * e` fits the register. -/
theorem Sampler.setPre_p10 (m : Sampler) (e : Byte) : (m.setPre e).p10.toNat = 10 * e.toNat := by
  have := e.isLt
  change (BitVec.ofNat 16 (10 * e.toNat)).toNat = _
  rw [BitVec.toNat_ofNat, Nat.mod_eq_of_lt (by omega)]

theorem Sampler.setPre_inv (m : Sampler) (e : Byte) : (m.setPre e).Inv := by
  have hp := m.setPre_p10 e
  have := e.isLt
  refine ⟨by omega, by omega, fun h0 => ?_⟩
  have : 0 < (m.setPre e).p10.toNat :=
    Nat.pos_of_ne_zero fun hz => h0 (BitVec.eq_of_toNat_eq (by simpa using hz))
  simpa [Sampler.setPre] using this

/-! ### Bank and presets -/

/-- Every channel given new depths keeps the invariant. -/
theorem State.Inv.mapDepths (h : s.Inv) (f : Channel → Channel)
    (hf : ∀ ch, f ch = ch ∨ ∃ p, f ch = ch.setDepths (sampleArith s.cfg).szero p) :
    State.Inv { s with channels := s.channels.map f } := by
  refine h.withChannels (by simp) fun c ch hc => ?_
  rw [List.getElem?_map, Option.map_eq_some_iff] at hc
  obtain ⟨ch0, h0, rfl⟩ := hc
  rcases hf ch0 with he | ⟨p, he⟩ <;> rw [he]
  · exact h.channels c ch0 h0
  · exact (h.channels c ch0 h0).setDepths p

theorem State.Inv.restartBank (h : s.Inv) : s.restartBank.Inv :=
  h.mapDepths _ fun ch => .inr ⟨ch.pair, rfl⟩

theorem State.Inv.correctBank (h : s.Inv) : s.correctBank.Inv := by
  have hp : s.cfg.partition ≤ s.channels.length := by
    rw [h.count]; exact h.config.2.2.1.2.2.1
  refine h.withChannels (by simp [correctChannels, hp]) fun c ch hc => ?_
  simp only [correctChannels] at hc
  rw [List.getElem?_append] at hc
  split at hc
  · rename_i hlt
    rw [List.getElem?_map, Option.map_eq_some_iff] at hc
    obtain ⟨ch0, h0, rfl⟩ := hc
    rw [List.getElem?_take] at h0
    split at h0
    · split
      · exact h.channels c ch0 h0
      · exact (h.channels c ch0 h0).setDepths _
    · cases h0
  · rename_i hge
    rw [List.getElem?_drop] at hc
    simp only [List.length_map, List.length_take, Nat.not_lt] at hc hge
    rw [Nat.min_eq_left hp] at hc hge
    rw [Nat.add_sub_cancel' hge] at hc
    exact h.channels c ch hc

theorem State.Inv.enableSampling (h : s.Inv) (on : Bool) : (s.enableSampling on).Inv := by
  unfold State.enableSampling
  split
  · split
    · exact h
    · exact h.correctBank.restartBank.withEvents _
  · exact h.withEvents _

theorem State.Inv.setChannelPre (h : s.Inv) {c e : Byte} (ht : setChannelPre c e s = some t) :
    t.Inv := by
  unfold Sys2Proof.Machine.setChannelPre at ht
  split at ht
  · cases ht; exact h.setSampler _ (Sampler.setPre_inv _ _)
  · cases ht

theorem State.Inv.setChannelPost (h : s.Inv) (c req : Byte) : (setChannelPost c req s).2.Inv := by
  unfold Sys2Proof.Machine.setChannelPost
  split
  · exact h
  · rename_i ch hch
    exact h.setChannel ((h.channel hch).setDepths
      ((lutSelect s.cfg.lut req).inner, (lutSelect s.cfg.lut req).outer))

theorem State.Inv.loadPreset (h : s.Inv) {c : Byte} (ht : loadPreset c s = some t) : t.Inv := by
  unfold Sys2Proof.Machine.loadPreset at ht
  split at ht
  · cases ht
  · rename_i ch hch
    dsimp only at ht
    split at ht
    · cases ht
    · rename_i u hu
      cases ht
      have hcfg : u.cfg = s.cfg := by
        unfold Sys2Proof.Machine.setChannelPre at hu; split at hu <;> cases hu; simp
      refine (h.setChannelPre hu).setChannel ?_
      rw [hcfg]
      exact (h.channel hch).setDepths _

theorem State.Inv.savePreset (h : s.Inv) {c : Byte} (ht : savePreset c s = some t) : t.Inv := by
  unfold Sys2Proof.Machine.savePreset at ht
  split at ht
  · cases ht
  · cases ht
    exact h.withNv (Memory.write_wf (Memory.write_wf (Memory.write_wf h.store _ _) _ _) _ _)

end Sys2Proof.Machine
end

