-- ==== Sys2Proof/Laws/Command.lean ====
section
/-! SUPPORT. The command handlers and the dispatch: what a handler may change, what its reply is made
of, and everything a dispatch can answer. -/

namespace Sys2Proof.Machine

/-! ### Reply bytes (R187) -/

theorem replyByte_id (cmd : CmdId) : replyByte cmd.byte = true := by cases cmd <;> rfl

theorem replyByte_error : replyByte chError = true := rfl

theorem replyByte_hexChr : ∀ n : Nibble, replyByte (hexChr n) = true := by decide

theorem replyByte_hex8 (v : Byte) : ∀ b ∈ hex8 v, replyByte b = true := by
  simp [hex8, replyByte_hexChr]

theorem replyByte_hex16 (v : U16) : ∀ b ∈ hex16 v, replyByte b = true := by
  simp [hex16, hex8, replyByte_hexChr]

theorem replyByte_hex32 (v : U32) : ∀ b ∈ hex32 v, replyByte b = true := by
  simp [hex32, hex8, replyByte_hexChr]

@[simp] theorem hex8_length (v : Byte) : (hex8 v).length = 2 := rfl
@[simp] theorem hex16_length (v : U16) : (hex16 v).length = 4 := rfl
@[simp] theorem hex32_length (v : U32) : (hex32 v).length = 8 := rfl

theorem replyTo_replyByte (cmd : CmdId) (c : Byte) {v : List Byte} (h : ∀ b ∈ v, replyByte b = true) :
    ∀ b ∈ replyTo cmd c v, replyByte b = true := by
  simp only [replyTo, List.mem_append, List.mem_cons]
  rintro b ((rfl | hb) | hb)
  · exact replyByte_id cmd
  · exact replyByte_hex8 c b hb
  · exact h b hb

/-- The two characters of a byte read back as the byte, under every `HEXVAL` (R83, R85). -/
theorem hexVal_hexChr (c : Config) (n : Nibble) : hexVal c (hexChr n) = some n := by
  have key : ∀ n : Nibble,
      (if 0x30 ≤ (hexChr n).toNat ∧ (hexChr n).toNat ≤ 0x39 then
        some (BitVec.ofNat 4 ((hexChr n).toNat - 0x30))
      else if 0x41 ≤ (hexChr n).toNat ∧ (hexChr n).toNat ≤ 0x46 then
        some (BitVec.ofNat 4 ((hexChr n).toNat - 0x41 + 10))
      else none) = some n := by decide
  have := key n
  unfold hexVal
  split_ifs at this ⊢ <;> simp_all

/-! ### Handlers -/

/-- What no command writes (R216, R35, R241). -/
structure HandlerFrame (s t : State) : Prop where
  cfg : t.cfg = s.cfg
  ticks : t.ticks = s.ticks
  link : t.link = s.link
  boardId : t.boardId = s.boardId
  ports : t.ports = s.ports
  inbox : t.inbox = s.inbox
  result : t.result = s.result
  tx : t.tx = s.tx
  draws : t.draws = s.draws

theorem HandlerFrame.refl (s : State) : HandlerFrame s s := ⟨rfl, rfl, rfl, rfl, rfl, rfl, rfl, rfl, rfl⟩

theorem setChannelPre_frame {c e : Byte} {s t : State} (h : setChannelPre c e s = some t) :
    HandlerFrame s t ∧ t.nv = s.nv ∧ t.channels = s.channels := by
  unfold setChannelPre at h
  split at h
  · cases h; exact ⟨by constructor <;> simp, by simp, by simp⟩
  · cases h

theorem setChannelPost_frame (c req : Byte) (s : State) :
    HandlerFrame s (setChannelPost c req s).2 ∧ (setChannelPost c req s).2.nv = s.nv := by
  unfold setChannelPost
  split
  · exact ⟨.refl s, rfl⟩
  · exact ⟨by constructor <;> rfl, rfl⟩

theorem enableSampling_frame (on : Bool) (s : State) :
    HandlerFrame s (s.enableSampling on) ∧ (s.enableSampling on).nv = s.nv := by
  unfold State.enableSampling
  split
  · split
    · exact ⟨.refl s, rfl⟩
    · exact ⟨by constructor <;> rfl, rfl⟩
  · exact ⟨by constructor <;> rfl, rfl⟩

theorem loadPreset_frame {c : Byte} {s t : State} (h : loadPreset c s = some t) :
    HandlerFrame s t ∧ t.nv = s.nv := by
  unfold loadPreset at h
  split at h
  · cases h
  · dsimp only at h
    split at h
    · cases h
    · rename_i u hu
      cases h
      obtain ⟨hf, hn, -⟩ := setChannelPre_frame hu
      exact ⟨by constructor <;> simp [hf.cfg, hf.ticks, hf.link, hf.boardId, hf.ports, hf.inbox,
        hf.result, hf.tx, hf.draws], hn⟩

theorem savePreset_frame {c : Byte} {s t : State} (h : savePreset c s = some t) : HandlerFrame s t := by
  unfold savePreset at h
  split at h
  · cases h
  · cases h; constructor <;> rfl

/-- Everything a handler's success says: its frame, that only `W` writes the store, that the invariant
is kept, and that the reply begins with the id, holds reply bytes only and fits. -/
structure HandlerOk (cmd : CmdId) (s t : State) (r : List Byte) : Prop where
  frame : HandlerFrame s t
  store : cmd ≠ .W → t.nv = s.nv
  inv : s.Inv → t.Inv
  head : r.head? = some cmd.byte
  bytes : ∀ b ∈ r, replyByte b = true
  fits : s.Inv → r.length ≤ s.cfg.txBufSize

theorem handler_ok {cmd : CmdId} {q : List Byte} {s t : State} {r : List Byte}
    (h : handler cmd q s = some (t, r)) : HandlerOk cmd s t r := by
  have tx19 : s.Inv → 19 ≤ s.cfg.txBufSize := fun hi => hi.config.2.2.2.2.1.2.1
  have nil : ∀ b ∈ ([] : List Byte), replyByte b = true := by simp
  cases cmd <;> simp only [handler] at h
  case E =>
    cases h
    exact ⟨.refl s, fun _ => rfl, id, rfl, by simp [replyByte_id], fun hi => by have := tx19 hi; simp; omega⟩
  case S =>
    cases h
    exact ⟨(enableSampling_frame _ s).1, fun _ => (enableSampling_frame _ s).2,
      fun hi => hi.enableSampling _, rfl, by simp [replyByte_id], fun hi => by have := tx19 hi; simp; omega⟩
  case X =>
    cases h
    exact ⟨(enableSampling_frame _ s).1, fun _ => (enableSampling_frame _ s).2,
      fun hi => hi.enableSampling _, rfl, by simp [replyByte_id], fun hi => by have := tx19 hi; simp; omega⟩
  case I =>
    unfold handleInquiry at h
    split at h
    · rename_i hc
      split at h
      · rename_i name hn
        cases h
        refine ⟨.refl s, fun _ => rfl, id, rfl, replyTo_replyByte _ _ ?_, fun hi => ?_⟩
        · intro b hb
          rcases List.mem_append.1 hb with hb | hb
          · obtain ⟨x, -, hx⟩ := List.mem_flatMap.1 hb; exact replyByte_hex8 x b hx
          · exact replyByte_hex8 0 b hb
        · have hmem : some name ∈ s.ports.sensorNames := by
            unfold State.sensorName at hn
            rw [List.getD_eq_getElem?_getD] at hn
            cases hg : s.ports.sensorNames[(q.getD 0 0).toNat]? with
            | none => rw [hg] at hn; cases hn
            | some o => rw [hg] at hn; cases hn; exact List.mem_of_getElem? hg
          have hfit := hi.names name hmem
          simp only [nameFits, Bool.and_eq_true, decide_eq_true_eq] at hfit
          have hlen : (name.flatMap hex8).length = 2 * name.length := by
            simp [List.length_flatMap, Nat.mul_comm]
          simp only [replyTo, List.length_append, List.length_cons, hex8_length, hlen]
          omega
      · cases h
    · cases h
  case P =>
    unfold handleSetPre at h
    split at h
    · rename_i u hu
      cases h
      obtain ⟨hf, hn, -⟩ := setChannelPre_frame hu
      exact ⟨hf, fun _ => hn, fun hi => hi.setChannelPre hu, rfl, replyTo_replyByte _ _ nil,
        fun hi => by have := tx19 hi; simp [replyTo]; omega⟩
    · cases h
  case Q =>
    unfold handleGetPre at h
    split at h
    · cases h
      exact ⟨.refl s, fun _ => rfl, id, rfl, replyTo_replyByte _ _ (replyByte_hex8 _),
        fun hi => by have := tx19 hi; simp [replyTo]; omega⟩
    · cases h
  case O =>
    unfold handleSetPost at h
    dsimp only at h
    split at h
    · cases h
      exact ⟨(setChannelPost_frame _ _ s).1, fun _ => (setChannelPost_frame _ _ s).2,
        fun hi => hi.setChannelPost _ _, rfl, replyTo_replyByte _ _ nil,
        fun hi => by have := tx19 hi; simp [replyTo]; omega⟩
    · cases h
  case N =>
    unfold handleGetPost at h
    split at h
    · cases h
      exact ⟨.refl s, fun _ => rfl, id, rfl, replyTo_replyByte _ _ (replyByte_hex8 _),
        fun hi => by have := tx19 hi; simp [replyTo]; omega⟩
    · cases h
  case G =>
    unfold handleLast16 at h
    split at h
    · cases h
      refine ⟨.refl s, fun _ => rfl, id, rfl, replyTo_replyByte _ _ fun b hb => ?_,
        fun hi => by have := tx19 hi; simp [replyTo]; omega⟩
      rcases List.mem_append.1 hb with hb | hb
      · exact replyByte_hex16 _ b hb
      · exact replyByte_hex32 _ b hb
    · cases h
  case Y =>
    unfold handleLast32 at h
    split at h
    · cases h
      refine ⟨.refl s, fun _ => rfl, id, rfl, replyTo_replyByte _ _ fun b hb => ?_,
        fun hi => by have := tx19 hi; simp [replyTo]; omega⟩
      rcases List.mem_append.1 hb with hb | hb
      · exact replyByte_hex32 _ b hb
      · exact replyByte_hex32 _ b hb
    · cases h
  case L =>
    unfold handleLoad at h
    split at h
    · rename_i u hu
      cases h
      obtain ⟨hf, hn⟩ := loadPreset_frame hu
      exact ⟨hf, fun _ => hn, fun hi => hi.loadPreset hu, rfl, replyTo_replyByte _ _ nil,
        fun hi => by have := tx19 hi; simp [replyTo]; omega⟩
    · cases h
  case W =>
    unfold handleSave at h
    split at h
    · rename_i u hu
      cases h
      exact ⟨savePreset_frame hu, fun hw => absurd rfl hw, fun hi => hi.savePreset hu, rfl,
        replyTo_replyByte _ _ nil, fun hi => by have := tx19 hi; simp [replyTo]; omega⟩
    · cases h

/-! ### The dispatch -/

/-- The error reply fits in a well-formed configuration. -/
theorem State.raiseCmdError_eq {s : State} (h : s.cfg.WF) (e : CmdError) :
    s.raiseCmdError e = .next { s with link := s.link.setReply [chError], result := .none } :=
  State.leaveReply_of_le (by have := h.2.2.2.2.1.2.1; simp; omega)

/-- Everything a command can answer: the error reply, or the handler's state with its reply. -/
theorem runCommand_cases {cmd : CmdId} {ds : List Byte} {s : State} (h : s.cfg.WF) :
    runCommand cmd ds s = .next { s with link := s.link.setReply [chError], result := .none } ∨
    ∃ q t r, readParams s.cfg ds = some q ∧ (driverMayFail cmd && s.ports.driverFails) = false ∧
      handler cmd q s = some (t, r) ∧ runCommand cmd ds s = t.leaveReply r := by
  unfold runCommand
  split
  · exact .inl (State.raiseCmdError_eq h _)
  · rename_i q hq
    split
    · exact .inl (State.raiseCmdError_eq h _)
    · rename_i hd
      split
      · exact .inl (State.raiseCmdError_eq h _)
      · rename_i t r hh
        exact .inr ⟨q, t, r, hq, by simpa using hd, hh, rfl⟩

/-- Everything a dispatch can answer. -/
theorem State.dispatch_cases {s : State} (h : s.cfg.WF) (p : List Byte) :
    s.dispatch p = .next { s with link := s.link.setReply [chError], result := .none } ∨
    ∃ cmd ds q t r, parsePayload p = .ok (cmd, ds) ∧ readParams s.cfg ds = some q ∧
      handler cmd q s = some (t, r) ∧ s.dispatch p = t.leaveReply r := by
  unfold State.dispatch
  split
  · exact .inl (State.raiseCmdError_eq h _)
  · rename_i cmd ds hp
    rcases runCommand_cases (cmd := cmd) (ds := ds) h with he | ⟨q, t, r, hq, -, hh, hr⟩
    · exact .inl he
    · exact .inr ⟨cmd, ds, q, t, r, hp, hq, hh, hr⟩

/-- A reply left pending keeps the link's invariant. -/
theorem Link.Inv.setReply {cfg : Config} {l : Link} (h : l.Inv cfg) {r : List Byte}
    (hr : ∀ b ∈ r, replyByte b = true) (hl : r.length ≤ cfg.txBufSize) : (l.setReply r).Inv cfg where
  rxSize := h.rxSize
  rxLen := h.rxLen
  txSize := by
    have := h.txSize
    simp only [Link.setReply, List.length_append, List.length_drop]; omega
  txLen := hl
  idle := h.idle
  payload := h.payload
  reply _ := by simpa [Link.setReply] using hr

theorem State.Inv.leaveReply {s t : State} (h : s.Inv) {r : List Byte}
    (hr : ∀ b ∈ r, replyByte b = true) (ht : s.leaveReply r = .next t) : t.Inv := by
  unfold State.leaveReply at ht
  split at ht
  · rename_i hl
    rw [← (next_inj _ _).1 ht]
    exact (h.withLink (h.link.setReply hr hl)).withResult _
  · cases ht

/-- A dispatch from a state that meets the invariant completes and keeps it (R216). -/
theorem State.Inv.dispatch {s : State} (h : s.Inv) (p : List Byte) :
    ∃ t, s.dispatch p = .next t ∧ t.Inv := by
  rcases State.dispatch_cases h.config p with he | ⟨cmd, ds, q, u, r, -, -, hh, hr⟩
  · exact ⟨_, he, (h.withLink (h.link.setReply (by simp [replyByte_error])
      (by have := h.config.2.2.2.2.1.2.1; simp; omega))).withResult _⟩
  · have ok := handler_ok hh
    have hl : r.length ≤ u.cfg.txBufSize := by rw [ok.frame.cfg]; exact ok.fits h
    exact ⟨_, hr.trans (State.leaveReply_of_le hl),
      (ok.inv h).leaveReply ok.bytes (State.leaveReply_of_le hl)⟩

/-- A wire command from a state that meets the invariant completes and keeps it. -/
theorem State.Inv.runCommand {s : State} (h : s.Inv) (cmd : CmdId) (ds : List Byte) :
    ∃ t, runCommand cmd ds s = .next t ∧ t.Inv := by
  rcases runCommand_cases (cmd := cmd) (ds := ds) h.config with he | ⟨q, u, r, -, -, hh, hr⟩
  · exact ⟨_, he, (h.withLink (h.link.setReply (by simp [replyByte_error])
      (by have := h.config.2.2.2.2.1.2.1; simp; omega))).withResult _⟩
  · have ok := handler_ok hh
    have hl : r.length ≤ u.cfg.txBufSize := by rw [ok.frame.cfg]; exact ok.fits h
    exact ⟨_, hr.trans (State.leaveReply_of_le hl),
      (ok.inv h).leaveReply ok.bytes (State.leaveReply_of_le hl)⟩

/-- A dispatched reply names the only state it can leave. -/
theorem State.leaveReply_eq_next {s t : State} {r : List Byte} (h : s.leaveReply r = .next t) :
    t = { s with link := s.link.setReply r, result := .none } := by
  unfold State.leaveReply at h
  split at h
  · exact ((next_inj _ _).1 h).symm
  · cases h

/-- What a completed command leaves alone, whatever it answers. -/
structure CommandFrame (s t : State) : Prop where
  cfg : t.cfg = s.cfg
  ticks : t.ticks = s.ticks
  boardId : t.boardId = s.boardId
  ports : t.ports = s.ports
  inbox : t.inbox = s.inbox
  tx : t.tx = s.tx
  draws : t.draws = s.draws

theorem raiseCmdError_frame {s t : State} {e : CmdError} (h : s.raiseCmdError e = .next t) :
    CommandFrame s t ∧ t.nv = s.nv := by
  rw [State.leaveReply_eq_next h]
  exact ⟨⟨rfl, rfl, rfl, rfl, rfl, rfl, rfl⟩, rfl⟩

theorem runCommand_frame {cmd : CmdId} {ds : List Byte} {s t : State}
    (h : runCommand cmd ds s = .next t) : CommandFrame s t ∧ (cmd ≠ .W → t.nv = s.nv) := by
  unfold runCommand at h
  split at h
  · exact ⟨(raiseCmdError_frame h).1, fun _ => (raiseCmdError_frame h).2⟩
  · split at h
    · exact ⟨(raiseCmdError_frame h).1, fun _ => (raiseCmdError_frame h).2⟩
    · split at h
      · exact ⟨(raiseCmdError_frame h).1, fun _ => (raiseCmdError_frame h).2⟩
      · rename_i hh
        have ok := handler_ok hh
        rw [State.leaveReply_eq_next h]
        exact ⟨⟨ok.frame.cfg, ok.frame.ticks, ok.frame.boardId, ok.frame.ports, ok.frame.inbox,
          ok.frame.tx, ok.frame.draws⟩, ok.store⟩

theorem dispatch_frame {p : List Byte} {s t : State} (h : s.dispatch p = .next t) :
    CommandFrame s t ∧ (p.head? ≠ some CmdId.W.byte → t.nv = s.nv) := by
  unfold State.dispatch at h
  split at h
  · exact ⟨(raiseCmdError_frame h).1, fun _ => (raiseCmdError_frame h).2⟩
  · rename_i cmd ds hp
    obtain ⟨hf, hn⟩ := runCommand_frame h
    refine ⟨hf, fun hh => hn ?_⟩
    rintro rfl
    obtain ⟨ps, rfl, -⟩ := parsePayload_eq_ok.1 hp
    exact hh rfl

/-! ### Parameters -/

/-- One pair of characters that is no hex byte makes the parameters unreadable (R201). -/
theorem readParams_none {c : Config} : ∀ (k : Nat) (ps : List Byte), 2 * k ≤ ps.length →
    ∀ j < k, ∀ h l, ps[2 * j]? = some h → ps[2 * j + 1]? = some l → hexByte c h l = none →
    readParams c (ps.take (2 * k)) = none
  | 0, _, _, j, hj, _, _, _, _, _ => absurd hj (by omega)
  | k + 1, a :: b :: ps, hl, 0, _, h, l, h1, h2, hn => by
    simp only [Nat.mul_zero, List.getElem?_cons_zero, Nat.zero_add, List.getElem?_cons_succ,
      Option.some.injEq] at h1 h2
    subst h1 h2
    simp [Nat.mul_add, readParams, hn]
  | k + 1, a :: b :: ps, hl, j + 1, hj, h, l, h1, h2, hn => by
    have ih := readParams_none (c := c) k ps (by simp at hl; omega) j (by omega) h l
      (by simpa [Nat.mul_add] using h1) (by simpa [Nat.mul_add] using h2) hn
    simp [Nat.mul_add, readParams, ih]

/-- A command with a channel outside the bank fails (R204, R207 to R214). -/
theorem handler_outside {s : State} {cmd : CmdId} {q : List Byte} {c : Byte} (hk : 1 ≤ cmd.params)
    (hc : s.cfg.nch ≤ c.toNat) (hq : q.getD 0 0 = c) : handler cmd q s = none := by
  have h3 : s.channel? c = none := by unfold State.channel?; rw [if_neg (by omega)]
  cases cmd <;> simp only [CmdId.params] at hk <;> try omega
  all_goals simp only [handler, hq]
  · simp [handleInquiry]; omega
  · simp [handleSetPre, setChannelPre, Nat.not_lt.2 hc]
  · simp [handleGetPre, getChannelPre, Nat.not_lt.2 hc]
  · simp [handleSetPost, setChannelPost, h3]
  · simp [handleGetPost, getChannelPost, h3]
  · simp [handleLast16, channelLast, h3]
  · simp [handleLast32, channelLast, h3]
  · simp [handleLoad, loadPreset, h3]
  · simp [handleSave, savePreset, h3]

end Sys2Proof.Machine
end

