-- ==== Sys2Proof/Laws/Link.lean ====
section
/-! SUPPORT. The bus link: its named updates keep the link's invariant; what a received byte does in
each phase; a poll and a transmission. -/

namespace Sys2Proof.Machine

variable {cfg : Config} {l : Link}

/-! ### Named updates keep the link's invariant -/

theorem Link.Inv.abort (h : l.Inv cfg) (r : FrameAbort) : (l.abort r).Inv cfg :=
  ⟨h.rxSize, Nat.zero_le _, h.txSize, h.txLen, fun _ => rfl, by simp, h.reply⟩

theorem Link.Inv.checkTimeout (h : l.Inv cfg) (now : U32) : (l.checkTimeout cfg now).Inv cfg := by
  unfold Link.checkTimeout; split
  · exact h.abort _
  · exact h

theorem Link.Inv.pulse (h : l.Inv cfg) (now : U32) : (l.pulse now).Inv cfg := by
  unfold Link.pulse; split
  · exact ⟨h.rxSize, h.rxLen, h.txSize, h.txLen, h.idle, h.payload, h.reply⟩
  · exact h

theorem Link.Inv.startFrame (h : l.Inv cfg) (now : U32) : (l.startFrame now).Inv cfg :=
  ⟨h.rxSize, Nat.zero_le _, h.txSize, h.txLen, fun _ => rfl, (h.abort .headerRestart).payload, h.reply⟩

theorem Link.Inv.takeVersion (h : l.Inv cfg) (hs : l.rxState ≠ .receiving) (b : Byte) :
    (l.takeVersion cfg b).Inv cfg := by
  unfold Link.takeVersion; split
  · exact ⟨h.rxSize, h.rxLen, h.txSize, h.txLen, fun _ => h.idle hs, h.payload, h.reply⟩
  · exact h.abort _

theorem Link.Inv.takeAddrHigh (h : l.Inv cfg) (hs : l.rxState ≠ .receiving) (b : Byte) :
    (l.takeAddrHigh cfg b).Inv cfg := by
  unfold Link.takeAddrHigh; split
  · exact ⟨h.rxSize, h.rxLen, h.txSize, h.txLen, fun _ => h.idle hs, h.payload, h.reply⟩
  · exact h.abort _

theorem Link.Inv.takeAddrLow (h : l.Inv cfg) (id b : Byte) : (l.takeAddrLow cfg id b).Inv cfg := by
  unfold Link.takeAddrLow; split
  · exact h.abort _
  · split
    · exact ⟨h.rxSize, Nat.zero_le _, h.txSize, h.txLen, fun _ => rfl, by simp, h.reply⟩
    · exact h.abort _

/-- A payload byte that is no delimiter is always taken, as data or as an overflow. -/
theorem Link.Inv.takeData (h : l.Inv cfg) (hs : l.rxState = .receiving) {b : Byte}
    (hb : b ≠ chHeader ∧ b ≠ chTrailer) : ∃ l', l.takeData cfg b = some l' ∧ l'.Inv cfg := by
  unfold Link.takeData
  split
  · exact ⟨_, rfl, h.abort _⟩
  · rename_i hne
    have hlen := h.rxLen
    have hsize := h.rxSize
    rw [if_pos (by omega)]
    refine ⟨_, rfl, by simpa using hsize, ?_, h.txSize, h.txLen, fun hn => absurd hs hn, ?_, h.reply⟩
    · change l.rxLen + 1 ≤ cfg.rxBufSize; omega
    · change ∀ x ∈ (l.rxBuf.set l.rxLen b).take (l.rxLen + 1), x ≠ chHeader ∧ x ≠ chTrailer
      intro x hx
      rw [List.take_add_one, List.take_set_of_le (Nat.le_refl _)] at hx
      rcases List.mem_append.1 hx with hx | hx
      · exact h.payload x hx
      · rw [List.getElem?_set_self (by omega)] at hx
        have : x = b := by simpa using hx
        exact this ▸ hb

theorem Link.Inv.checkIndicator (h : l.Inv cfg) (now : U32) : (l.checkIndicator cfg now).Inv cfg :=
  ⟨h.rxSize, h.rxLen, h.txSize, h.txLen, h.idle, h.payload, h.reply⟩

/-! ### The timeout -/

theorem Link.checkTimeout_fresh (cfg : Config) {now : U32}
    (h : (now - l.frameStart).toNat ≤ cfg.frameTimeout) : l.checkTimeout cfg now = l := by
  rw [Link.checkTimeout, if_neg]
  simp only [frameExpired, elapsed, Bool.and_eq_true, decide_eq_true_eq, not_and]
  exact fun _ hd => Nat.not_lt.2 h (of_decide_eq_true hd)

theorem Link.checkTimeout_searching (cfg : Config) (now : U32) (h : l.rxState = .searching) :
    l.checkTimeout cfg now = l := by simp [Link.checkTimeout, frameExpired, h]

theorem Link.checkTimeout_expired (cfg : Config) {now : U32} (hs : l.rxState ≠ .searching)
    (h : cfg.frameTimeout < (now - l.frameStart).toNat) :
    l.checkTimeout cfg now = { l with rxState := .searching, rxLen := 0 } := by
  rw [Link.checkTimeout, if_pos (by
    simp only [frameExpired, elapsed, Bool.and_eq_true, decide_eq_true_eq]; exact ⟨hs, decide_eq_true h⟩)]
  rfl

theorem Link.checkTimeout_eq (cfg : Config) (now : U32) (l : Link) :
    l.checkTimeout cfg now = l ∨
    l.checkTimeout cfg now = { l with rxState := .searching, rxLen := 0 } := by
  unfold Link.checkTimeout; split
  · exact .inr rfl
  · exact .inl rfl

/-! ### A received byte -/

/-- Everything a received byte can do: the link alone changes, or a payload is committed. -/
theorem execLnkRx_cases (b : Byte) (s : State) :
    (∃ l, execLnkRx b s = .next { s with link := l, result := .none } ∧
      (s.link.Inv s.cfg → l.Inv s.cfg)) ∨
    (b = chTrailer ∧ s.link.rxState = .receiving ∧
      s.link.checkTimeout s.cfg s.ticks = s.link ∧ execLnkRx b s = s.commit) ∨
    (¬ s.link.Inv s.cfg ∧ execLnkRx b s = .fault .rxIndex) := by
  unfold execLnkRx
  dsimp only [State.answer]
  split
  · exact .inl ⟨_, rfl, fun h => (h.checkTimeout _).startFrame _⟩
  · rename_i hb
    split
    · exact .inl ⟨_, rfl, fun h => h.checkTimeout _⟩
    · rename_i hs; exact .inl ⟨_, rfl, fun h => (h.checkTimeout _).takeVersion (by simp [hs]) _⟩
    · rename_i hs; exact .inl ⟨_, rfl, fun h => (h.checkTimeout _).takeAddrHigh (by simp [hs]) _⟩
    · exact .inl ⟨_, rfl, fun h => (h.checkTimeout _).takeAddrLow _ _⟩
    · rename_i hs
      have hl : s.link.checkTimeout s.cfg s.ticks = s.link := by
        rcases Link.checkTimeout_eq s.cfg s.ticks s.link with he | he
        · exact he
        · rw [he] at hs; cases hs
      rw [hl] at hs ⊢
      split
      · rename_i ht; exact .inr (.inl ⟨ht, hs, rfl, rfl⟩)
      · rename_i ht
        split
        · rename_i l' hl'
          refine .inl ⟨l', rfl, fun h => ?_⟩
          obtain ⟨l2, h2, hi⟩ := h.takeData hs ⟨hb, ht⟩
          rw [h2] at hl'; cases hl'; exact hi
        · rename_i hn
          refine .inr (.inr ⟨fun h => ?_, rfl⟩)
          obtain ⟨l2, h2, -⟩ := h.takeData hs ⟨hb, ht⟩
          rw [h2] at hn; cases hn

/-- The commit hands the payload to the dispatch (R178). -/
theorem State.commit_eq {s : State} (h : s.link.rxLen ≤ s.link.rxBuf.length) :
    s.commit = State.dispatch
      { s with link := Link.pulse s.ticks { s.link with rxState := .searching, rxLen := 0 } }
      (s.link.rxBuf.take s.link.rxLen) := by
  simp [State.commit, h]

theorem State.Inv.commit {s : State} (h : s.Inv) : ∃ t, s.commit = .next t ∧ t.Inv := by
  rw [State.commit_eq (by rw [h.link.rxSize]; exact h.link.rxLen)]
  refine State.Inv.dispatch (h.withLink (Link.Inv.pulse ?_ _)) _
  exact ⟨h.link.rxSize, Nat.zero_le _, h.link.txSize, h.link.txLen, fun _ => rfl, by simp, h.link.reply⟩

theorem State.Inv.lnkRx {s : State} (h : s.Inv) (b : Byte) : ∃ t, execLnkRx b s = .next t ∧ t.Inv := by
  rcases execLnkRx_cases b s with ⟨l, he, hi⟩ | ⟨-, -, -, he⟩ | ⟨hn, -⟩
  · exact ⟨_, he, (h.withLink (hi h.link)).withResult _⟩
  · rw [he]; exact h.commit
  · exact absurd h.link hn

theorem State.Inv.lnkPoll {s : State} (h : s.Inv) : ∃ t, execLnkPoll s = .next t ∧ t.Inv :=
  ⟨_, rfl, (h.withLink ((h.link.checkTimeout _).checkIndicator _)).withResult _⟩

theorem State.Inv.lnkTx {s : State} (h : s.Inv) : ∃ t, execLnkTx s = .next t ∧ t.Inv := by
  unfold execLnkTx
  split
  · rw [if_pos (by rw [h.link.txSize]; exact h.link.txLen)]
    refine ⟨_, rfl, State.Inv.congr (h.withLink (Link.Inv.pulse ?_ s.ticks)) rfl rfl rfl rfl rfl rfl rfl⟩
    exact ⟨h.link.rxSize, h.link.rxLen, h.link.txSize, h.link.txLen, h.link.idle, h.link.payload,
      by simp⟩
  · exact ⟨_, rfl, h.withResult _⟩

theorem State.Inv.lnkLedEnable {s : State} (h : s.Inv) : ∃ t, execLnkLedEnable s = .next t ∧ t.Inv :=
  ⟨_, rfl, State.Inv.congr (h.withLink (l := { s.link with ledEnabled := true, ledEnableSince := s.ticks })
    ⟨h.link.rxSize, h.link.rxLen, h.link.txSize, h.link.txLen, h.link.idle, h.link.payload,
      h.link.reply⟩) rfl rfl rfl rfl rfl rfl rfl⟩

end Sys2Proof.Machine
end

