-- ==== Sys2Proof/Laws/PerInstr.lean ====
section
/-! SUPPORT. A statement about every instruction as syntax, one lemma per constructor: its encoding is
shaped as its row of the tables R86 and R91 says. -/

namespace Sys2Proof.Laws

/-- The encoding begins with a code of R91 and has that row's number of bytes (a sample and a payload
may have any number more), or with an id of R86 and its parameters' characters, or is the error byte (R88). -/
def TableRow.Statement (i : Instr) : Prop :=
  match i.port with
  | .operation => ∃ op : OpCode, (encode i).head? = some op.code ∧
      if op.openOperand then 1 + op.operandBytes ≤ (encode i).length
      else (encode i).length = 1 + op.operandBytes
  | .command => encode i = [0x2A] ∨ ∃ cmd : CmdId, (encode i).head? = some cmd.byte ∧
      (encode i).length = 1 + 2 * cmd.params

theorem TableRow.sysReset : TableRow.Statement .sysReset := ⟨.sysReset, rfl, rfl⟩
theorem TableRow.sysTickIrq : TableRow.Statement .sysTickIrq := ⟨.sysTickIrq, rfl, rfl⟩
theorem TableRow.avgInit (a : AvgRef) : TableRow.Statement (.avgInit a) := ⟨.avgInit, rfl, rfl⟩
theorem TableRow.avgSetDepth (a : AvgRef) (d : Byte) : TableRow.Statement (.avgSetDepth a d) :=
  ⟨.avgSetDepth, rfl, rfl⟩
theorem TableRow.avgCollect (a : AvgRef) (v : Sample) (ts : U32) : TableRow.Statement (.avgCollect a v ts) :=
  ⟨.avgCollect, rfl, by simp [OpCode.openOperand, OpCode.operandBytes, encode, u32Bytes, avgRefBytes]⟩
theorem TableRow.avgLastAvg (a : AvgRef) : TableRow.Statement (.avgLastAvg a) :=
  ⟨.avgLastAvg, rfl, rfl⟩
theorem TableRow.avgLastCum (a : AvgRef) : TableRow.Statement (.avgLastCum a) :=
  ⟨.avgLastCum, rfl, rfl⟩
theorem TableRow.avgLastTs (a : AvgRef) : TableRow.Statement (.avgLastTs a) :=
  ⟨.avgLastTs, rfl, rfl⟩
theorem TableRow.avgGetDepth (a : AvgRef) : TableRow.Statement (.avgGetDepth a) :=
  ⟨.avgGetDepth, rfl, rfl⟩
theorem TableRow.lutResolve (req : Byte) : TableRow.Statement (.lutResolve req) :=
  ⟨.lutResolve, rfl, rfl⟩
theorem TableRow.chSetPost (c : Byte) (req : Byte) : TableRow.Statement (.chSetPost c req) :=
  ⟨.chSetPost, rfl, rfl⟩
theorem TableRow.chGetPost (c : Byte) : TableRow.Statement (.chGetPost c) :=
  ⟨.chGetPost, rfl, rfl⟩
theorem TableRow.chFeed (c : Byte) (v : Sample) (ts : U32) : TableRow.Statement (.chFeed c v ts) :=
  ⟨.chFeed, rfl, by simp [OpCode.openOperand, OpCode.operandBytes, encode, u32Bytes]⟩
theorem TableRow.chLast (c : Byte) : TableRow.Statement (.chLast c) := ⟨.chLast, rfl, rfl⟩
theorem TableRow.bankCorrect : TableRow.Statement .bankCorrect := ⟨.bankCorrect, rfl, rfl⟩
theorem TableRow.bankRestart : TableRow.Statement .bankRestart := ⟨.bankRestart, rfl, rfl⟩
theorem TableRow.bankEnableSampling (on : Bool) : TableRow.Statement (.bankEnableSampling on) :=
  ⟨.bankEnableSampling, rfl, rfl⟩
theorem TableRow.chLoadPreset (c : Byte) : TableRow.Statement (.chLoadPreset c) :=
  ⟨.chLoadPreset, rfl, rfl⟩
theorem TableRow.chSavePreset (c : Byte) : TableRow.Statement (.chSavePreset c) :=
  ⟨.chSavePreset, rfl, rfl⟩
theorem TableRow.smpTick (x : Sensor) : TableRow.Statement (.smpTick x) := ⟨.smpTick, rfl, rfl⟩
theorem TableRow.smpTask (x : Sensor) (hret : Bool) : TableRow.Statement (.smpTask x hret) :=
  ⟨.smpTask, rfl, rfl⟩
theorem TableRow.smpSetPre (x : Sensor) (e : Byte) : TableRow.Statement (.smpSetPre x e) :=
  ⟨.smpSetPre, rfl, rfl⟩
theorem TableRow.smpGetPre (x : Sensor) : TableRow.Statement (.smpGetPre x) :=
  ⟨.smpGetPre, rfl, rfl⟩
theorem TableRow.chSetPre (c : Byte) (e : Byte) : TableRow.Statement (.chSetPre c e) :=
  ⟨.chSetPre, rfl, rfl⟩
theorem TableRow.chGetPre (c : Byte) : TableRow.Statement (.chGetPre c) :=
  ⟨.chGetPre, rfl, rfl⟩
theorem TableRow.lnkRx (b : Byte) : TableRow.Statement (.lnkRx b) := ⟨.lnkRx, rfl, rfl⟩
theorem TableRow.lnkPoll : TableRow.Statement .lnkPoll := ⟨.lnkPoll, rfl, rfl⟩
theorem TableRow.lnkTx : TableRow.Statement .lnkTx := ⟨.lnkTx, rfl, rfl⟩
theorem TableRow.lnkLedEnable : TableRow.Statement .lnkLedEnable := ⟨.lnkLedEnable, rfl, rfl⟩
theorem TableRow.cmdDispatch (payload : List Byte) : TableRow.Statement (.cmdDispatch payload) :=
  ⟨.cmdDispatch, rfl, by simp [OpCode.openOperand, OpCode.operandBytes, encode]⟩
theorem TableRow.cmdE : TableRow.Statement .cmdE := .inr ⟨.E, rfl, rfl⟩
theorem TableRow.cmdI (c1 c0 : Byte) : TableRow.Statement (.cmdI c1 c0) := .inr ⟨.I, rfl, rfl⟩
theorem TableRow.cmdS : TableRow.Statement .cmdS := .inr ⟨.S, rfl, rfl⟩
theorem TableRow.cmdX : TableRow.Statement .cmdX := .inr ⟨.X, rfl, rfl⟩
theorem TableRow.cmdP (c1 c0 e1 e0 : Byte) : TableRow.Statement (.cmdP c1 c0 e1 e0) :=
  .inr ⟨.P, rfl, rfl⟩
theorem TableRow.cmdQ (c1 c0 : Byte) : TableRow.Statement (.cmdQ c1 c0) := .inr ⟨.Q, rfl, rfl⟩
theorem TableRow.cmdO (c1 c0 r1 r0 : Byte) : TableRow.Statement (.cmdO c1 c0 r1 r0) :=
  .inr ⟨.O, rfl, rfl⟩
theorem TableRow.cmdN (c1 c0 : Byte) : TableRow.Statement (.cmdN c1 c0) := .inr ⟨.N, rfl, rfl⟩
theorem TableRow.cmdG (c1 c0 : Byte) : TableRow.Statement (.cmdG c1 c0) := .inr ⟨.G, rfl, rfl⟩
theorem TableRow.cmdY (c1 c0 : Byte) : TableRow.Statement (.cmdY c1 c0) := .inr ⟨.Y, rfl, rfl⟩
theorem TableRow.cmdL (c1 c0 : Byte) : TableRow.Statement (.cmdL c1 c0) := .inr ⟨.L, rfl, rfl⟩
theorem TableRow.cmdW (c1 c0 : Byte) : TableRow.Statement (.cmdW c1 c0) := .inr ⟨.W, rfl, rfl⟩
theorem TableRow.errorReply : TableRow.Statement .errorReply := .inl rfl

end Sys2Proof.Laws
end

