-- ==== Sys2Proof/Tests/Slice0.lean ====
section
/-! SUPPORT. Tests: ill-formed terms refused, words of the tables decoded, the spec's vectors run one
operation at a time, and for every statement with hypotheses a witness that meets them. The expected
values are the spec's (spec/95_test_vectors.md and the rules named). -/

namespace Sys2Proof.Tests

open Sys2Proof Sys2Proof.Machine

/-! ### Well-formedness: one ill-formed term for each check -/

abbrev cfg0 : Config := referenceConfig

theorem test_wf_averager_channel :
    (Instr.avgInit ⟨22, .inner⟩).wellFormed cfg0 = false ∧
    (Instr.avgSetDepth ⟨22, .outer⟩ 3).wellFormed cfg0 = false ∧
    (Instr.avgCollect ⟨22, .inner⟩ resetSample 0).wellFormed cfg0 = false ∧
    (Instr.avgLastAvg ⟨255, .inner⟩).wellFormed cfg0 = false ∧
    (Instr.avgLastCum ⟨22, .outer⟩).wellFormed cfg0 = false ∧
    (Instr.avgLastTs ⟨22, .inner⟩).wellFormed cfg0 = false ∧
    (Instr.avgGetDepth ⟨22, .outer⟩).wellFormed cfg0 = false ∧
    (Instr.avgGetDepth ⟨21, .outer⟩).wellFormed cfg0 = true := by decide

theorem test_wf_feed_channel :
    (Instr.chFeed 22 resetSample 0).wellFormed cfg0 = false ∧
    (Instr.chFeed 21 resetSample 0).wellFormed cfg0 = true := by decide

theorem test_wf_sample_type :
    (Instr.avgCollect ⟨0, .inner⟩ [0, 0, 0] 0).wellFormed cfg0 = false ∧
    (Instr.chFeed 0 [0, 0, 0, 0, 0] 0).wellFormed cfg0 = false ∧
    (Instr.chFeed 0 [0, 0, 0, 0, 0] 0).wellFormed { cfg0 with arith := .uninterpreted 7 } = true := by
  decide

theorem test_wf_payload_length :
    (Instr.cmdDispatch (List.replicate 17 0x41)).wellFormed cfg0 = false ∧
    (Instr.cmdDispatch (List.replicate 16 0x41)).wellFormed cfg0 = true := by decide

theorem test_wf_payload_header : (Instr.cmdDispatch [0x45, 0x5B]).wellFormed cfg0 = false := by decide

theorem test_wf_payload_trailer : (Instr.cmdDispatch [0x5D]).wellFormed cfg0 = false := by decide

/-! ### Decoding: words from R91, R86 and the opcode table -/

theorem test_decode_system :
    decodeOp [0x00] = .ok .sysReset ∧ decodeOp [0x01] = .ok .sysTickIrq := by decide

theorem test_decode_averager :
    decodeOp [0x10, 0x15, 0x00] = .ok (.avgInit ⟨21, .inner⟩) ∧
    decodeOp [0x11, 0x03, 0x01, 0x07] = .ok (.avgSetDepth ⟨3, .outer⟩ 7) ∧
    decodeOp [0x12, 0x03, 0x00, 0x40, 0xC0, 0x00, 0x00, 0x00, 0x00, 0x01, 0x2C] =
      .ok (.avgCollect ⟨3, .inner⟩ [0x40, 0xC0, 0x00, 0x00] 300) ∧
    decodeOp [0x13, 0x00, 0x01] = .ok (.avgLastAvg ⟨0, .outer⟩) ∧
    decodeOp [0x14, 0x14, 0x00] = .ok (.avgLastCum ⟨20, .inner⟩) ∧
    decodeOp [0x15, 0x00, 0x00] = .ok (.avgLastTs ⟨0, .inner⟩) ∧
    decodeOp [0x16, 0x00, 0x01] = .ok (.avgGetDepth ⟨0, .outer⟩) := by decide

theorem test_decode_channel :
    decodeOp [0x20, 0xFF] = .ok (.lutResolve 255) ∧
    decodeOp [0x21, 0x03, 0x07] = .ok (.chSetPost 3 7) ∧
    decodeOp [0x22, 0x03] = .ok (.chGetPost 3) ∧
    decodeOp [0x23, 0x03, 0xC0, 0x20, 0x00, 0x00, 0x80, 0x00, 0x00, 0x07] =
      .ok (.chFeed 3 [0xC0, 0x20, 0x00, 0x00] 0x80000007) ∧
    decodeOp [0x23, 0x03, 0xC0, 0x20, 0x80, 0x00, 0x00, 0x07] = .ok (.chFeed 3 [0xC0, 0x20] 0x80000007) ∧
    decodeOp [0x24, 0x13] = .ok (.chLast 19) := by decide

theorem test_decode_bank :
    decodeOp [0x25] = .ok .bankCorrect ∧ decodeOp [0x26] = .ok .bankRestart ∧
    decodeOp [0x27, 0x00] = .ok (.bankEnableSampling false) ∧
    decodeOp [0x27, 0x01] = .ok (.bankEnableSampling true) ∧
    decodeOp [0x28, 0x15] = .ok (.chLoadPreset 21) ∧
    decodeOp [0x29, 0x07] = .ok (.chSavePreset 7) := by decide

theorem test_decode_sampler :
    decodeOp [0x30, 0x00] = .ok (.smpTick .opc) ∧
    decodeOp [0x31, 0x01, 0x01] = .ok (.smpTask .mox true) ∧
    decodeOp [0x32, 0x00, 0xFF] = .ok (.smpSetPre .opc 255) ∧
    decodeOp [0x33, 0x01] = .ok (.smpGetPre .mox) ∧
    decodeOp [0x34, 0x15, 0x03] = .ok (.chSetPre 21 3) ∧
    decodeOp [0x35, 0x14] = .ok (.chGetPre 20) := by decide

theorem test_decode_link :
    decodeOp [0x40, 0x5B] = .ok (.lnkRx 0x5B) ∧ decodeOp [0x41] = .ok .lnkPoll ∧
    decodeOp [0x42] = .ok .lnkTx ∧ decodeOp [0x43] = .ok .lnkLedEnable ∧
    decodeOp [0x50, 0x51, 0x31, 0x35] = .ok (.cmdDispatch [0x51, 0x31, 0x35]) := by decide

theorem test_decode_commands :
    decodePayload [0x45] = .cmdE ∧ decodePayload [0x49, 0x31, 0x35] = .cmdI 0x31 0x35 ∧
    decodePayload [0x53] = .cmdS ∧ decodePayload [0x58] = .cmdX ∧
    decodePayload [0x50, 0x31, 0x35, 0x30, 0x33] = .cmdP 0x31 0x35 0x30 0x33 ∧
    decodePayload [0x51, 0x31, 0x35] = .cmdQ 0x31 0x35 ∧
    decodePayload [0x4F, 0x30, 0x33, 0x30, 0x37] = .cmdO 0x30 0x33 0x30 0x37 ∧
    decodePayload [0x4E, 0x30, 0x33] = .cmdN 0x30 0x33 ∧
    decodePayload [0x47, 0x30, 0x33] = .cmdG 0x30 0x33 ∧
    decodePayload [0x59, 0x31, 0x33] = .cmdY 0x31 0x33 ∧
    decodePayload [0x4C, 0x31, 0x35] = .cmdL 0x31 0x35 ∧
    decodePayload [0x57, 0x30, 0x37] = .cmdW 0x30 0x37 ∧
    decodePayload [0x2A] = .errorReply := by decide

theorem test_decode_refuses :
    decodeOp [] = .error .emptyRequest ∧ decodeOp [0x02] = .error (.unknownCode 2) ∧
    decodeOp [0x20] = .error .missingOperand ∧ decodeOp [0x41, 0x00] = .error .extraOperand ∧
    decodeOp [0x10, 0x00, 0x02] = .error (.noSuchStage 2) ∧
    decodeOp [0x30, 0x02] = .error (.noSuchSensor 2) ∧
    decodeOp [0x27, 0x02] = .error (.notABool 2) := by decide

theorem test_table_words :
    decodeTableWord 8 0x12 = some (.avgCollect ⟨0, .inner⟩ [0, 0, 0, 0] 0) ∧
    decodeTableWord 8 0x50 = some (.cmdDispatch []) ∧
    decodeTableWord 8 0x4F = some (.cmdO 0 0 0 0) ∧ decodeTableWord 8 0x36 = none := by decide

/-! ### One step on small states -/

/-- A field of the state after an operation; nothing when it stops. -/
def after {α : Type} (o : Outcome) (f : State → α) : Option α :=
  match o with
  | .next s => some (f s)
  | .fault _ => none
  | .refused _ => none

/-- The reply pending after an operation. -/
def reply (s : State) : List Byte := s.link.txBuf.take s.link.txLen

/-- An averager of the test configuration, its slots zero. -/
def avg (depth cursor : Byte) (cons : Bool) (acc lastAvg : F32) (lastTs : U32) : Averager Sample where
  depth := depth
  buf := List.replicate 16 resetSample
  acc := f32Sample acc
  cursor := cursor
  consolidated := cons
  lastAvg := f32Sample lastAvg
  lastTs := lastTs

/-- A channel whose averagers hold the given depths. -/
def pairAt (i o : Byte) : Channel := ⟨avg i 0 false 0 0 0, avg o 0 false 0 0 0⟩

/-- The state after reset with one channel replaced. -/
def withChannel (c : Byte) (ch : Channel) : State := State.reset.setChannel c ch

/-- A link in a receive phase, `n` payload bytes received, the frame begun at tick `t`. -/
def linkAt (st : RxState) (n : Nat) (t : U32) : Link :=
  { resetLink with
    rxState := st
    frameStart := t
    addrMsb := 1
    rxBuf := 0x45 :: List.replicate 15 0x41
    rxLen := n }

/-- The state after reset with its link replaced, at tick `now`. -/
def withLink (l : Link) (now : U32) : State := { State.reset with link := l, ticks := now }

/-- A state in use: channel 0 a filled pair, channel 1 about to wrap, both samplers running, a reply
pending, a stored preset, a name for channel 21. -/
def demo : State :=
  { State.reset with
    channels := ⟨avg 3 1 true 0x41D80000 0x40C00000 300, avg 2 0 false 0 0x40000000 300⟩ ::
      ⟨avg 15 14 false 0 0 0, avg 1 0 true 0 0 0⟩ :: List.replicate 20 (pairAt 3 2)
    opc := { resetSampler with p10 := 10, counter := 9 }
    mox := { resetSampler with p10 := 100, counter := 3, go := true, runTs := 300, bound := true }
    ticks := 2000
    link := { linkAt .searching 0 0 with txBuf := 0x45 :: List.replicate 18 0, txLen := 1, txPending := true }
    nv := [(0, 2), (16, 5), (48, 2)]
    ports := { State.reset.ports with sensorNames := List.replicate 21 none ++ [some [0x4D, 0x4F, 0x58]] } }

theorem demo_inv : demo.Inv := State.inv_of_check rfl

/-- The same with the optional driver input of R217 raised. -/
def demoFails : State := { demo with ports := { demo.ports with driverFails := true } }

theorem demoFails_inv : demoFails.Inv := State.inv_of_check rfl

-- R270, R36
theorem test_reset_board_id :
    after (exec .sysReset { demo with boardId := 0x77 }) (fun s => (s.boardId, s.ticks, s.link.ledEnabled)) =
      some (0x12, 0, true) := by rfl

-- V-EXC-3: the tenth tick of a period of ten starts the next
theorem test_tickirq_starts_period :
    after (exec .sysTickIrq demo) (fun s => (s.ticks, s.opc.go, s.opc.runTs, s.mox.counter)) =
      some (2001, true, 2001, 4) := by rfl

-- V-SMP-2
theorem test_tickirq_disabled :
    after (exec .sysTickIrq State.reset) (fun s => (s.ticks, s.opc.counter, s.opc.go)) =
      some (1, 0, false) := by rfl

-- R110
theorem test_avg_init :
    after (exec (.avgInit ⟨0, .inner⟩) demo) (fun s => (s.channels.map Channel.inner).take 1) =
      some [avg 0 0 false 0 0x40C00000 300] := by rfl

-- V-AVG-4
theorem test_avg_setdepth_bound :
    after (exec (.avgSetDepth ⟨0, .inner⟩ 16) demo) (fun s => (s.result, s.channels == demo.channels)) =
      some (.flag false, true) := by rfl

-- V-AVG-4: the latched outputs survive
theorem test_avg_setdepth_largest :
    after (exec (.avgSetDepth ⟨0, .inner⟩ 15) demo) (fun s => (s.channels.map Channel.inner).take 1) =
      some [avg 15 0 false 0 0x40C00000 300] := by rfl

-- V-AVG-7: 10.0 then 11.0 at depth 2 give 10.5
theorem test_avg_collect_mean :
    after (exec (.avgCollect ⟨0, .inner⟩ (f32Sample 0x41300000) 9)
        (withChannel 0 ⟨avg 2 1 false 0x41200000 0 0, resetAverager 16⟩))
      (fun s => (s.result, (s.channels.map Channel.inner).take 1 |>.map (fun a => (a.lastAvg, a.lastTs)))) =
      some (.flag true, [(f32Sample 0x41280000, 9)]) := by decide +kernel

-- U6, R91: three bytes are no 32-bit float
theorem test_avg_collect_untyped :
    exec (.avgCollect ⟨0, .inner⟩ [0, 0, 0] 9) demo = .refused .noSuchSample := by rfl

-- R121, call 4: no output, the accumulator moves
theorem test_avg_collect_quiet :
    after (exec (.avgCollect ⟨0, .inner⟩ (f32Sample 0x41400000) 400)
        (withChannel 0 ⟨{ avg 3 0 true 0x41900000 0x40C00000 300 with buf := [0x40400000, 0x40C00000, 0x41100000].map f32Sample ++ List.replicate 13 resetSample }, resetAverager 16⟩))
      (fun s => (s.result, (s.channels.map Channel.inner).take 1 |>.map (fun a => (a.acc, a.lastAvg, a.cursor)))) =
      some (.flag false, [(f32Sample 0x41D80000, f32Sample 0x40C00000, 1)]) := by decide +kernel

-- R113 to R116
theorem test_avg_accessors :
    after (exec (.avgLastAvg ⟨0, .inner⟩) demo) State.result = some (.sample (f32Sample 0x40C00000)) ∧
    after (exec (.avgLastCum ⟨0, .inner⟩) demo) State.result = some (.sample (f32Sample 0x41D80000)) ∧
    after (exec (.avgLastTs ⟨0, .inner⟩) demo) State.result = some (.time 300) ∧
    after (exec (.avgGetDepth ⟨0, .inner⟩) demo) State.result = some (.byte 3) := ⟨rfl, rfl, rfl, rfl⟩

-- V-LUT-1
theorem test_lut_resolve :
    after (exec (.lutResolve 19) demo) State.result = some (.depths 5 2) ∧
    after (exec (.lutResolve 0) demo) State.result = some (.depths 0 0) := ⟨rfl, rfl⟩

-- V-CH-1
theorem test_ch_setpost :
    after (exec (.chSetPost 3 7) State.reset) (fun s => (s.result, (s.channels.map Channel.pair).take 5)) =
      some (.flag true, [(0, 0), (0, 0), (0, 0), (3, 2), (0, 0)]) := by rfl

theorem test_ch_getpost :
    after (exec (.chGetPost 3) demo) State.result = some (.checkedByte (some 6)) ∧
    after (exec (.chGetPost 22) demo) State.result = some (.checkedByte none) := ⟨rfl, rfl⟩

-- R142, feed 2: the inner output 12 makes the outer mean 9
theorem test_ch_feed_chain :
    after (exec (.chFeed 0 (f32Sample 0x41400000) 20)
        (withChannel 0 ⟨avg 3 1 false 0x40C00000 0x40C00000 10,
          { avg 2 1 false 0x40C00000 0x40C00000 10 with buf := f32Sample 0x40C00000 :: List.replicate 15 resetSample }⟩))
      (fun s => (s.result, (s.channels.map Channel.outer).take 1 |>.map (fun a => (a.acc, a.lastAvg, a.lastTs)))) =
      some (.flag true, [(f32Sample 0x41900000, f32Sample 0x41100000, 20)]) := by decide +kernel

-- V-CH-3, feed 3: no inner output, the outer averager untouched
theorem test_ch_feed_stops :
    after (exec (.chFeed 0 (f32Sample 0x41F00000) 3)
        (withChannel 0 ⟨avg 2 0 true 0x41F00000 0x41700000 2, avg 0 0 false 0x41700000 0x41700000 2⟩))
      (fun s => (s.result, (s.channels.map Channel.outer).take 1)) =
      some (.flag false, [avg 0 0 false 0x41700000 0x41700000 2]) := by rfl

-- V-CH-5: -2.5 is clamped, but not for the temperature channel
theorem test_ch_last_clamp :
    after (exec (.chLast 4) (withChannel 4 ⟨resetAverager 16, avg 0 0 false 0 0xC0200000 7⟩)) State.result =
      some (.checkedSample (some (resetSample, 7))) ∧
    after (exec (.chLast 19) (withChannel 19 ⟨resetAverager 16, avg 0 0 false 0 0xC0200000 7⟩)) State.result =
      some (.checkedSample (some (f32Sample 0xC0200000, 7))) := ⟨rfl, rfl⟩

-- V-CH-6: the volume channel reads the live sum
theorem test_ch_last_volume :
    after (exec (.chLast 20) (withChannel 20 ⟨resetAverager 16, avg 2 1 true 0x40000000 0x3F800000 2⟩))
      State.result = some (.checkedSample (some (f32Sample 0x40000000, 2))) := by rfl

-- V-BANK-1
theorem test_bank_correct_majority :
    after (exec .bankCorrect
        { State.reset with
          channels := (List.replicate 22 (pairAt 3 2)).set 7 (pairAt 5 2) })
      (fun s => s.channels.map Channel.pair) = some (List.replicate 22 (3, 2)) := by decide +kernel

-- V-BANK-2: the tie goes to the pair of channel 0
theorem test_bank_correct_tie :
    after (exec .bankCorrect
        { State.reset with
          channels := List.replicate 10 (pairAt 3 2) ++ List.replicate 10 (pairAt 5 2) ++
            [pairAt 2 2, pairAt 0 0] })
      (fun s => s.channels.map Channel.pair) = some (List.replicate 21 (3, 2) ++ [(0, 0)]) := by decide +kernel

-- V-BANK-4
theorem test_bank_restart :
    after (exec .bankRestart demo) (fun s => s.channels.take 1) =
      some [⟨avg 3 0 false 0 0x40C00000 300, avg 2 0 false 0 0x40000000 300⟩] := by rfl

-- V-BANK-5
theorem test_bank_enable :
    after (exec (.bankEnableSampling true) demo) State.events = some [PortEvent.startReq] ∧
    after (exec (.bankEnableSampling false) demo) State.events = some [PortEvent.stopReq] := ⟨rfl, rfl⟩

-- V-NV-1
theorem test_loadpreset_erased :
    after (exec (.chLoadPreset 21) State.reset) (fun s => (s.result, s.mox.p10, s.opc.p10, s.channels == State.reset.channels)) =
      some (.flag true, 100, 0, true) := by rfl

-- R138: the stored bytes
theorem test_loadpreset_stored :
    after (exec (.chLoadPreset 0) demo) (fun s => (s.opc.p10, (s.channels.map Channel.pair).take 1)) =
      some (20, [(5, 2)]) := by rfl

-- V-NV-2: 255 is stored as an erased byte
theorem test_savepreset :
    after (exec (.chSavePreset 7) demo) State.nv = some [(0, 1), (16, 5), (23, 3), (48, 2), (55, 2)] ∧
    after (exec (.chSavePreset 0) { demo with opc := { demo.opc with p10 := 2550 } }) State.nv =
      some [(16, 3), (48, 2)] := ⟨rfl, rfl⟩

-- R151: the period ends at `p10 - 1`
theorem test_smp_tick :
    after (exec (.smpTick .opc) demo) (fun s => (s.result, s.opc.counter, s.opc.runTs, s.opc.go)) =
      some (.flag true, 0, 2000, true) := by rfl

-- V-SMP-6
theorem test_smp_task_bound :
    after (exec (.smpTask .mox false) demo) (fun s => (s.result, s.mox.go, s.mox.latTs, s.events)) =
      some (.flag false, false, 300, [PortEvent.handlerCall .mox true]) := by rfl

-- P3, step 5
theorem test_smp_task_unbound :
    after (exec (.smpTask .opc false) { demo with opc := { demo.opc with go := true, runTs := 20 } })
      (fun s => (s.result, s.opc.go, s.opc.latTs)) = some (.flag true, false, 20) := by rfl

-- P3, step 5, with the other Bool for the dash (log 25)
theorem test_smp_task_dash :
    exec (.smpTask .opc true) { demo with opc := { demo.opc with go := true, runTs := 20 } } =
      exec (.smpTask .opc false) { demo with opc := { demo.opc with go := true, runTs := 20 } } ∧
    decodeOp [0x31, 0x00] = .error .missingOperand := ⟨rfl, rfl⟩

-- V-SMP-4
theorem test_smp_prescaler :
    after (exec (.smpSetPre .opc 255) demo) (fun s => (s.opc.p10, s.opc.counter)) = some (2550, 0) ∧
    after (exec (.smpGetPre .mox) demo) State.result = some (.byte 10) := ⟨rfl, rfl⟩

-- V-SMP-7
theorem test_ch_setpre_floor :
    after (exec (.chSetPre 21 0) demo) (fun s => (s.result, s.mox.p10)) = some (.flag true, 100) ∧
    after (exec (.chSetPre 21 11) demo) (fun s => s.mox.p10) = some 110 ∧
    after (exec (.chSetPre 20 0) demo) (fun s => s.opc.p10) = some 0 := ⟨rfl, rfl, rfl⟩

theorem test_ch_getpre :
    after (exec (.chGetPre 20) demo) State.result = some (.checkedByte (some 1)) ∧
    after (exec (.chGetPre 22) demo) State.result = some (.checkedByte none) := ⟨rfl, rfl⟩

-- V-LNK-2: the address of another board
theorem test_lnk_rx_address :
    after (exec (.lnkRx 0x33) (withLink (linkAt .addressMsbFound 0 0) 0)) (fun s => s.link.rxState) =
      some .searching ∧
    after (exec (.lnkRx 0x32) (withLink (linkAt .addressMsbFound 0 0) 0)) (fun s => s.link.rxState) =
      some .receiving := ⟨rfl, rfl⟩

-- V-EXC-4: the timeout precedes the trailer
theorem test_lnk_rx_timeout :
    after (exec (.lnkRx 0x5D) (withLink (linkAt .receiving 1 2000) 2051))
      (fun s => (s.link.rxState, s.link.txPending)) = some (.searching, false) ∧
    after (exec (.lnkRx 0x5D) (withLink (linkAt .receiving 1 2000) 2050))
      (fun s => (s.link.rxState, reply s, s.link.txPending, s.link.ledOn)) =
      some (.searching, [0x45], true, true) := ⟨rfl, rfl⟩

-- V-LNK-16
theorem test_lnk_poll :
    after (exec .lnkPoll (withLink { resetLink with ledOn := true, ledSince := 103 } 108)) (fun s => s.link.ledOn) =
      some true ∧
    after (exec .lnkPoll (withLink { resetLink with ledOn := true, ledSince := 103 } 1001))
      (fun s => (s.link.ledOn, s.link.ledEnabled)) = some (false, false) := ⟨rfl, rfl⟩

-- V-LNK-1
theorem test_lnk_tx :
    after (exec .lnkTx demo) (fun s => (s.tx, s.link.txPending, s.link.ledSince)) =
      some ([0x28, 0x30, 0x31, 0x32, 0x45, 0x29], false, 2000) := by rfl

-- V-LNK-16
theorem test_lnk_ledenable :
    after (exec .lnkLedEnable (withLink { resetLink with ledEnabled := false } 1500))
      (fun s => (s.link.ledEnabled, s.link.ledEnableSince, s.link.ledOn)) = some (true, 1500, false) := by rfl

-- V-CMD-3, V-CMD-11
theorem test_dispatch_errors :
    after (exec (.cmdDispatch []) demo) reply = some [0x2A] ∧
    after (exec (.cmdDispatch [0x50, 0x31, 0x36, 0x5A, 0x5A]) demo) reply = some [0x2A] := ⟨rfl, rfl⟩

-- V-CMD-2, V-CMD-12
theorem test_dispatch_commands :
    after (exec (.cmdDispatch [0x45, 0x78, 0x79, 0x7A]) demo) reply = some [0x45] ∧
    after (exec (.cmdDispatch [0x50, 0x31, 0x35, 0x30, 0x33]) demo) (fun s => (reply s, s.mox.p10)) =
      some ([0x50, 0x31, 0x35], 100) := ⟨rfl, rfl⟩

-- V-CMD-1, V-CMD-27, V-CMD-28
theorem test_cmd_echo_inquiry :
    after (exec .cmdE demo) reply = some [0x45] ∧
    after (exec (.cmdI 0x31 0x35) demo) reply =
      some [0x49, 0x31, 0x35, 0x34, 0x44, 0x34, 0x46, 0x35, 0x38, 0x30, 0x30] ∧
    after (exec (.cmdI 0x31 0x34) demo) reply = some [0x2A] := ⟨rfl, rfl, rfl⟩

-- V-CMD-23, V-CMD-24, R217
theorem test_cmd_sampling :
    after (exec .cmdS demo) (fun s => (reply s, s.events)) = some ([0x53], [PortEvent.startReq]) ∧
    after (exec .cmdX demo) (fun s => (reply s, s.events)) = some ([0x58], [PortEvent.stopReq]) ∧
    after (exec .cmdX demoFails)
      (fun s => (reply s, s.events)) = some ([0x2A], []) := ⟨rfl, rfl, rfl⟩

-- V-CMD-14, V-CMD-13, V-CMD-9
theorem test_cmd_prescaler :
    after (exec (.cmdP 0x30 0x30 0x30 0x31) State.reset) (fun s => (reply s, s.opc.p10)) =
      some ([0x50, 0x30, 0x30], 10) ∧
    after (exec (.cmdQ 0x31 0x35) demo) reply = some [0x51, 0x31, 0x35, 0x30, 0x41] ∧
    after (exec (.cmdQ 0x31 0x67) demo) reply = some [0x2A] := ⟨rfl, rfl, rfl⟩

-- V-CMD-15, V-CMD-16, V-CMD-18
theorem test_cmd_postscaler :
    after (exec (.cmdO 0x30 0x33 0x30 0x37) State.reset) (fun s => (reply s, (s.channels.map Channel.pair).drop 3 |>.take 1)) =
      some ([0x4F, 0x30, 0x33], [(3, 2)]) ∧
    after (exec (.cmdN 0x30 0x33) demo) reply = some [0x4E, 0x30, 0x33, 0x30, 0x36] ∧
    after (exec (.cmdO 0x46 0x46 0x30 0x36) demo) reply = some [0x2A] := ⟨rfl, rfl, rfl⟩

-- V-CMD-21, V-CMD-20
theorem test_cmd_last :
    after (exec (.cmdG 0x31 0x34) (withChannel 20 ⟨resetAverager 16, avg 0 0 false 0x40800000 0 2⟩)) reply =
      some [0x47, 0x31, 0x34, 0x30, 0x30, 0x30, 0x34, 0x30, 0x30, 0x30, 0x30, 0x30, 0x30, 0x30, 0x32] ∧
    after (exec (.cmdY 0x31 0x33) (withChannel 19 ⟨resetAverager 16, avg 0 0 false 0 0xC0200000 7⟩)) reply =
      some [0x59, 0x31, 0x33, 0x43, 0x30, 0x32, 0x30, 0x30, 0x30, 0x30, 0x30,
        0x30, 0x30, 0x30, 0x30, 0x30, 0x30, 0x30, 0x37] := ⟨rfl, rfl⟩

-- V-CMD-26, V-CMD-25
theorem test_cmd_presets :
    after (exec (.cmdL 0x31 0x35) State.reset) (fun s => (reply s, s.mox.p10)) =
      some ([0x4C, 0x31, 0x35], 100) ∧
    after (exec (.cmdW 0x30 0x37) State.reset) (fun s => (reply s, s.nv)) =
      some ([0x57, 0x30, 0x37], [(0, 0), (23, 0), (55, 0)]) := ⟨rfl, rfl⟩

-- R88, R215
theorem test_error_reply :
    after (exec .errorReply demo) (fun s => (reply s, s.link.txPending)) = some ([0x2A], true) := by rfl

-- R4, R67: the presented operation runs; U1: an ill-formed configuration is refused
theorem test_step :
    after (step (State.reset.withFetchWord 8 0x01)) (fun s => (s.ticks, s.inbox)) = some (1, []) ∧
    after (step { State.reset with cfg := { cfg0 with lut := [] } }) State.ticks = none := ⟨rfl, rfl⟩

/-! ### Witnesses: states and operands that meet the hypotheses of the statements -/

/-- An exact arithmetic over the rationals. -/
def exactRat : SampleArith ℚ where
  szero := 0
  sadd := fun a b => a + b
  ssub := fun a b => a - b
  sdivn := fun a n => a / n
  slt0 := fun a => decide (a < 0)
  trunc16 := fun _ => 0
  bits32 := fun _ => 0

theorem exactRat_exact : ExactArith exactRat id :=
  ⟨rfl, fun _ _ => rfl, fun _ _ => rfl, fun _ _ _ _ => rfl⟩

/-- An averager of capacity 4 over the rationals. -/
def avgRat : Averager ℚ where
  depth := 0
  buf := [0, 0, 0, 0]
  acc := 0
  cursor := 0
  consolidated := false
  lastAvg := 0
  lastTs := 0

theorem witness_OperationRequestHasOneReading :
    decodeOp [0x31, 0x01, 0x00] = .ok (.smpTask .mox false) := rfl

theorem witness_PayloadDecodesByTable :
    [0x31, 0x35, 0x30, 0x33].length = 2 * CmdId.P.params ∧ ([] : List Byte).length = 2 * CmdId.E.params ∧
    (∀ cmd ∈ cmdTable, cmd.byte ≠ 0x65#8) ∧ [0x31].length < 2 * CmdId.Q.params := by decide

theorem witness_HexDigitsInAndOut :
    (∀ b : Byte, b = 0x30 ∨ b = 0x39 → 0x30 ≤ b.toNat ∧ b.toNat ≤ 0x39) ∧
    (∀ b : Byte, b = 0x41 ∨ b = 0x46 → 0x41 ≤ b.toNat ∧ b.toNat ≤ 0x46) ∧
    (∀ b : Byte, b = 0x61 ∨ b = 0x66 → 0x61 ≤ b.toNat ∧ b.toNat ≤ 0x66) ∧
    (0x2F#8).toNat < 0x30 ∧ 0x39 < (0x3A#8).toNat ∧ (0x40#8).toNat < 0x41 ∧ 0x46 < (0x47#8).toNat ∧
    (0x60#8).toNat < 0x61 ∧ 0x66 < (0x67#8).toNat ∧ (9#4).toNat < 10 ∧ 10 ≤ (10#4).toNat ∧
    hex8 0xA5 = [0x41, 0x35] := by decide

-- R85: the most significant byte first
theorem test_hex_order :
    hex16 0x12AB = [0x31, 0x32, 0x41, 0x42] ∧
    hex32 0x012389EF = [0x30, 0x31, 0x32, 0x33, 0x38, 0x39, 0x45, 0x46] := by decide

theorem witness_AvgInitClears : demo.averager? ⟨21, .outer⟩ = some (avg 2 0 false 0 0 0) := rfl

theorem witness_AvgSetDepthClearsOrFails :
    demo.averager? ⟨21, .outer⟩ = some (avg 2 0 false 0 0 0) ∧
    (avg 2 0 false 0 0 0).cap ≤ (16#8).toNat ∧ (15#8).toNat < (avg 2 0 false 0 0 0).cap :=
  ⟨rfl, by decide, by decide⟩

/-- The four cases: pass-through, the cursor wraps, the first fill, no output. -/
theorem witness_AvgCollectFourCases :
    sampleLegal State.reset.cfg (f32Sample 0x40C00000) = true ∧
    State.reset.averager? ⟨0, .inner⟩ = some (resetAverager 16) ∧
    (resetAverager 16).buf[(resetAverager 16).cursor.toNat]? = some resetSample ∧
    demo.averager? ⟨1, .inner⟩ = some (avg 15 14 false 0 0 0) ∧
    (avg 15 14 false 0 0 0).buf[14]? = some resetSample ∧ (14 + 1) % 15 = 0 ∧
    demo.averager? ⟨2, .inner⟩ = some (avg 3 0 false 0 0 0) ∧
    (avg 3 0 false 0 0 0).buf[0]? = some resetSample ∧ (0 + 1) % 3 ≠ 0 ∧
    demo.averager? ⟨0, .inner⟩ = some (avg 3 1 true 0x41D80000 0x40C00000 300) ∧
    (avg 3 1 true 0x41D80000 0x40C00000 300).buf[1]? = some resetSample ∧ (1 + 1) % 3 ≠ 0 :=
  ⟨rfl, rfl, rfl, rfl, rfl, rfl, rfl, rfl, by decide, rfl, rfl, by decide⟩

theorem witness_AvgAccessorsReturnRegisters :
    demo.averager? ⟨0, .outer⟩ = some (avg 2 0 false 0 0x40000000 300) := rfl

theorem witness_OperandsOutsideBankRefused :
    demo.Inv ∧ demo.cfg.nch ≤ (22#8).toNat ∧ (21#8).toNat < demo.cfg.nch ∧
    sampleLegal demo.cfg [0, 0, 0] = false := ⟨demo_inv, by decide, by decide, rfl⟩

theorem witness_AveragerCadence :
    (0#8).toNat < avgRat.cap ∧ (3#8).toNat < avgRat.cap ∧ (15#8).toNat < (resetAverager 16).cap := by decide

theorem witness_AveragerWindowSum :
    ExactArith exactRat id ∧ 1 ≤ (1#8).toNat ∧ (3#8).toNat < avgRat.cap :=
  ⟨exactRat_exact, by decide, by decide⟩

/-- Two samples at depth 3 for the first clause; three for the second, where it begins to hold. -/
theorem witness_AveragerLatchedOutput :
    ExactArith exactRat id ∧ 1 ≤ (3#8).toNat ∧ (3#8).toNat < avgRat.cap ∧
    ([(3, 100), (6, 200)] : List (ℚ × U32)).length < (3#8).toNat ∧
    ([(3, 100), (6, 200)] : List (ℚ × U32)).getLast? = some (6, 200) ∧
    (3#8).toNat ≤ ([(3, 100), (6, 200), (9, 300)] : List (ℚ × U32)).length :=
  ⟨exactRat_exact, by decide, by decide, by decide, rfl, by decide⟩

theorem witness_NaNPoisonsAccumulator :
    ∃ p b, cfg0.arith = .b32 ∧ (avg 2 1 false 0x7FC00000 0 0).depth ≠ 0 ∧
      (avg 2 1 false 0x7FC00000 0 0).buf[1]? = some resetSample ∧
      fIsNaN (sampleF32 (avg 2 1 false 0x7FC00000 0 0).acc) = true ∧
      (avg 2 1 false 0x7FC00000 0 0).collect (sampleArith cfg0) resetSample 0 = some (p, b) :=
  ⟨_, _, rfl, by decide, rfl, rfl, rfl⟩

theorem witness_B32ExactOnSmallHalves :
    (2097151 : Int).natAbs < 2 ^ 21 ∧ (-2097151 : Int).natAbs < 2 ^ 21 ∧
    ((1048576 : Int) + 1048575).natAbs < 2 ^ 21 ∧ ((1048576 : Int) - (-1048575)).natAbs < 2 ^ 21 ∧
    ((-8224 : Int) * (255 : Nat)).natAbs < 2 ^ 21 := by decide

theorem witness_LutResolveSelectsClosest : demo.cfg.WF := demo_inv.config

theorem witness_ResolutionLaws :
    cfg0.WF ∧ (19#8).toNat ≤ (20#8).toNat ∧ (∃ e ∈ cfg0.lut, e.factor.toNat ≤ (1#8).toNat) ∧
    demo.Inv ∧ demo.cfg = cfg0 ∧ (21#8).toNat < cfg0.nch :=
  ⟨demo_inv.config, by decide, by decide, demo_inv, rfl, by decide⟩

theorem witness_ChSetPostSetsBothDepths :
    demo.Inv ∧ demo.cfg.nch ≤ (22#8).toNat ∧ (21#8).toNat < demo.cfg.nch ∧
    exec (.lutResolve 7) demo = .next { demo with result := .depths 3 2 } :=
  ⟨demo_inv, by decide, by decide, rfl⟩

theorem witness_ChGetPostReportsProduct :
    demo.Inv ∧ demo.cfg.nch ≤ (22#8).toNat ∧
    demo.averager? ⟨21, .inner⟩ = some (avg 3 0 false 0 0 0) ∧
    demo.averager? ⟨21, .outer⟩ = some (avg 2 0 false 0 0 0) := ⟨demo_inv, by decide, rfl, rfl⟩

theorem witness_ChFeedChainsOnOutput :
    demo.Inv ∧ (21#8).toNat < demo.cfg.nch ∧ sampleLegal demo.cfg (f32Sample 0xC0200000) = true :=
  ⟨demo_inv, by decide, rfl⟩

theorem witness_ChLastReadsOuterStage :
    demo.Inv ∧ demo.cfg.nch ≤ (22#8).toNat ∧
    demo.averager? ⟨20, .outer⟩ = some (avg 2 0 false 0 0 0) := ⟨demo_inv, by decide, rfl⟩

theorem witness_PairCadence :
    (15#8).toNat < (pairAt 3 2).inner.cap ∧ (0#8).toNat < (pairAt 3 2).outer.cap := by decide

theorem witness_BankCorrectImposesMajority :
    demo.Inv ∧ (demo.channels.take demo.cfg.partition)[20]? = some (pairAt 3 2) ∧
    demo.cfg.partition ≤ 21 ∧ (demo.channels.map Channel.pair)[0]? ≠ (demo.channels.map Channel.pair)[1]? :=
  ⟨demo_inv, rfl, by decide, by decide⟩

theorem witness_BankRestartClearsAll : demo.Inv := demo_inv

theorem witness_EnableSamplingRequests :
    demo.Inv ∧ demo.ports.samplingEnabled = false ∧
    State.Inv { demo with ports := { demo.ports with samplingEnabled := true } } :=
  ⟨demo_inv, rfl, State.inv_of_check rfl⟩

theorem witness_LoadPresetSetsFromStore :
    demo.Inv ∧ demo.cfg.nch ≤ (22#8).toNat ∧ (21#8).toNat < demo.cfg.nch := ⟨demo_inv, by decide, by decide⟩

theorem witness_SavePresetWritesThreeBytes :
    demo.Inv ∧ demo.cfg.nch ≤ (22#8).toNat ∧
    demo.averager? ⟨21, .inner⟩ = some (avg 3 0 false 0 0 0) ∧
    demo.averager? ⟨21, .outer⟩ = some (avg 2 0 false 0 0 0) := ⟨demo_inv, by decide, rfl, rfl⟩

/-- A MOX channel at the minimum. -/
theorem witness_PresetRoundTrip :
    demo.Inv ∧ demo.averager? ⟨21, .inner⟩ = some (avg 3 0 false 0 0 0) ∧
    demo.averager? ⟨21, .outer⟩ = some (avg 2 0 false 0 0 0) ∧ sensorOf demo.cfg 21 = .mox ∧
    (demo.sampler .mox).p10.toNat / 10 ≠ 255 ∧
    demo.cfg.moxMinPrescaler.toNat ≤ (demo.sampler .mox).p10.toNat / 10 :=
  ⟨demo_inv, rfl, rfl, rfl, by decide, by decide⟩

theorem witness_SmpTaskReadsAndClearsGo :
    (demo.sampler .opc).bound = false ∧ (demo.sampler .mox).bound = true := ⟨rfl, rfl⟩

theorem witness_SmpPrescalerTimesTen : ∃ t, exec (.smpSetPre .opc 255) demo = .next t := ⟨_, rfl⟩

theorem witness_ChannelPrescalerFloorsMox :
    demo.Inv ∧ demo.cfg.nch ≤ (22#8).toNat ∧ (20#8).toNat < demo.cfg.partition ∧
    demo.cfg.partition ≤ (21#8).toNat ∧ (21#8).toNat < demo.cfg.nch :=
  ⟨demo_inv, by decide, by decide, by decide, by decide⟩

theorem witness_SamplerPeriodIsTenE : 1 ≤ (1#8).toNat := by decide

theorem witness_ExpiredFrameDropped :
    (0x5D#8) ≠ 0x5B ∧ (withLink (linkAt .receiving 1 2000) 2051).link.rxState ≠ .searching ∧
    cfg0.frameTimeout < ((2051 : U32) - 2000).toNat := by decide

/-- One state for each phase, at the last tick before the frame expires. -/
theorem witness_FrameHeaderPhases :
    (0x30#8) ≠ 0x5B ∧ ((2050 : U32) - 2000).toNat ≤ cfg0.frameTimeout ∧
    (linkAt .searching 0 2000).rxState = .searching ∧
    (linkAt .headerFound 0 2000).rxState = .headerFound ∧ (0x30#8) = cfg0.protoVersion ∧
    (0x31#8) ≠ cfg0.protoVersion ∧
    (linkAt .versionFound 0 2000).rxState = .versionFound ∧ hexVal cfg0 0x31 = some 1 ∧
    hexVal cfg0 0x47 = none ∧
    (linkAt .addressMsbFound 0 2000).rxState = .addressMsbFound ∧
    (linkAt .addressMsbFound 0 2000).addrMsb ++ (2#4) = State.reset.boardId ∧
    (linkAt .addressMsbFound 0 2000).addrMsb ++ (3#4) ≠ State.reset.boardId := by decide

/-- A full buffer for the first clause, one byte short of full for the second. -/
theorem witness_PayloadByteStoredOrOverflow :
    State.Inv (withLink (linkAt .receiving 16 2000) 2050) ∧
    State.Inv (withLink (linkAt .receiving 15 2000) 2050) ∧ (0x41#8) ≠ 0x5B ∧ (0x41#8) ≠ 0x5D ∧
    (linkAt .receiving 16 2000).rxState = .receiving ∧
    ((2050 : U32) - 2000).toNat ≤ cfg0.frameTimeout :=
  ⟨State.inv_of_check rfl, State.inv_of_check rfl, by decide, by decide, rfl, by decide⟩

theorem witness_TrailerCommitsPayload :
    State.Inv (withLink (linkAt .receiving 16 2000) 2050) ∧
    (linkAt .receiving 16 2000).rxState = .receiving ∧
    ((2050 : U32) - 2000).toNat ≤ cfg0.frameTimeout :=
  ⟨State.inv_of_check rfl, rfl, by decide⟩

theorem witness_TxSendsPendingReply :
    demo.Inv ∧ demo.link.rxState = .searching ∧ demo.link.txPending = true ∧
    State.Inv { demo with link := { linkAt .receiving 1 0 with txPending := true } } :=
  ⟨demo_inv, rfl, rfl, State.inv_of_check rfl⟩

theorem witness_EchoFrameIsAnswered : demo.Inv ∧ demo.link.rxState = .searching := ⟨demo_inv, rfl⟩

theorem witness_OtherBoardsFrameIgnored :
    demo.cfg.WF ∧ (0x13#8) ≠ demo.boardId ∧ 0x5B#8 ∉ [0x58, 0x59, 0x5A, 0x5D#8] :=
  ⟨demo_inv.config, by decide, by decide⟩

theorem witness_DispatchLeavesOneReply : demo.Inv := demo_inv

/-- One payload for each way. -/
theorem witness_RejectedPayloadOnlyErrorReply :
    demo.cfg.WF ∧ (∀ cmd ∈ cmdTable, cmd.byte ≠ 0x5A#8) ∧ [0x31#8, 0x35].length < 2 * CmdId.P.params ∧
    (2 * CmdId.P.params ≤ [0x31#8, 0x36, 0x5A, 0x5A].length ∧ 1 < CmdId.P.params ∧
      hexByte demo.cfg 0x5A 0x5A = none) ∧
    (1 ≤ CmdId.Q.params ∧ hexByte demo.cfg 0x31 0x36 = some 22 ∧ demo.cfg.nch ≤ (22#8).toNat) :=
  ⟨demo_inv.config, by decide, by decide, by decide, by decide⟩

theorem witness_ReadCommandsReply :
    demo.Inv ∧ hexByte demo.cfg 0x31 0x35 = some 21 ∧ (21#8).toNat < demo.cfg.nch ∧
    demo.ports.driverFails = false ∧ hexByte demo.cfg 0x31 0x36 = some 22 ∧
    demo.cfg.nch ≤ (22#8).toNat ∧
    demoFails.Inv ∧ hexByte demoFails.cfg 0x31 0x35 = some 21 ∧ demoFails.ports.driverFails = true :=
  ⟨demo_inv, by decide, by decide, rfl, by decide, by decide, demoFails_inv, by decide, rfl⟩

theorem witness_WriteCommandsActAndReply :
    demo.Inv ∧ hexByte demo.cfg 0x31 0x35 = some 21 ∧ hexByte demo.cfg 0x30 0x33 = some 3 ∧
    (21#8).toNat < demo.cfg.nch ∧ demo.ports.driverFails = false ∧
    hexByte demo.cfg 0x31 0x36 = some 22 ∧ demo.cfg.nch ≤ (22#8).toNat ∧
    demoFails.Inv ∧ hexByte demoFails.cfg 0x31 0x35 = some 21 ∧
    hexByte demoFails.cfg 0x30 0x33 = some 3 ∧ demoFails.ports.driverFails = true :=
  ⟨demo_inv, by decide, by decide, by decide, rfl, by decide, by decide, demoFails_inv, by decide,
    by decide, rfl⟩

theorem witness_SamplingCommandsActAndReply :
    demo.Inv ∧ demo.ports.driverFails = false ∧ demoFails.Inv ∧ demoFails.ports.driverFails = true :=
  ⟨demo_inv, rfl, demoFails_inv, rfl⟩

/-- A name of seven bytes just fits, one of eight does not, and channel 20 has none. -/
theorem witness_InquiryRepliesWithName :
    demo.cfg.WF ∧ hexByte demo.cfg 0x31 0x35 = some 21 ∧ (21#8).toNat < demo.cfg.nch ∧
    State.sensorName { demo with ports := { demo.ports with
      sensorNames := List.replicate 21 none ++ [some (List.replicate 7 0x41)] } } 21 =
      some (List.replicate 7 0x41) ∧
    5 + 2 * (List.replicate 7 (0x41 : Byte)).length ≤ demo.cfg.txBufSize ∧
    State.sensorName { demo with ports := { demo.ports with
      sensorNames := List.replicate 21 none ++ [some (List.replicate 8 0x41)] } } 21 =
      some (List.replicate 8 0x41) ∧
    demo.cfg.txBufSize < 5 + 2 * (List.replicate 8 (0x41 : Byte)).length ∧
    demo.sensorName 20 = none ∧ demo.cfg.nch ≤ (22#8).toNat :=
  ⟨demo_inv.config, by decide, by decide, rfl, by decide, rfl, by decide, rfl, by decide⟩

theorem witness_StepRunsPresentedOperation :
    demo.cfg.WF ∧ decodeAt .operation [0x01] = .ok .sysTickIrq ∧
    decodeAt .operation [0x02] = .error (.unknownCode 2) ∧ demo.inbox = [] ∧
    (demo.withFetchWord 8 0x01).inbox = [Stimulus.request .operation [0x01]] :=
  ⟨demo_inv.config, rfl, rfl, rfl, rfl⟩

theorem witness_StepKeepsInvariant :
    ∃ t, State.Inv (demo.withFetchWord 8 0x01) ∧ step (demo.withFetchWord 8 0x01) = .next t :=
  ⟨_, State.inv_of_check rfl, rfl⟩

theorem witness_NothingHaltsTheBlock :
    demo.Inv ∧ (Instr.chFeed 21 (f32Sample 0xC0200000) 0).wellFormed demo.cfg = true := ⟨demo_inv, by decide⟩

theorem witness_WritersOfSharedState :
    ∃ t, exec (.lnkRx 0x5D) (withLink (linkAt .receiving 1 0) 0) = .next t ∧
      (withLink (linkAt .receiving 1 0) 0).link.rxBuf.head? ≠ some 0x57 := ⟨_, rfl, by decide⟩

theorem witness_StoreReadsBackWrites :
    Memory.wf [(0, 2), (16, 5)] ∧ (17 : Nat) ≠ 16 := by decide

theorem witness_ResetStateHoldsTable :
    State.reset.channels[21]? = some ⟨resetAverager 16, resetAverager 16⟩ := rfl

/-- The least negative number, a NaN, -0, and the largest number below 65536, beside 65536 itself. -/
theorem witness_B32ComparesTruncatesExposesBits :
    cfg0.arith = .b32 ∧ fExp 0x80000001 ≠ 255 ∧ fValue 0x80000001 < 0 ∧ fIsNaN 0xFFC00000 = true ∧
    fExp 0x80000000 ≠ 255 ∧ 0 ≤ fValue 0x80000000 ∧ fExp 0x477FFFFF ≠ 255 ∧
    fValue 0x477FFFFF < 65536 * 2 ^ 149 ∧ ¬ fValue 0x47800000 < 65536 * 2 ^ 149 := by decide +kernel

/-- A name of seven bytes just fits, one of eight does not, and neither does a channel outside the
bank. -/
theorem witness_StepMovesInputs :
    ¬ ({ cfg0 with lut := [] } : Config).WF ∧ demo.cfg.WF ∧ demo.nv.wf ∧
    State.inbox { demo with inbox := [.setAddressPins 0x34] } = [.setAddressPins 0x34] ∧
    5 + 2 * (List.replicate 7 (0x41 : Byte)).length ≤ demo.cfg.txBufSize ∧
    ¬ 5 + 2 * (List.replicate 8 (0x41 : Byte)).length ≤ demo.cfg.txBufSize ∧
    (21#8).toNat < demo.cfg.nch ∧ ¬ (22#8).toNat < demo.cfg.nch :=
  ⟨by decide, demo_inv.config, demo_inv.store, rfl, by decide, by decide, by decide, by decide⟩

-- R34, R36: the pins are taken at reset only
theorem test_step_pins :
    after (step { demo with inbox := [.setAddressPins 0x34] }) (fun s => (s.boardId, s.ports.addressPins)) =
      some (0x12, 0x34) := by rfl

theorem witness_SysResetInitialises : demo.Inv := demo_inv

end Sys2Proof.Tests
end

section
/-! SUPPORT. The averager operations at the operation port (spec/40_averager.md R111 to R116): what
each one answers for an averager of the bank, and the obligations about them. -/

namespace Sys2Proof.Machine

/-! ### A cursor that names a slot is all that collecting needs (R63) -/

theorem Averager.collect_some_of_slot {S : Type} (A : SampleArith S) {a : Averager S} {old : S}
    (ho : a.buf[a.cursor.toNat]? = some old) (v : S) (ts : U32) :
    ∃ p b, a.collect A v ts = some (p, b) := by
  by_cases hd : a.depth = 0
  · exact ⟨_, _, collect_pass A hd v ts⟩
  by_cases hk : nextCursor a = 0
  · exact ⟨_, _, collect_wrap A hd ho hk v ts⟩
  cases hc : a.consolidated with
  | false => exact ⟨_, _, collect_fill A hd ho hk hc v ts⟩
  | true => exact ⟨_, _, collect_quiet A hd ho hk hc v ts⟩

variable {s : State} {a : AvgRef} {x : Averager Sample}

/-! ### What each operation answers for an averager of the bank -/

theorem exec_avgSetDepth (hx : s.averager? a = some x) (d : Byte) :
    exec (.avgSetDepth a d) s = .next
      { s.setAverager a (x.setDepth (sampleArith s.cfg).szero d).2 with
        result := .flag (x.setDepth (sampleArith s.cfg).szero d).1 } := by
  simp [exec, execAvgSetDepth, hx, State.answer_eq]

theorem exec_avgCollect_of_collect (hx : s.averager? a = some x) {v : Sample}
    (hv : sampleLegal s.cfg v = true) {ts : U32} {p : Bool} {y : Averager Sample}
    (hy : x.collect (sampleArith s.cfg) v ts = some (p, y)) :
    exec (.avgCollect a v ts) s = .next { s.setAverager a y with result := .flag p } := by
  simp [exec, execAvgCollect, hx, hv, hy, State.answer_eq]

theorem exec_avgLastAvg (hx : s.averager? a = some x) :
    exec (.avgLastAvg a) s = .next { s with result := .sample x.lastAvg } := by
  simp [exec, execAvgLastAvg, hx, State.answer_eq]

theorem exec_avgLastCum (hx : s.averager? a = some x) :
    exec (.avgLastCum a) s = .next { s with result := .sample x.acc } := by
  simp [exec, execAvgLastCum, hx, State.answer_eq]

theorem exec_avgLastTs (hx : s.averager? a = some x) :
    exec (.avgLastTs a) s = .next { s with result := .time x.lastTs } := by
  simp [exec, execAvgLastTs, hx, State.answer_eq]

theorem exec_avgGetDepth (hx : s.averager? a = some x) :
    exec (.avgGetDepth a) s = .next { s with result := .byte x.depth } := by
  simp [exec, execAvgGetDepth, hx, State.answer_eq]

/-! ### The obligations -/

/-- Settles O7: a depth not below the capacity puts the averager back unchanged. -/
theorem avgSetDepthClearsOrFails : Obligations.AvgSetDepthClearsOrFails := by
  intro s a x d hx
  have hexec := exec_avgSetDepth hx d
  refine ⟨fun hd => ?_, fun hd => ?_⟩
  · rw [hexec, Averager.setDepth_of_le _ hd, State.setAverager_self hx]
  · rw [Averager.setDepth_of_lt _ hd] at hexec
    exact ⟨_, hexec, State.onlyAverager_setAverager hx _ _⟩

/-- Settles O8: the operation puts back what `Averager.collect` makes of the averager, and each case
of R112 is one of the four equations about `collect`. -/
theorem avgCollectFourCases : Obligations.AvgCollectFourCases := by
  intro s a x v ts old hx hv ho
  obtain ⟨p, y, hy⟩ := Averager.collect_some_of_slot (sampleArith s.cfg) ho v ts
  have hput {q : Bool} {z : Averager Sample} (hz : x.collect (sampleArith s.cfg) v ts = some (q, z)) :
      OnlyAverager s { s.setAverager a y with result := .flag p } a z (.flag q) := by
    obtain ⟨rfl, rfl⟩ : p = q ∧ y = z := by simpa using hy.symm.trans hz
    exact State.onlyAverager_setAverager hx y _
  exact ⟨_, exec_avgCollect_of_collect hx hv hy,
    fun hd => hput (Averager.collect_pass _ hd v ts),
    fun hd hk => hput (Averager.collect_wrap _ hd ho hk v ts),
    fun hd hk hc => hput (Averager.collect_fill _ hd ho hk hc v ts),
    fun hd hk hc => hput (Averager.collect_quiet _ hd ho hk hc v ts)⟩

/-- Settles O9: each accessor answers the register it names (R113 to R116). -/
theorem avgAccessorsReturnRegisters : Obligations.AvgAccessorsReturnRegisters :=
  fun _ _ _ hx => ⟨exec_avgLastAvg hx, exec_avgLastCum hx, exec_avgLastTs hx, exec_avgGetDepth hx⟩

end Sys2Proof.Machine
end

section
/-! SUPPORT. A channel and its two averagers: what the operands of a channel name, and what it is to
put back the inner and then the outer averager (spec/41_channel_postscaler.md R131, R133, R138). -/

namespace Sys2Proof.Machine

variable {s : State} {c : Byte} {ch : Channel}

theorem State.channel?_eq_none (h : s.cfg.nch ≤ c.toNat) : s.channel? c = none :=
  if_neg (Nat.not_lt.2 h)

theorem State.averager?_of_channel (h : s.channel? c = some ch) (st : Stage) :
    s.averager? ⟨c, st⟩ = some (ch.stage st) :=
  State.averager?_eq_some.2 ⟨ch, h, rfl⟩

/-- Two operands of one channel name the two averagers of its pair (R25). -/
theorem State.channel?_of_averagers {i o : Averager Sample} (hi : s.averager? ⟨c, .inner⟩ = some i)
    (ho : s.averager? ⟨c, .outer⟩ = some o) : s.channel? c = some ⟨i, o⟩ := by
  obtain ⟨ch, hch, rfl⟩ := State.averager?_eq_some.1 hi
  obtain ⟨ch', hch', rfl⟩ := State.averager?_eq_some.1 ho
  obtain rfl : ch = ch' := by simpa using hch.symm.trans hch'
  exact hch

/-- Changing the inner averager leaves the outer one to be found. -/
theorem State.averager?_outer_setAverager_inner (h : s.channel? c = some ch) (i : Averager Sample)
    (r : OpResult) :
    State.averager? { s.setAverager ⟨c, .inner⟩ i with result := r } ⟨c, .outer⟩ = some ch.outer :=
  ((State.onlyAverager_setAverager (State.averager?_of_channel h .inner) i r).others ⟨c, .outer⟩
    (by simp)).trans (State.averager?_of_channel h .outer)

/-- Putting back both averagers, one after the other, puts back the channel. -/
theorem State.setAverager_outer_inner (h : s.channel? c = some ch) (i o : Averager Sample)
    (r : OpResult) :
    State.setAverager { s.setAverager ⟨c, .inner⟩ i with result := r } ⟨c, .outer⟩ o =
      { s.setChannel c ⟨i, o⟩ with result := r } := by
  rw [State.setAverager_eq (a := ⟨c, .inner⟩) h]
  have hmid : State.channel? { s.setChannel c (ch.setStage .inner i) with result := r } c =
      some (ch.setStage .inner i) := State.channel?_setChannel h _
  rw [State.setAverager_eq (a := ⟨c, .outer⟩) hmid]
  simp [State.setChannel, Channel.setStage]

/-- The two changes of depth of a channel, whatever they answer (R131, R138). -/
theorem exec_avgSetDepth_inner_outer (h : s.channel? c = some ch) (i o : Byte) :
    ∃ t, exec (.avgSetDepth ⟨c, .inner⟩ i) s = .next t ∧
      t.result = .flag (ch.inner.setDepth (sampleArith s.cfg).szero i).1 ∧
      exec (.avgSetDepth ⟨c, .outer⟩ o) t = .next
        { s.setChannel c (ch.setDepths (sampleArith s.cfg).szero (i, o)) with
          result := .flag (ch.outer.setDepth (sampleArith s.cfg).szero o).1 } := by
  refine ⟨_, exec_avgSetDepth (State.averager?_of_channel h .inner) i, rfl, ?_⟩
  rw [exec_avgSetDepth (State.averager?_outer_setAverager_inner h _ _) o,
    State.setAverager_outer_inner h]
  simp [Channel.setDepths, Channel.stage]

end Sys2Proof.Machine
end

section
/-! SUPPORT. The postscaler table (spec/41_channel_postscaler.md R130, R140): which entry is
selected, and that it is the only one. -/

namespace Sys2Proof.Machine

/-- The factors of a table rise strictly (R6(b)). -/
abbrev LutAscending (lut : List LutEntry) : Prop :=
  lut.Pairwise (fun e e' => e.factor.toNat < e'.factor.toNat)

/-- The entry R130 chooses for a request: the one of greatest factor not exceeding it, or the first
one when every factor exceeds it. -/
def ClosestEntry (lut : List LutEntry) (req : Byte) (e : LutEntry) : Prop :=
  (e.factor.toNat ≤ req.toNat ∧
    ∀ e' ∈ lut, e'.factor.toNat ≤ req.toNat → e'.factor.toNat ≤ e.factor.toNat) ∨
  ((∀ e' ∈ lut, req.toNat < e'.factor.toNat) ∧ lut.head? = some e)

variable {lut : List LutEntry} {e e' : LutEntry} {req : Byte}

theorem LutAscending.head_le (h : LutAscending lut) (he : lut.head? = some e) (he' : e' ∈ lut) :
    e.factor.toNat ≤ e'.factor.toNat := by
  obtain ⟨tail, rfl⟩ := List.head?_eq_some_iff.1 he
  rcases List.mem_cons.1 he' with rfl | htail
  · exact Nat.le_refl _
  · exact Nat.le_of_lt (List.rel_of_pairwise_cons h htail)

theorem LutAscending.eq_of_factor_eq (h : LutAscending lut) (he : e ∈ lut) (he' : e' ∈ lut)
    (heq : e.factor.toNat = e'.factor.toNat) : e = e' := by
  have hnodup : (lut.map fun a => a.factor.toNat).Nodup :=
    List.pairwise_map.2 (h.imp Nat.ne_of_lt)
  exact List.inj_on_of_nodup_map hnodup he he' heq

theorem ClosestEntry.unique (h : LutAscending lut) (he : e ∈ lut) (he' : e' ∈ lut)
    (hc : ClosestEntry lut req e) (hc' : ClosestEntry lut req e') : e = e' := by
  rcases hc with ⟨hle, hmax⟩ | ⟨hall, hhead⟩ <;> rcases hc' with ⟨hle', hmax'⟩ | ⟨hall', hhead'⟩
  · exact h.eq_of_factor_eq he he' (Nat.le_antisymm (hmax' e he hle) (hmax e' he' hle'))
  · exact absurd hle (Nat.not_le.2 (hall' e he))
  · exact absurd hle' (Nat.not_le.2 (hall e' he'))
  · simpa using hhead.symm.trans hhead'

/-- `lutSelect` chooses an entry of the table, the one of R130. -/
theorem lutSelect_closest (hne : lut ≠ []) (h : LutAscending lut) (req : Byte) :
    lutSelect lut req ∈ lut ∧ ClosestEntry lut req (lutSelect lut req) := by
  unfold lutSelect
  split
  case h_1 e hlast =>
    obtain ⟨hmem, hle⟩ : e ∈ lut ∧ e.factor.toNat ≤ req.toNat := by
      simpa using List.mem_of_getLast? hlast
    refine ⟨hmem, .inl ⟨hle, fun e' he' hle' => ?_⟩⟩
    obtain ⟨front, hfront⟩ := List.getLast?_eq_some_iff.1 hlast
    have hsorted := h.filter (fun e => decide (e.factor.toNat ≤ req.toNat))
    have hin : e' ∈ front ++ [e] := hfront ▸ List.mem_filter.2 ⟨he', by simpa using hle'⟩
    rw [hfront, List.pairwise_append] at hsorted
    obtain ⟨-, -, hbelow⟩ := hsorted
    rcases List.mem_append.1 hin with hfr | hend
    · exact Nat.le_of_lt (hbelow e' hfr e (by simp))
    · exact Nat.le_of_eq (by rw [List.mem_singleton.1 hend])
  case h_2 hnone =>
    obtain ⟨first, tail, rfl⟩ := List.exists_cons_of_ne_nil hne
    have hall : ∀ e' ∈ first :: tail, req.toNat < e'.factor.toNat := by
      simpa [-List.mem_cons] using List.getLast?_eq_none_iff.1 hnone
    exact ⟨by simp, .inr ⟨hall, rfl⟩⟩

/-! ### The table of a well-formed configuration -/

variable {cfg : Config}

theorem lutAscending_of_wf (h : cfg.WF) : LutAscending cfg.lut := by
  obtain ⟨-, ⟨-, hasc, -⟩, -⟩ := h
  exact hasc

theorem lutEntryLegal_of_wf (h : cfg.WF) (he : e ∈ cfg.lut) : cfg.LutEntryLegal e := by
  obtain ⟨-, ⟨-, -, hlegal⟩, -⟩ := h
  exact hlegal e he

theorem lutSelect_closest_of_wf (h : cfg.WF) (req : Byte) :
    lutSelect cfg.lut req ∈ cfg.lut ∧ ClosestEntry cfg.lut req (lutSelect cfg.lut req) := by
  obtain ⟨-, ⟨hne, hasc, -⟩, -⟩ := h
  exact lutSelect_closest hne hasc req

end Sys2Proof.Machine
end

section
/-! SUPPORT. The channel operations (spec/41_channel_postscaler.md R130 to R134, R140): what each
one answers, and the obligations about them. -/

namespace Sys2Proof.Machine

variable {s : State} {c : Byte} {ch : Channel} {cfg : Config}

/-! ### The depths of the table fit every channel (R6(b)) -/

/-- The depths of a table entry are below the capacities of every channel of the bank. -/
theorem Channel.Inv.lutEntry_lt {k : Nat} (h : ch.Inv cfg k) (hw : cfg.WF) (hk : k < cfg.nch)
    {e : LutEntry} (he : e ∈ cfg.lut) :
    e.inner.toNat < ch.inner.cap ∧ e.outer.toNat < ch.outer.cap := by
  obtain ⟨-, -, hfits⟩ := lutEntryLegal_of_wf hw he
  obtain ⟨⟨hlen, -⟩, -⟩ := hw
  have hmem : cfg.caps.getD k ⟨0, 0⟩ ∈ cfg.caps := by
    rw [List.getD_eq_getElem _ _ (hlen ▸ hk)]; exact List.getElem_mem _
  rw [h.innerCap, h.outerCap]
  exact hfits _ hmem

/-- A channel that holds the depths of a table entry reports the entry's factor. -/
theorem Channel.post_of_entry (hw : cfg.WF) {e : LutEntry} (he : e ∈ cfg.lut)
    (hi : ch.inner.depth = e.inner) (ho : ch.outer.depth = e.outer) : ch.post = e.factor := by
  obtain ⟨-, hfac, -⟩ := lutEntryLegal_of_wf hw he
  simp [Channel.post, depthFactor, hi, ho, ← hfac]

/-! ### What each operation answers -/

theorem exec_lutResolve (req : Byte) (s : State) :
    exec (.lutResolve req) s = .next { s with
      result := .depths (lutSelect s.cfg.lut req).inner (lutSelect s.cfg.lut req).outer } := rfl

theorem exec_chGetPost (h : s.channel? c = some ch) :
    exec (.chGetPost c) s = .next { s with result := .checkedByte (some ch.post) } := by
  simp [exec, execChGetPost, getChannelPost, h, State.answer_eq]

theorem exec_chLast (h : s.channel? c = some ch) :
    exec (.chLast c) s = .next { s with result := .checkedSample (some
      (clampReadOut s.cfg c (rawReadOut s.cfg c ch.outer), ch.outer.lastTs)) } := by
  simp [exec, execChLast, channelLast, h, State.answer_eq]

theorem exec_chFeed_of_feed (h : s.channel? c = some ch) {v : Sample}
    (hv : sampleLegal s.cfg v = true) {ts : U32} {p : Bool} {ch' : Channel}
    (hfeed : ch.feed (sampleArith s.cfg) v ts = some (p, ch')) :
    exec (.chFeed c v ts) s = .next { s.setChannel c ch' with result := .flag p } := by
  simp [exec, execChFeed, h, hv, hfeed, State.answer_eq]

/-- Both changes of depth of `CH.SETPOST` succeed (R131). -/
theorem exec_chSetPost (hs : s.Inv) (h : s.channel? c = some ch) (req : Byte) :
    exec (.chSetPost c req) s = .next { s.setChannel c
      ⟨ch.inner.clearedTo (sampleArith s.cfg).szero (lutSelect s.cfg.lut req).inner,
        ch.outer.clearedTo (sampleArith s.cfg).szero (lutSelect s.cfg.lut req).outer⟩ with
      result := .flag true } := by
  obtain ⟨hi, ho⟩ := (hs.channel h).lutEntry_lt hs.config (State.channel?_eq_some.1 h).1
    (lutSelect_closest_of_wf hs.config req).1
  simp [exec, execChSetPost, setChannelPost, h, Averager.setDepth_of_lt, hi, ho, State.answer_eq]

/-! ### The two ways of a feed (R133) -/

theorem Channel.feed_quiet {A : SampleArith Sample} {v : Sample} {ts : U32} {i : Averager Sample}
    (hi : ch.inner.collect A v ts = some (false, i)) :
    ch.feed A v ts = some (false, { ch with inner := i }) := by simp [Channel.feed, hi]

theorem Channel.feed_output {A : SampleArith Sample} {v : Sample} {ts : U32} {p : Bool}
    {i o : Averager Sample} (hi : ch.inner.collect A v ts = some (true, i))
    (ho : ch.outer.collect A i.lastAvg i.lastTs = some (p, o)) :
    ch.feed A v ts = some (p, ⟨i, o⟩) := by simp [Channel.feed, hi, ho]

/-! ### The obligations -/

/-- Settles O16: the entry is the one `lutSelect` chooses. -/
theorem lutResolveSelectsClosest : Obligations.LutResolveSelectsClosest := by
  intro s req hw
  obtain ⟨hmem, hclosest⟩ := lutSelect_closest_of_wf hw req
  exact ⟨_, hmem, exec_lutResolve req s, hclosest⟩

/-- A larger request selects no smaller factor (R140). -/
theorem lutSelect_mono (hw : cfg.WF) {r1 r2 : Byte} (hr : r1.toNat ≤ r2.toNat) :
    (lutSelect cfg.lut r1).factor.toNat ≤ (lutSelect cfg.lut r2).factor.toNat := by
  obtain ⟨hmem1, hc1⟩ := lutSelect_closest_of_wf hw r1
  obtain ⟨hmem2, hc2⟩ := lutSelect_closest_of_wf hw r2
  rcases hc1 with ⟨hle1, -⟩ | ⟨-, hhead⟩
  · rcases hc2 with ⟨-, hmax⟩ | ⟨hall, -⟩
    · exact hmax _ hmem1 (Nat.le_trans hle1 hr)
    · exact absurd (Nat.le_trans hle1 hr) (Nat.not_le.2 (hall _ hmem1))
  · exact (lutAscending_of_wf hw).head_le hhead hmem2

/-- A factor of the table selects its own entry (R140). -/
theorem lutSelect_factor (hw : cfg.WF) {e : LutEntry} (he : e ∈ cfg.lut) :
    lutSelect cfg.lut e.factor = e := by
  obtain ⟨hmem, hclosest⟩ := lutSelect_closest_of_wf hw e.factor
  exact hclosest.unique (lutAscending_of_wf hw) hmem he (.inl ⟨Nat.le_refl _, fun _ _ hle => hle⟩)

/-- Settles O17: the laws of the table are those of the closest entry, and what `CH.SETPOST` leaves
in the channel is an entry whose factor is the product of its depths. -/
theorem resolutionLaws : Obligations.ResolutionLaws := by
  intro cfg hw
  refine ⟨fun r1 r2 => lutSelect_mono hw, fun r ⟨e, he, hle⟩ => ?_,
    fun r => lutSelect_factor hw (lutSelect_closest_of_wf hw r).1, ?_⟩
  · rcases (lutSelect_closest_of_wf hw r).2 with ⟨hle', -⟩ | ⟨hall, -⟩
    · exact hle'
    · exact absurd hle (Nat.not_le.2 (hall e he))
  · rintro s c r hs rfl hc
    obtain ⟨ch, hch⟩ := hs.channel?_some hc
    obtain ⟨t, hexec, hres, ch', hch', hi, ho⟩ : ∃ t, exec (.chSetPost c r) s = .next t ∧
        t.result = .flag true ∧ ∃ ch', t.channel? c = some ch' ∧
          ch'.inner.depth = (lutSelect s.cfg.lut r).inner ∧
          ch'.outer.depth = (lutSelect s.cfg.lut r).outer :=
      ⟨_, exec_chSetPost hs hch r, rfl, _, State.channel?_setChannel hch _, rfl, rfl⟩
    refine ⟨t, hexec, hres, ?_⟩
    rw [exec_chGetPost hch', Channel.post_of_entry hw (lutSelect_closest_of_wf hw r).1 hi ho]

/-- Settles O18: the two changes of depth put back the channel `CH.SETPOST` puts back. -/
theorem chSetPostSetsBothDepths : Obligations.ChSetPostSetsBothDepths := by
  intro s c req i o hs
  refine ⟨fun hc => ?_, fun hc hresolve => ?_⟩
  · simp [exec, execChSetPost, setChannelPost, State.channel?_eq_none hc, State.answer_eq]
  · obtain ⟨rfl, rfl⟩ :
        (lutSelect s.cfg.lut req).inner = i ∧ (lutSelect s.cfg.lut req).outer = o := by
      simpa [exec_lutResolve] using hresolve
    obtain ⟨ch, hch⟩ := hs.channel?_some hc
    obtain ⟨hi, ho⟩ := (hs.channel hch).lutEntry_lt hs.config hc
      (lutSelect_closest_of_wf hs.config req).1
    obtain ⟨t, hinner, hres, houter⟩ := exec_avgSetDepth_inner_outer hch
      (lutSelect s.cfg.lut req).inner (lutSelect s.cfg.lut req).outer
    rw [Averager.setDepth_of_lt _ hi] at hres
    rw [Averager.setDepth_of_lt _ ho, Channel.setDepths_of_lt _ hi ho] at houter
    exact ⟨t, _, hinner, hres, houter, rfl, exec_chSetPost hs hch req⟩

/-- Settles O19: the reported byte is the product carried modulo 256 (R132). -/
theorem chGetPostReportsProduct : Obligations.ChGetPostReportsProduct := by
  intro s c hs
  refine ⟨fun hc => ?_, fun i o hi ho =>
    ⟨_, exec_chGetPost (State.channel?_of_averagers hi ho), ?_⟩⟩
  · simp [exec, execChGetPost, getChannelPost, State.channel?_eq_none hc, State.answer_eq]
  · have hfactor (d : Byte) : depthFactor d = if d = 0 then 1 else d.toNat := by
      simp [depthFactor, Config.depthFactor, ← BitVec.toNat_inj]
    simp [Channel.post, hfactor]

/-- Settles O20: the inner averager answers; when it reports an output, its latched value is a
sample that the outer averager accepts. -/
theorem chFeedChainsOnOutput : Obligations.ChFeedChainsOnOutput := by
  intro s c v ts hs hc hv
  obtain ⟨ch, hch⟩ := hs.channel?_some hc
  have hinv := hs.channel hch
  have hinner := State.averager?_of_channel hch .inner
  obtain ⟨p, i, hi⟩ := hinv.inner.collect (A := sampleArith s.cfg) v ts
  refine ⟨_, exec_avgCollect_of_collect hinner hv hi, ?_⟩
  cases p with
  | false =>
    refine .inl ⟨rfl, ?_⟩
    rw [exec_chFeed_of_feed hch hv (Channel.feed_quiet hi),
      State.setAverager_eq (a := ⟨c, .inner⟩) hch]
    rfl
  | true =>
    obtain ⟨q, o, ho⟩ := hinv.outer.collect (A := sampleArith s.cfg) i.lastAvg i.lastTs
    have hlegal := (hinv.innerTyped.collect hv hi).lastAvg
    refine .inr ⟨rfl, i, _, (State.onlyAverager_setAverager hinner i _).changed,
      exec_avgCollect_of_collect (p := q) (y := o) (State.averager?_outer_setAverager_inner hch i _)
        (by simpa using hlegal) (by simpa using ho), ?_⟩
    rw [exec_chFeed_of_feed hch hv (Channel.feed_output hi ho), State.setAverager_outer_inner hch]

/-- Settles O21: outside the bank there is nothing to read; in it, the value is the outer
averager's, clamped. -/
theorem chLastReadsOuterStage : Obligations.ChLastReadsOuterStage := by
  intro s c hs
  refine ⟨fun hc => ?_, fun o ho => ?_⟩
  · simp [exec, execChLast, channelLast, State.channel?_eq_none hc, State.answer_eq]
  · obtain ⟨ch, hch, rfl⟩ := State.averager?_eq_some.1 ho
    exact ⟨_, exec_chLast hch, rfl⟩

end Sys2Proof.Machine
end

section
/-! SUPPORT. The bank operations (spec/41_channel_postscaler.md R135 to R137): which pair is the
majority, what the correction does to each channel, and the obligations about them. -/

namespace Sys2Proof.Machine

variable {chs : List Channel} {ch : Channel} {cfg : Config}

/-! ### The majority pair is the first of the most frequent ones -/

/-- A position that holds an element is not before the first one that does. -/
theorem idxOf_le_of_getElem? {α : Type} [DecidableEq α] {l : List α} {a : α} {k : Nat}
    (h : l[k]? = some a) : l.idxOf a ≤ k := by
  obtain ⟨hk, rfl⟩ := List.getElem?_eq_some_iff.1 h
  refine Nat.le_of_not_lt fun hlt => ?_
  simpa using List.not_of_lt_findIdx hlt

/-- Keeping the best so far, from the first element on, is the library's `argmax`. -/
theorem argmax_cons_eq_foldl {α : Type} (f : α → Nat) (a : α) (l : List α) :
    (a :: l).argmax f = some (l.foldl (fun best p => if f best < f p then p else best) a) :=
  List.foldl_hom some fun best p => by simp only [List.argAux]; split <;> rfl

theorem majorityPair_mem_argmax {ps : List (Byte × Byte)} (h : ps ≠ []) :
    majorityPair ps ∈ ps.argmax (fun p => ps.count p) := by
  cases ps with
  | nil => exact absurd rfl h
  | cons p rest => rw [argmax_cons_eq_foldl]; simp [majorityPair]

/-- What `argmax` gives stands at a position where nothing is better, and nothing before it is as
good. -/
theorem exists_first_of_mem_argmax {α : Type} [DecidableEq α] {f : α → Nat} {l : List α} {m : α}
    (h : m ∈ l.argmax f) :
    ∃ k, l[k]? = some m ∧
      ∀ (j : Nat) (a : α), l[j]? = some a → f a ≤ f m ∧ (f a = f m → k ≤ j) := by
  obtain ⟨hmem, hmax, hfirst⟩ := List.mem_argmax_iff.1 h
  refine ⟨l.idxOf m, List.getElem?_idxOf hmem, fun j a ha => ?_⟩
  have hin := List.mem_of_getElem? ha
  exact ⟨hmax a hin, fun heq => Nat.le_trans (hfirst a hin heq.ge) (idxOf_le_of_getElem? ha)⟩

/-- The majority pair of a list of channels, by the channel of lowest index that holds it (R135). -/
theorem exists_first_majority (h : chs ≠ []) :
    ∃ (c0 : Nat) (ch0 : Channel), chs[c0]? = some ch0 ∧
      ch0.pair = majorityPair (chs.map Channel.pair) ∧
      ∀ (c : Nat) (ch : Channel), chs[c]? = some ch →
        chs.countP (fun x => decide (x.pair = ch.pair)) ≤
          chs.countP (fun x => decide (x.pair = ch0.pair)) ∧
        (chs.countP (fun x => decide (x.pair = ch.pair)) =
          chs.countP (fun x => decide (x.pair = ch0.pair)) → c0 ≤ c) := by
  have hcount (p : Byte × Byte) :
      chs.countP (fun x => decide (x.pair = p)) = (chs.map Channel.pair).count p := by
    rw [List.count, List.countP_map]; exact List.countP_congr fun x _ => by simp
  obtain ⟨c0, hget, hbest⟩ := exists_first_of_mem_argmax
    (majorityPair_mem_argmax (ps := chs.map Channel.pair) (by simpa using h))
  rw [List.getElem?_map, Option.map_eq_some_iff] at hget
  obtain ⟨ch0, hch0, hpair⟩ := hget
  refine ⟨c0, ch0, hch0, hpair, fun c ch hc => ?_⟩
  rw [hcount, hcount, hpair]
  exact hbest c ch.pair (by simp [hc])

/-! ### The correction, channel by channel -/

variable {z : Sample} {n c : Nat}

theorem correctChannels_length (h : n ≤ chs.length) :
    (correctChannels z n chs).length = chs.length := by
  simp [correctChannels, h]

/-- A channel below the boundary keeps the majority pair or gets it. -/
theorem correctChannels_getElem?_opc (h : n ≤ chs.length) (hc : c < n) :
    (correctChannels z n chs)[c]? = chs[c]?.map (fun ch =>
      if ch.pair = majorityPair ((chs.take n).map Channel.pair) then ch
      else ch.setDepths z (majorityPair ((chs.take n).map Channel.pair))) := by
  rw [correctChannels, List.getElem?_append_left (by simpa [h] using hc), List.getElem?_map,
    List.getElem?_take_of_lt hc]

/-- A channel from the boundary on is left alone. -/
theorem correctChannels_getElem?_mox (h : n ≤ chs.length) (hc : n ≤ c) :
    (correctChannels z n chs)[c]? = chs[c]? := by
  rw [correctChannels, List.getElem?_append_right (by simpa [h] using hc), List.getElem?_drop]
  simp [h, Nat.add_sub_cancel' hc]

/-- The OPC channels have the same capacities (R6(g)). -/
theorem caps_eq_of_opc (hw : cfg.WF) {c c' : Nat} (hc : c < cfg.partition)
    (hc' : c' < cfg.partition) :
    cfg.capInner c = cfg.capInner c' ∧ cfg.capOuter c = cfg.capOuter c' := by
  obtain ⟨⟨hlen, -⟩, -, ⟨-, -, hpart, -⟩, -, -, -, hsame⟩ := hw
  have hfirst {k : Nat} (hk : k < cfg.partition) :
      cfg.caps.getD k ⟨0, 0⟩ = cfg.caps.getD 0 ⟨0, 0⟩ := by
    have hlt : k < cfg.caps.length := by omega
    refine hsame _ (List.mem_of_getElem? (i := k) ?_)
    simp [List.getElem?_take_of_lt hk, hlt]
  simp only [Config.capInner, Config.capOuter, hfirst hc, hfirst hc', and_self]

/-- A pair held by one OPC channel is accepted by every other. -/
theorem Channel.Inv.setDepths_opc {ch0 : Channel} {c0 : Nat} (h : ch.Inv cfg c)
    (h0 : ch0.Inv cfg c0) (hw : cfg.WF) (hc : c < cfg.partition) (hc0 : c0 < cfg.partition) (z : Sample) :
    ch.setDepths z ch0.pair =
      ⟨ch.inner.clearedTo z ch0.inner.depth, ch.outer.clearedTo z ch0.outer.depth⟩ := by
  obtain ⟨hi, ho⟩ := caps_eq_of_opc hw hc hc0
  apply Channel.setDepths_of_lt
  · rw [h.innerCap, hi, ← h0.innerCap]; exact h0.inner.depthBound
  · rw [h.outerCap, ho, ← h0.outerCap]; exact h0.outer.depthBound

/-- A channel's own pair is accepted. -/
theorem Channel.Inv.setDepths_pair (h : ch.Inv cfg c) (z : Sample) :
    ch.setDepths z ch.pair =
      ⟨ch.inner.clearedTo z ch.inner.depth, ch.outer.clearedTo z ch.outer.depth⟩ :=
  Channel.setDepths_of_lt z h.inner.depthBound h.outer.depthBound

/-! ### The obligations -/

/-- Settles O23: the pair imposed is the first of the most frequent ones, and each channel is either
left or cleared at its depths. -/
theorem bankCorrectImposesMajority : Obligations.BankCorrectImposesMajority := by
  intro s hs opc count z
  obtain ⟨-, -, ⟨htemp, -, hpart, -⟩, -⟩ := hs.config
  have hlen : s.cfg.partition ≤ s.channels.length := hs.count ▸ hpart
  have hopc : opc ≠ [] := List.ne_nil_of_length_pos (by simp [opc]; omega)
  obtain ⟨c0, ch0, hget, hpair, hmajority⟩ := exists_first_majority hopc
  obtain ⟨hc0, hch0⟩ : c0 < s.cfg.partition ∧ s.channels[c0]? = some ch0 := by
    simpa [opc, List.getElem?_take] using hget
  refine ⟨_, c0, ch0, rfl, hget, hmajority, fun c ch hch => ?_, correctChannels_length hlen, rfl⟩
  by_cases hc : c < s.cfg.partition
  · refine ⟨_, (correctChannels_getElem?_opc hlen hc).trans (by rw [hch]; rfl), fun hkeep => ?_,
      fun _ hne => ?_⟩
    · exact if_pos ((hkeep.resolve_left (Nat.not_le.2 hc)).trans hpair)
    · refine (if_neg (hpair ▸ hne)).trans ?_
      change ch.setDepths z (majorityPair (opc.map Channel.pair)) = _
      rw [← hpair]
      exact (hs.channels c ch hch).setDepths_opc (hs.channels c0 ch0 hch0) hs.config hc hc0 z
  · exact ⟨ch, (correctChannels_getElem?_mox hlen (Nat.not_lt.1 hc)).trans hch, fun _ => rfl,
      fun hlt => absurd hlt hc⟩

/-- Settles O24: every averager of the bank accepts the depth it has. -/
theorem bankRestartClearsAll : Obligations.BankRestartClearsAll := by
  intro s hs z
  have hmap : s.channels.map (fun ch => ch.setDepths z ch.pair) = s.channels.map (fun ch =>
      ⟨ch.inner.clearedTo z ch.inner.depth, ch.outer.clearedTo z ch.outer.depth⟩) := by
    refine List.map_congr_left fun ch hmem => ?_
    obtain ⟨c, hc⟩ := List.getElem?_of_mem hmem
    exact (hs.channels c ch hc).setDepths_pair z
  rw [← hmap]
  rfl

/-- Settles O25: the three cases of `State.enableSampling`. -/
theorem enableSamplingRequests : Obligations.EnableSamplingRequests := by
  intro s _
  refine ⟨fun hon => ?_, fun hoff => ⟨_, _, rfl, rfl, ?_⟩, rfl⟩
  · simp [exec, execBankEnableSampling, State.enableSampling, hon, State.answer_eq]
  · simp only [exec, execBankEnableSampling, State.enableSampling, hoff, State.answer_eq]
    rfl

end Sys2Proof.Machine
end

section
/-! SUPPORT. The presets (spec/41_channel_postscaler.md R138, R139, R143; spec/20_memory.md R66):
the three bytes of a channel in the store, what loading and saving answer, and the obligations. -/

namespace Sys2Proof.Machine

variable {s : State} {c : Byte} {ch : Channel} {cfg : Config}

/-! ### The three bytes of a channel -/

theorem prescalerAddr_sensorOf (cfg : Config) (c : Byte) :
    prescalerAddr cfg (sensorOf cfg c) =
      cfg.nvPreBase + (if c.toNat < cfg.partition then 0 else 1) := by
  unfold sensorOf; split <;> rfl

/-- The three arrays of the store do not overlap (R6(f)). -/
theorem presetAddrs_distinct (hw : cfg.WF) (hc : c.toNat < cfg.nch) (x : Sensor) :
    prescalerAddr cfg x ≠ innerAddr cfg c ∧ prescalerAddr cfg x ≠ outerAddr cfg c ∧
      innerAddr cfg c ≠ outerAddr cfg c := by
  obtain ⟨-, -, -, -, -, ⟨hpi, hpo, hio⟩, -⟩ := hw
  have hpre : prescalerAddr cfg x = cfg.nvPreBase ∨ prescalerAddr cfg x = cfg.nvPreBase + 1 := by
    cases x <;> simp [prescalerAddr]
  unfold innerAddr outerAddr
  omega

/-- Three writes at different addresses are all read back, and nothing else has changed. -/
theorem Memory.read_write_three {m : Memory} (h : m.wf) {a b d : Nat} (hab : a ≠ b) (had : a ≠ d)
    (hbd : b ≠ d) (u v w : Byte) :
    (((m.write a u).write b v).write d w).read a = u ∧
    (((m.write a u).write b v).write d w).read b = v ∧
    (((m.write a u).write b v).write d w).read d = w ∧
    ∀ k, k ≠ a → k ≠ b → k ≠ d → (((m.write a u).write b v).write d w).read k = m.read k := by
  have ha := Memory.write_wf h a u
  refine ⟨?_, ?_, Memory.read_write_same (Memory.write_wf ha b v) d w, fun k hka hkb hkd => ?_⟩
  · rw [Memory.read_write_ne _ had, Memory.read_write_ne _ hab, Memory.read_write_same h]
  · rw [Memory.read_write_ne _ hbd, Memory.read_write_same ha]
  · rw [Memory.read_write_ne _ hkd, Memory.read_write_ne _ hkb, Memory.read_write_ne _ hka]

/-! ### The prescaler of a sampler as one byte (R26, R154) -/

theorem Sampler.Inv.getPre_toNat {m : Sampler} (h : m.Inv) : m.getPre.toNat = m.p10.toNat / 10 := by
  have := h.bound
  rw [Sampler.getPre, BitVec.toNat_ofNat]
  omega

/-- Setting the prescaler a sampler has restarts its period and changes nothing else. -/
theorem Sampler.Inv.setPre_getPre {m : Sampler} (h : m.Inv) :
    m.setPre m.getPre = { m with counter := 0 } := by
  have hp : BitVec.ofNat 16 (10 * m.getPre.toNat) = m.p10 := by
    have := h.tens
    rw [h.getPre_toNat, show 10 * (m.p10.toNat / 10) = m.p10.toNat by omega]
    simp
  rw [Sampler.setPre, hp]

/-! ### What loading and saving answer -/

/-- The prescaler that `CH.LOADPRESET` sets (R138). -/
def presetPre (c : Byte) (s : State) : Byte :=
  storedPrescaler s.cfg (s.nv.read (prescalerAddr s.cfg (sensorOf s.cfg c)))

/-- The depths that `CH.LOADPRESET` sets (R138). -/
def presetDepths (c : Byte) (s : State) : Byte × Byte :=
  (s.nv.read (innerAddr s.cfg c), s.nv.read (outerAddr s.cfg c))

/-- The state after `CH.SETPRE` of a channel of the bank (R155). -/
def State.withPre (s : State) (c e : Byte) : State :=
  s.setSampler (sensorOf s.cfg c) ((s.sampler (sensorOf s.cfg c)).setPre (flooredPre s.cfg c e))

@[simp] theorem State.withPre_cfg (s : State) (c e : Byte) : (s.withPre c e).cfg = s.cfg := by
  simp [State.withPre]

@[simp] theorem State.withPre_nv (s : State) (c e : Byte) : (s.withPre c e).nv = s.nv := by
  simp [State.withPre]

@[simp] theorem State.channel?_withPre (s : State) (c e d : Byte) :
    (s.withPre c e).channel? d = s.channel? d := by
  simp [State.withPre, State.channel?]

@[simp] theorem State.sampler_setChannel (s : State) (c : Byte) (ch : Channel) (x : Sensor) :
    (s.setChannel c ch).sampler x = s.sampler x := by cases x <;> rfl

theorem setChannelPre_of_lt (hc : c.toNat < s.cfg.nch) (e : Byte) :
    setChannelPre c e s = some (s.withPre c e) := if_pos hc

theorem exec_chSetPre_of_lt (hc : c.toNat < s.cfg.nch) (e : Byte) :
    exec (.chSetPre c e) s = .next { s.withPre c e with result := .flag true } := by
  simp [exec, execChSetPre, setChannelPre_of_lt hc, State.answer_eq]

theorem exec_chLoadPreset (h : s.channel? c = some ch) :
    exec (.chLoadPreset c) s = .next
      { (s.withPre c (presetPre c s)).setChannel c
          (ch.setDepths (sampleArith s.cfg).szero (presetDepths c s)) with
        result := .flag true } := by
  have hload : loadPreset c s = some ((s.withPre c (presetPre c s)).setChannel c
      (ch.setDepths (sampleArith s.cfg).szero (presetDepths c s))) := by
    obtain ⟨hc, -⟩ := State.channel?_eq_some.1 h
    simp [loadPreset, h, setChannelPre_of_lt hc, presetPre, presetDepths]
  simp only [exec, execChLoadPreset, hload, State.answer_eq]

theorem exec_chSavePreset (h : s.channel? c = some ch) :
    exec (.chSavePreset c) s = .next { s with
      nv := ((s.nv.write (prescalerAddr s.cfg (sensorOf s.cfg c))
        (s.sampler (sensorOf s.cfg c)).getPre).write (innerAddr s.cfg c) ch.inner.depth).write
          (outerAddr s.cfg c) ch.outer.depth
      result := .flag true } := by
  simp [exec, execChSavePreset, savePreset, h, State.answer_eq]

/-! ### The obligations -/

/-- Settles O26: loading is the change of the prescaler and then the two changes of depth, whatever
these answer. -/
theorem loadPresetSetsFromStore : Obligations.LoadPresetSetsFromStore := by
  intro s c hs
  refine ⟨fun hc => ?_, fun hc => ?_⟩
  · simp [exec, execChLoadPreset, loadPreset, State.channel?_eq_none hc, State.answer_eq]
  · intro x pb e
    have he : presetPre c s = e := by rw [presetPre, prescalerAddr_sensorOf]; rfl
    obtain ⟨ch, hch⟩ := hs.channel?_some hc
    have hpre : State.channel? { s.withPre c e with result := .flag true } c = some ch :=
      (State.channel?_withPre s c e c).trans hch
    obtain ⟨u, hinner, -, houter⟩ := exec_avgSetDepth_inner_outer hpre
      (s.nv.read (s.cfg.nvInnerBase + c.toNat)) (s.nv.read (s.cfg.nvOuterBase + c.toNat))
    refine ⟨_, u, _, exec_chSetPre_of_lt hc e, hinner, houter, ?_⟩
    rw [exec_chLoadPreset hch, he, State.withPre_cfg]
    rfl

/-- Settles O27: the three addresses differ, so each write is read back. -/
theorem savePresetWritesThreeBytes : Obligations.SavePresetWritesThreeBytes := by
  intro s c hs
  refine ⟨fun hc => ?_, fun i o hi ho => ?_⟩
  · simp [exec, execChSavePreset, savePreset, State.channel?_eq_none hc, State.answer_eq]
  · intro x pre ia oa
    have hch := State.channel?_of_averagers hi ho
    have hpre : prescalerAddr s.cfg x = pre := prescalerAddr_sensorOf s.cfg c
    obtain ⟨hpi, hpo, hio⟩ := presetAddrs_distinct hs.config (State.channel?_eq_some.1 hch).1 x
    obtain ⟨hrp, hri, hro, hrest⟩ := Memory.read_write_three hs.store hpi hpo hio
      (s.sampler x).getPre i.depth o.depth
    rw [← hpre]
    refine ⟨_, exec_chSavePreset hch, ?_, hri, hro, hrest, rfl⟩
    rw [← (hs.sampler x).getPre_toNat]
    exact congrArg BitVec.toNat hrp

/-- A stored prescaler that is not erased and not below the MOX minimum is the one set (R143). -/
theorem flooredPre_presetPre {e : Byte}
    (hstored : s.nv.read (prescalerAddr s.cfg (sensorOf s.cfg c)) = e) (herased : e.toNat ≠ 255)
    (hmin : sensorOf s.cfg c = .mox → s.cfg.moxMinPrescaler.toNat ≤ e.toNat) :
    flooredPre s.cfg c (presetPre c s) = e := by
  have hne : e ≠ storeErased := fun h => herased (by rw [h]; rfl)
  rw [presetPre, hstored, storedPrescaler, if_neg hne, flooredPre,
    if_neg fun ⟨hmox, hlt⟩ => absurd (hmin hmox) (Nat.not_le.2 hlt)]

/-- Loading the settings a channel has clears its averagers at their depths and restarts the
period of its sampler (R143). -/
theorem exec_chLoadPreset_own {k : Nat} (h : s.channel? c = some ch) (hch : ch.Inv s.cfg k)
    (hsmp : (s.sampler (sensorOf s.cfg c)).Inv)
    (hpre : flooredPre s.cfg c (presetPre c s) = (s.sampler (sensorOf s.cfg c)).getPre)
    (hdepths : presetDepths c s = ch.pair) :
    ∃ u, exec (.chLoadPreset c) s = .next u ∧ u.result = .flag true ∧ u.nv = s.nv ∧
      u.sampler (sensorOf s.cfg c) = { s.sampler (sensorOf s.cfg c) with counter := 0 } ∧
      u.channel? c = some ⟨ch.inner.clearedTo (sampleArith s.cfg).szero ch.inner.depth,
        ch.outer.clearedTo (sampleArith s.cfg).szero ch.outer.depth⟩ := by
  have hset := State.channel?_setChannel
    ((State.channel?_withPre s c (presetPre c s) c).trans h)
    (ch.setDepths (sampleArith s.cfg).szero ch.pair)
  have hsampler : (s.withPre c (presetPre c s)).sampler (sensorOf s.cfg c) =
      { s.sampler (sensorOf s.cfg c) with counter := 0 } := by
    rw [State.withPre, hpre, State.sampler_setSampler, hsmp.setPre_getPre]
  have hexec := exec_chLoadPreset h
  rw [hdepths, hch.setDepths_pair] at hexec
  rw [hch.setDepths_pair] at hset
  refine ⟨_, hexec, rfl, State.withPre_nv .., ?_, hset⟩
  rw [← hsampler]
  cases sensorOf s.cfg c <;> rfl

/-- Settles O28: the bytes that were saved are the ones the load reads, and each setting is accepted
because it is the one the channel has. -/
theorem presetRoundTrip : Obligations.PresetRoundTrip := by
  intro s c i o hs hi ho x e herased hmin z
  obtain ⟨t, hsave, hpre, hinner, houter, -, ht⟩ := (savePresetWritesThreeBytes s c hs).2 i o hi ho
  have hcfg : t.cfg = s.cfg := by rw [ht]
  have hsampler : t.sampler x = s.sampler x := by rw [ht]; cases x <;> rfl
  have hchs := State.channel?_of_averagers hi ho
  have hcht : t.channel? c = some ⟨i, o⟩ := by rw [ht]; exact hchs
  have hgetPre : (s.sampler x).getPre.toNat = e := (hs.sampler x).getPre_toNat
  have hfloor : flooredPre t.cfg c (presetPre c t) = (s.sampler x).getPre := by
    refine flooredPre_presetPre ?_ (hgetPre ▸ herased) (by rw [hcfg, hgetPre]; exact hmin)
    rw [hcfg, prescalerAddr_sensorOf]
    exact BitVec.eq_of_toNat_eq (hpre.trans hgetPre.symm)
  have hdepths : presetDepths c t = (i.depth, o.depth) := by
    rw [presetDepths, hcfg]; exact Prod.ext hinner houter
  have hx : sensorOf t.cfg c = x := by rw [hcfg]
  obtain ⟨u, hload, hres, hnv, hsmp, hchu⟩ := exec_chLoadPreset_own hcht (hcfg ▸ hs.channel hchs)
    (by rw [hx, hsampler]; exact hs.sampler x) (by rw [hx, hsampler]; exact hfloor) hdepths
  rw [hx, hsampler] at hsmp
  rw [hcfg] at hchu
  exact ⟨t, u, hsave, hload, hres, hnv, hsmp, State.averager?_of_channel hchu .inner,
    State.averager?_of_channel hchu .outer⟩

end Sys2Proof.Machine
end

section
/-! SUPPORT. The tick and the samplers (spec/42_sampler.md R150 to R156): the three cases of a tick,
what each operation answers, and the obligations about them. -/

namespace Sys2Proof.Machine

variable {s : State} {m : Sampler} {c e : Byte} {cfg : Config}

/-! ### The three cases of a tick (R151) -/

/-- For an enabled sampler, whose prescaler less 1 does not wrap. -/
theorem periodEnds_iff (h : m.p10 ≠ 0) :
    periodEnds m = true ↔ m.counter.toNat = m.p10.toNat - 1 := by
  have hsub : (m.p10 - 1).toNat = m.p10.toNat - 1 := by bv_omega
  rw [periodEnds, decide_eq_true h, Bool.true_and, decide_eq_true_iff, ← hsub, BitVec.toNat_inj]

theorem Sampler.tick_disabled (h : m.p10 = 0) (now : U32) : m.tick now = (false, m) := if_pos h

theorem Sampler.tick_periodEnd (h : m.p10 ≠ 0) (hc : m.counter.toNat = m.p10.toNat - 1)
    (now : U32) : m.tick now = (true, { m with counter := 0, runTs := now, go := true }) := by
  rw [Sampler.tick, if_neg h, if_pos ((periodEnds_iff h).2 hc)]

theorem Sampler.tick_counting (h : m.p10 ≠ 0) (hc : m.counter.toNat ≠ m.p10.toNat - 1)
    (now : U32) : m.tick now = (false, { m with counter := m.counter + 1 }) := by
  rw [Sampler.tick, if_neg h, if_neg (mt (periodEnds_iff h).1 hc)]

/-- The model's tick is the one of R151. -/
theorem Sampler.tickOf_tick (m : Sampler) (now : U32) :
    TickOf now m (m.tick now).2 (m.tick now).1 := by
  refine ⟨fun h => ?_, fun h hc => ?_, fun h hc => ?_⟩
  · rw [Sampler.tick_disabled h]; exact ⟨rfl, rfl⟩
  · rw [Sampler.tick_periodEnd h hc]; exact ⟨rfl, rfl⟩
  · rw [Sampler.tick_counting h hc]; exact ⟨rfl, rfl⟩

/-! ### The go flag and the prescaler of a sampler (R152 to R154) -/

/-- R152's masked section in one equation: a clear flag leaves both timestamps. -/
theorem Sampler.take_eq (m : Sampler) :
    m.take = (m.go, { m with go := false, latTs := if m.go then m.runTs else m.latTs }) := by
  cases hgo : m.go <;> simp [Sampler.take, hgo]

/-- The external value that was set is given back: ten times it fits the register. -/
theorem Sampler.getPre_setPre (m : Sampler) (e : Byte) : (m.setPre e).getPre = e := by
  refine BitVec.eq_of_toNat_eq ?_
  rw [(m.setPre_inv e).getPre_toNat, m.setPre_p10 e]
  omega

/-! ### A channel's sensor and its least prescaler (R24, R155) -/

theorem sensorOf_of_lt (h : c.toNat < cfg.partition) : sensorOf cfg c = .opc := if_pos h

theorem sensorOf_of_le (h : cfg.partition ≤ c.toNat) : sensorOf cfg c = .mox :=
  if_neg (Nat.not_lt.2 h)

theorem flooredPre_opc (h : sensorOf cfg c = .opc) : flooredPre cfg c e = e := by
  simp [flooredPre, h]

theorem flooredPre_mox (h : sensorOf cfg c = .mox) :
    flooredPre cfg c e =
      if e.toNat < cfg.moxMinPrescaler.toNat then cfg.moxMinPrescaler else e := by
  simp [flooredPre, h]

/-! ### What each operation answers -/

theorem exec_smpTick (x : Sensor) (s : State) :
    exec (.smpTick x) s = .next { s.setSampler x ((s.sampler x).tick s.ticks).2 with
      result := .flag ((s.sampler x).tick s.ticks).1 } := rfl

theorem exec_sysTickIrq (s : State) :
    exec .sysTickIrq s = .next { s with
      ticks := s.ticks + 1
      opc := (s.opc.tick (s.ticks + 1)).2
      mox := (s.mox.tick (s.ticks + 1)).2
      result := .none } := rfl

theorem exec_smpTask_unbound {x : Sensor} (h : (s.sampler x).bound = false) (hret : Bool) :
    exec (.smpTask x hret) s = .next { s.setSampler x (s.sampler x).take.2 with
      result := .flag (s.sampler x).take.1 } := by
  simp [exec, execSmpTask, h, State.answer_eq]

theorem exec_smpTask_bound {x : Sensor} (h : (s.sampler x).bound = true) (hret : Bool) :
    exec (.smpTask x hret) s = .next { s.setSampler x (s.sampler x).take.2 with
      events := s.events ++ [PortEvent.handlerCall x (s.sampler x).take.1]
      result := .flag hret } := by
  simp [exec, execSmpTask, h, State.answer_eq]

theorem exec_smpSetPre (x : Sensor) (e : Byte) (s : State) :
    exec (.smpSetPre x e) s =
      .next { s.setSampler x ((s.sampler x).setPre e) with result := .none } := rfl

theorem exec_smpGetPre (x : Sensor) (s : State) :
    exec (.smpGetPre x) s = .next { s with result := .byte (s.sampler x).getPre } := rfl

theorem exec_chSetPre_of_le (hc : s.cfg.nch ≤ c.toNat) (e : Byte) :
    exec (.chSetPre c e) s = .next { s with result := .flag false } := by
  simp [exec, execChSetPre, setChannelPre, Nat.not_lt.2 hc, State.answer_eq]

theorem exec_chGetPre_of_le (hc : s.cfg.nch ≤ c.toNat) :
    exec (.chGetPre c) s = .next { s with result := .checkedByte none } := by
  simp [exec, execChGetPre, getChannelPre, Nat.not_lt.2 hc, State.answer_eq]

theorem exec_chGetPre_of_lt (hc : c.toNat < s.cfg.nch) :
    exec (.chGetPre c) s = .next
      { s with result := .checkedByte (some (s.sampler (sensorOf s.cfg c)).getPre) } := by
  simp [exec, execChGetPre, getChannelPre, hc, State.answer_eq]

/-- In the bank the operations of a channel are those of its sensor's sampler, at the value the
floor leaves (R155, R156). -/
theorem exec_chPre_eq_smpPre (hc : c.toNat < s.cfg.nch) (e : Byte) :
    (∃ t, exec (.smpSetPre (sensorOf s.cfg c) (flooredPre s.cfg c e)) s = .next t ∧
      exec (.chSetPre c e) s = .next { t with result := .flag true }) ∧
    (∃ r, exec (.smpGetPre (sensorOf s.cfg c)) s = .next { s with result := .byte r } ∧
      exec (.chGetPre c) s = .next { s with result := .checkedByte (some r) }) :=
  ⟨⟨_, exec_smpSetPre .., exec_chSetPre_of_lt hc e⟩, ⟨_, exec_smpGetPre .., exec_chGetPre_of_lt hc⟩⟩

/-! ### The obligations -/

/-- Settles O29: the operation puts back what the sampler's tick makes of it. -/
theorem smpTickCountsPeriod : Obligations.SmpTickCountsPeriod := fun s x =>
  ⟨_, _, exec_smpTick x s, (s.sampler x).tickOf_tick s.ticks⟩

/-- Settles O30: both samplers are ticked at the clock's new value. -/
theorem tickIrqTicksBothSamplers : Obligations.TickIrqTicksBothSamplers := fun s =>
  ⟨_, _, _, _, exec_sysTickIrq s, s.opc.tickOf_tick _, s.mox.tickOf_tick _⟩

/-- Settles O32: what is set is ten times the value, and a tenth of that is given back. -/
theorem smpPrescalerTimesTen : Obligations.SmpPrescalerTimesTen := by
  intro s x e
  have hget : (s.sampler x).getPre.toNat = (s.sampler x).p10.toNat / 10 % 256 :=
    BitVec.toNat_ofNat ..
  refine ⟨_, (s.sampler x).setPre_p10 e, exec_smpSetPre x e s,
    ⟨_, hget, exec_smpGetPre x s⟩, fun t ht => ?_⟩
  have hsampler : t.sampler x = (s.sampler x).setPre e := by
    rw [← (next_inj _ _).1 ht]; cases x <;> rfl
  rw [exec_smpGetPre, hsampler, Sampler.getPre_setPre]

/-- Settles O33: the channel's sensor decides the sampler and whether the value is floored. -/
theorem channelPrescalerFloorsMox : Obligations.ChannelPrescalerFloorsMox := by
  intro s c e hs
  obtain ⟨-, -, ⟨-, -, hpart, -⟩, -⟩ := hs.config
  refine ⟨fun hc => ⟨exec_chSetPre_of_le hc e, exec_chGetPre_of_le hc⟩, fun hc => ?_,
    fun hp hc => ?_⟩
  · have hx := sensorOf_of_lt hc
    have hpre := exec_chPre_eq_smpPre (hc.trans_le hpart) e
    rwa [flooredPre_opc hx, hx] at hpre
  · have hx := sensorOf_of_le hp
    have hpre := exec_chPre_eq_smpPre hc e
    rwa [flooredPre_mox hx, hx] at hpre

/-- Settles O31: the handler is invoked with the flag that `take` reads. -/
theorem smpTaskReadsAndClearsGo : Obligations.SmpTaskReadsAndClearsGo := by
  intro s x hret m t
  have htake := m.take_eq
  refine ⟨fun h => ?_, fun h => ?_⟩
  · rw [exec_smpTask_unbound h, htake]
  · rw [exec_smpTask_bound h, htake]

end Sys2Proof.Machine
end

section
/-! SUPPORT. The bus link (spec/43_buslink.md R172 to R178, R180, R181, R183 to R185): when each
limit is exceeded, what a byte makes of the receiver in each phase, what each operation answers, and
the obligations about them. -/

namespace Sys2Proof.Machine

variable {s : State} {l : Link} {cfg : Config} {now : U32} {b : Byte} {n : Nibble}

/-! ### The three limits (R171, R183) -/

theorem frameExpired_iff : frameExpired cfg now l = true ↔
    l.rxState ≠ .searching ∧ cfg.frameTimeout < (now - l.frameStart).toNat := by
  rw [frameExpired, Bool.and_eq_true, decide_eq_true_iff, decide_eq_true_iff]; rfl

theorem flashExpired_iff : flashExpired cfg now l = true ↔
    l.ledOn = true ∧ cfg.ledFlash < (now - l.ledSince).toNat := by
  rw [flashExpired, Bool.and_eq_true, decide_eq_true_iff]; rfl

theorem idleExpired_iff : idleExpired cfg now l = true ↔
    l.ledEnabled = true ∧ cfg.ledIdle < (now - l.ledEnableSince).toNat := by
  rw [idleExpired, Bool.and_eq_true, decide_eq_true_iff]; rfl

/-- The timeout check, written as one update. -/
theorem Link.checkTimeout_eq_ite (cfg : Config) (now : U32) (l : Link) :
    l.checkTimeout cfg now = { l with
      rxState := if frameExpired cfg now l then .searching else l.rxState
      rxLen := if frameExpired cfg now l then 0 else l.rxLen } := by
  cases h : frameExpired cfg now l <;> simp [Link.checkTimeout, Link.abort, h]

/-- The indicator timeouts clear their flags and nothing else. -/
theorem Link.checkIndicator_eq_ite (cfg : Config) (now : U32) (l : Link) :
    l.checkIndicator cfg now = { l with
      ledOn := if flashExpired cfg now l then false else l.ledOn
      ledEnabled := if idleExpired cfg now l then false else l.ledEnabled } := by
  cases hf : flashExpired cfg now l <;> cases hi : idleExpired cfg now l <;>
    simp [Link.checkIndicator, hf, hi]

/-! ### What a byte makes of the receiver (R172, R174 to R177) -/

theorem Link.abort_eq (l : Link) (r : FrameAbort) :
    l.abort r = { l with rxState := .searching, rxLen := 0 } := rfl

/-- A header byte forgets whether the frame before it had expired. -/
theorem Link.startFrame_checkTimeout (cfg : Config) (now : U32) (l : Link) :
    (l.checkTimeout cfg now).startFrame now =
      { l with rxState := .headerFound, frameStart := now, rxLen := 0 } := by
  rw [Link.checkTimeout_eq_ite]; rfl

theorem Link.takeVersion_expected (h : b = cfg.protoVersion) :
    l.takeVersion cfg b = { l with rxState := .versionFound } := if_pos h

theorem Link.takeVersion_other (h : b ≠ cfg.protoVersion) :
    l.takeVersion cfg b = l.abort .badVersion := if_neg h

theorem Link.takeAddrHigh_digit (h : hexVal cfg b = some n) :
    l.takeAddrHigh cfg b = { l with rxState := .addressMsbFound, addrMsb := n } := by
  simp [Link.takeAddrHigh, h]

theorem Link.takeAddrHigh_noDigit (h : hexVal cfg b = none) :
    l.takeAddrHigh cfg b = l.abort .badAddressChar := by simp [Link.takeAddrHigh, h]

theorem Link.takeAddrLow_match {id : Byte} (h : hexVal cfg b = some n) (hid : l.addrMsb ++ n = id) :
    l.takeAddrLow cfg id b = { l with rxState := .receiving, rxLen := 0 } := by
  simp [Link.takeAddrLow, h, hid]

theorem Link.takeAddrLow_mismatch {id : Byte} (h : hexVal cfg b = some n)
    (hid : l.addrMsb ++ n ≠ id) : l.takeAddrLow cfg id b = l.abort .addressMismatch := by
  simp [Link.takeAddrLow, h, hid]

theorem Link.takeAddrLow_noDigit (id : Byte) (h : hexVal cfg b = none) :
    l.takeAddrLow cfg id b = l.abort .badAddressChar := by simp [Link.takeAddrLow, h]

theorem Link.takeData_full (b : Byte) (h : l.rxLen = cfg.rxBufSize) :
    l.takeData cfg b = some (l.abort .overflow) := if_pos h

theorem Link.takeData_space (b : Byte) (h : l.rxLen ≠ cfg.rxBufSize)
    (hlen : l.rxLen < l.rxBuf.length) : l.takeData cfg b =
      some { l with rxBuf := l.rxBuf.set l.rxLen b, rxLen := l.rxLen + 1 } := by
  simp [Link.takeData, h, hlen]

/-- The slots up to and with the one that is set: those before it are kept. -/
theorem take_succ_set_self {α : Type} {xs : List α} {k : Nat} (h : k < xs.length) (x : α) :
    (xs.set k x).take (k + 1) = xs.take k ++ [x] := by
  rw [List.take_add_one, List.take_set_of_le (Nat.le_refl k), List.getElem?_set_self h]; rfl

/-! ### What `LNK.RX` answers in each phase (R170)

A byte that is no header, in a receiver that the timeout check leaves as it is. -/

theorem exec_lnkRx_header (s : State) : exec (.lnkRx chHeader) s = .next { s with
    link := (s.link.checkTimeout s.cfg s.ticks).startFrame s.ticks, result := .none } := rfl

theorem exec_lnkRx_searching (hb : b ≠ chHeader) (hs : s.link.rxState = .searching) :
    exec (.lnkRx b) s = .next { s with result := .none } := by
  simp [exec, execLnkRx, hb, Link.checkTimeout_searching _ _ hs, hs, State.answer_eq]

section LivePhases
variable (hb : b ≠ chHeader) (hlive : s.link.checkTimeout s.cfg s.ticks = s.link)
include hb hlive

theorem exec_lnkRx_headerFound (hs : s.link.rxState = .headerFound) :
    exec (.lnkRx b) s =
      .next { s with link := s.link.takeVersion s.cfg b, result := .none } := by
  simp [exec, execLnkRx, hb, hlive, hs, State.answer_eq]

theorem exec_lnkRx_versionFound (hs : s.link.rxState = .versionFound) :
    exec (.lnkRx b) s =
      .next { s with link := s.link.takeAddrHigh s.cfg b, result := .none } := by
  simp [exec, execLnkRx, hb, hlive, hs, State.answer_eq]

theorem exec_lnkRx_addressMsbFound (hs : s.link.rxState = .addressMsbFound) :
    exec (.lnkRx b) s =
      .next { s with link := s.link.takeAddrLow s.cfg s.boardId b, result := .none } := by
  simp [exec, execLnkRx, hb, hlive, hs, State.answer_eq]

theorem exec_lnkRx_data (hs : s.link.rxState = .receiving) (ht : b ≠ chTrailer) {l : Link}
    (hl : s.link.takeData s.cfg b = some l) :
    exec (.lnkRx b) s = .next { s with link := l, result := .none } := by
  simp [exec, execLnkRx, hb, hlive, hs, ht, hl, State.answer_eq]

end LivePhases

theorem exec_lnkRx_trailer (hlive : s.link.checkTimeout s.cfg s.ticks = s.link)
    (hs : s.link.rxState = .receiving) : exec (.lnkRx chTrailer) s = s.commit := by
  have hne : chTrailer ≠ chHeader := by decide
  simp [exec, execLnkRx, hne, hlive, hs]

/-! ### What polling and transmitting answer (R180, R181) -/

theorem exec_lnkPoll (s : State) : exec .lnkPoll s = .next { s with
    link := (s.link.checkTimeout s.cfg s.ticks).checkIndicator s.cfg s.ticks
    result := .none } := rfl

theorem mayTransmit_iff :
    mayTransmit l = true ↔ l.rxState = .searching ∧ l.txPending = true := by simp [mayTransmit]

theorem exec_lnkTx_sends (h : mayTransmit s.link = true)
    (hlen : s.link.txLen ≤ s.link.txBuf.length) : exec .lnkTx s = .next { s with
      tx := s.tx ++ replyFrame s.cfg s.boardId (s.link.txBuf.take s.link.txLen)
      link := Link.pulse s.ticks { s.link with txPending := false }
      result := .none } := by
  simp [exec, execLnkTx, h, hlen, State.answer_eq]

theorem exec_lnkTx_silent (h : ¬ mayTransmit s.link = true) :
    exec .lnkTx s = .next { s with result := .none } := by
  simp [exec, execLnkTx, h, State.answer_eq]

/-! ### The obligations -/

/-- Settles O37: what the byte makes of the receiver, phase by phase. -/
theorem frameHeaderPhases : Obligations.FrameHeaderPhases := by
  intro s b hb dropped
  refine ⟨exec_lnkRx_searching hb, fun hfresh => ?_⟩
  have hlive := Link.checkTimeout_fresh s.cfg hfresh
  refine ⟨fun hs => ?_, fun hs => ?_, fun hs => ?_⟩
  · rw [exec_lnkRx_headerFound hb hlive hs]
    exact ⟨fun h => by rw [Link.takeVersion_expected h],
      fun h => by rw [Link.takeVersion_other h, Link.abort_eq]⟩
  · rw [exec_lnkRx_versionFound hb hlive hs]
    exact ⟨fun n h => by rw [Link.takeAddrHigh_digit h],
      fun h => by rw [Link.takeAddrHigh_noDigit h, Link.abort_eq]⟩
  · rw [exec_lnkRx_addressMsbFound hb hlive hs]
    exact ⟨fun n h hid => by rw [Link.takeAddrLow_match h hid],
      fun n h hid => by rw [Link.takeAddrLow_mismatch h hid, Link.abort_eq],
      fun h => by rw [Link.takeAddrLow_noDigit _ h, Link.abort_eq]⟩

/-- Settles O38: below the limit the invariant has a slot for the byte. -/
theorem payloadByteStoredOrOverflow : Obligations.PayloadByteStoredOrOverflow := by
  intro s b hinv hb ht hs hfresh
  have hlive := Link.checkTimeout_fresh s.cfg hfresh
  refine ⟨fun hfull => exec_lnkRx_data hb hlive hs ht (Link.takeData_full b hfull),
    fun hspace => ?_⟩
  have hlen : s.link.rxLen < s.link.rxBuf.length := by
    rw [hinv.link.rxSize]; exact Nat.lt_of_le_of_ne hinv.link.rxLen hspace
  exact ⟨_, exec_lnkRx_data hb hlive hs ht (Link.takeData_space b hspace hlen),
    take_succ_set_self hlen b, List.drop_set_of_lt (Nat.lt_succ_self _), rfl⟩

/-- Settles O39: the commit is the dispatch in the pulsed, idle state. -/
theorem trailerCommitsPayload : Obligations.TrailerCommitsPayload := by
  intro s hinv hs hfresh
  have hlen : s.link.rxLen ≤ s.link.rxBuf.length := by
    rw [hinv.link.rxSize]; exact hinv.link.rxLen
  exact (exec_lnkRx_trailer (Link.checkTimeout_fresh s.cfg hfresh) hs).trans
    (by rw [State.commit_eq hlen, Link.pulse_eq]; rfl)

/-- Settles O40: each limit is decided by registers that the other two leave alone. -/
theorem pollAppliesThreeLimits : Obligations.PollAppliesThreeLimits := fun s =>
  ⟨frameExpired s.cfg s.ticks s.link, flashExpired s.cfg s.ticks s.link,
    idleExpired s.cfg s.ticks s.link, frameExpired_iff, flashExpired_iff, idleExpired_iff, by
      rw [exec_lnkPoll, Link.checkIndicator_eq_ite, Link.checkTimeout_eq_ite]; rfl⟩

/-- Settles O41: the invariant keeps the reply's length within the buffer. -/
theorem txSendsPendingReply : Obligations.TxSendsPendingReply := by
  intro s hinv
  have hlen : s.link.txLen ≤ s.link.txBuf.length := by
    rw [hinv.link.txSize]; exact hinv.link.txLen
  refine ⟨fun hidle hpending => ?_, fun h => exec_lnkTx_silent fun hm => ?_⟩
  · rw [exec_lnkTx_sends (mayTransmit_iff.2 ⟨hidle, hpending⟩) hlen, Link.pulse_eq]; rfl
  · obtain ⟨hidle, hpending⟩ := mayTransmit_iff.1 hm
    exact h.elim (absurd hidle) (by simp [hpending])

/-- Settles O35: the new frame replaces whatever the timeout check left of the old one. -/
theorem headerByteStartsFrame : Obligations.HeaderByteStartsFrame := fun s =>
  (exec_lnkRx_header s).trans (by rw [Link.startFrame_checkTimeout])

/-- Settles O42: the operation sets the two registers of R185, whatever the state. -/
theorem ledEnableRestartsIdlePeriod : Obligations.LedEnableRestartsIdlePeriod := fun _ => rfl

end Sys2Proof.Machine
end

section
/-! SUPPORT. The inquiry command (spec/44_commands.md R204): what a command answers once its
parameters are read (R200, R201), what `I` answers, and the obligation about it. -/

namespace Sys2Proof.Machine

variable {s : State} {c h l : Byte} {name : List Byte}

/-! ### A command whose parameters are read (R200, R201) -/

/-- Two characters that are one hex byte are read as one parameter. -/
theorem readParams_pair {cfg : Config} (hc : hexByte cfg h l = some c) :
    readParams cfg [h, l] = some [c] := by simp [readParams, hc]

section ReadParameters
variable {cmd : CmdId} {ds q : List Byte} (hq : readParams s.cfg ds = some q)
include hq

/-- A handler that succeeds leaves its reply, unless the driver input of R217 makes it fail. -/
theorem runCommand_of_some {t : State} {r : List Byte} (hh : handler cmd q s = some (t, r))
    (hd : (driverMayFail cmd && s.ports.driverFails) = false) :
    runCommand cmd ds s = t.leaveReply r := by simp [runCommand, hq, hd, hh]

/-- A handler that fails leaves the error reply, whatever the driver input says (R249). -/
theorem runCommand_of_none (hw : s.cfg.WF) (hh : handler cmd q s = none) :
    runCommand cmd ds s =
      .next { s with link := s.link.setReply [chError], result := .none } := by
  simp [runCommand, hq, hh, State.raiseCmdError_eq hw]

end ReadParameters

/-- A reply longer than the reply buffer is refused (U7). -/
theorem State.leaveReply_of_lt {r : List Byte} (hr : s.cfg.txBufSize < r.length) :
    s.leaveReply r = .refused .replyTooLong := if_neg (Nat.not_le.2 hr)

/-! ### The inquiry (R204) -/

/-- The reply of `I` for channel `c` with this name. -/
def inquiryReply (c : Byte) (name : List Byte) : List Byte :=
  replyTo .I c (name.flatMap hex8 ++ hex8 0)

/-- The id, the channel's and the terminator's two characters each, and two per byte of the name. -/
theorem inquiryReply_length (c : Byte) (name : List Byte) :
    (inquiryReply c name).length = 5 + 2 * name.length := by
  have hname : (name.flatMap hex8).length = 2 * name.length := by
    simp [List.length_flatMap, Nat.mul_comm]
  simp only [inquiryReply, replyTo, List.length_append, List.length_cons, hex8_length, hname]
  omega

theorem handleInquiry_named (hc : c.toNat < s.cfg.nch) (hn : s.sensorName c = some name) :
    handleInquiry c s = some (s, inquiryReply c name) := by
  simp [handleInquiry, hc, hn, inquiryReply]

theorem handleInquiry_fails (hf : s.cfg.nch ≤ c.toNat ∨ s.sensorName c = none) :
    handleInquiry c s = none := by
  rcases hf with hc | hn
  · simp [handleInquiry, Nat.not_lt.2 hc]
  · simp [handleInquiry, hn]

/-- With a name at the port the command leaves the inquiry's reply. -/
theorem exec_cmdI_named (hb : hexByte s.cfg h l = some c) (hc : c.toNat < s.cfg.nch)
    (hn : s.sensorName c = some name) :
    exec (.cmdI h l) s = s.leaveReply (inquiryReply c name) :=
  runCommand_of_some (cmd := .I) (readParams_pair hb) (handleInquiry_named hc hn) rfl

/-- Outside the bank, or with no name at the port, the command leaves the error reply. -/
theorem exec_cmdI_fails (hw : s.cfg.WF) (hb : hexByte s.cfg h l = some c)
    (hf : s.cfg.nch ≤ c.toNat ∨ s.sensorName c = none) :
    exec (.cmdI h l) s = .next { s with link := s.link.setReply [chError], result := .none } :=
  runCommand_of_none (cmd := .I) (readParams_pair hb) hw (handleInquiry_fails hf)

/-! ### The obligation -/

/-- Settles O50: the reply of `5 + 2 * name.length` bytes is left pending exactly when it fits. -/
theorem inquiryRepliesWithName : Obligations.InquiryRepliesWithName := by
  intro s h l c hw hb
  refine ⟨fun hc name hn => ?_, fun hf => ⟨_, exec_cmdI_fails hw hb hf, Link.onlyReply s _⟩⟩
  rw [exec_cmdI_named hb hc hn, ← inquiryReply_length c name]
  exact ⟨fun hfit => ⟨_, State.leaveReply_of_le hfit, Link.onlyReply s _⟩, State.leaveReply_of_lt⟩

end Sys2Proof.Machine
end

section
/-! SUPPORT. Decoding and encoding (spec/30_encoding.md R84, R86, R91; spec/44_commands.md R200): that
each undoes the other at the operation port, and what a payload is read as. -/

namespace Sys2Proof

/-! ### Requests at the operation port (R91) -/

/-- The bytes a row's operand reader accepts are those that encode the operation it gives. The cases
are grouped by the operands of the row. -/
theorem encode_of_readOperands {op : OpCode} {bs : List Byte} {i : Instr}
    (h : readOperands op bs = .ok i) : encode i = op.code :: bs ∧ i.port = .operation := by
  cases op <;>
    simp only [readOperands, readEnd_eq_ok, readByte_eq_ok, readSensor_eq_ok, readBool_eq_ok,
      readAvg_eq_ok, readSampleTime_eq_ok, Except.ok.injEq] at h
  case sysReset | sysTickIrq | bankCorrect | bankRestart | lnkPoll | lnkTx | lnkLedEnable =>
    obtain ⟨rfl, rfl⟩ := h
    exact ⟨rfl, rfl⟩
  case lutResolve | chGetPost | chLast | bankEnableSampling | chLoadPreset | chSavePreset | smpTick |
      smpGetPre | chGetPre | lnkRx =>
    obtain ⟨_, _, rfl, rfl, rfl⟩ := h
    exact ⟨rfl, rfl⟩
  case chSetPost | smpTask | smpSetPre | chSetPre =>
    obtain ⟨_, _, rfl, _, _, rfl, rfl, rfl⟩ := h
    exact ⟨rfl, rfl⟩
  case avgInit | avgLastAvg | avgLastCum | avgLastTs | avgGetDepth =>
    obtain ⟨a, _, rfl, rfl, rfl⟩ := h
    exact ⟨rfl, rfl⟩
  case avgSetDepth =>
    obtain ⟨a, _, rfl, d, _, rfl, rfl, rfl⟩ := h
    exact ⟨rfl, rfl⟩
  case avgCollect =>
    obtain ⟨a, _, rfl, v, ts, rfl, rfl⟩ := h
    exact ⟨rfl, rfl⟩
  case chFeed =>
    obtain ⟨c, _, rfl, v, ts, rfl, rfl⟩ := h
    exact ⟨rfl, rfl⟩
  case cmdDispatch =>
    subst h
    exact ⟨rfl, rfl⟩

/-- Settles O2: a request that decodes is a code of R91 and what its row's reader accepts. -/
theorem operationRequestHasOneReading : Obligations.OperationRequestHasOneReading := by
  intro bs i h
  obtain ⟨op, operands, rfl, hread⟩ := decodeOp_eq_ok.1 h
  exact encode_of_readOperands hread

/-- An operation of the operation port is read back from its bytes. The bytes of an averager, a sensor
and a Bool are those of their constructor; every other operand is its own bytes. -/
theorem decodeOp_encode {i : Instr} (h : i.port = .operation) : decodeOp (encode i) = .ok i := by
  cases i <;> cases h
  case sysReset | sysTickIrq | lutResolve | chSetPost | chGetPost | chLast | bankCorrect |
      bankRestart | chLoadPreset | chSavePreset | chSetPre | chGetPre | lnkRx | lnkPoll | lnkTx |
      lnkLedEnable | cmdDispatch => rfl
  case bankEnableSampling on => cases on <;> rfl
  case smpTick x | smpSetPre x _ | smpGetPre x => cases x <;> rfl
  case smpTask x hret => cases x <;> cases hret <;> rfl
  case avgInit a | avgSetDepth a _ | avgLastAvg a | avgLastCum a | avgLastTs a | avgGetDepth a =>
    obtain ⟨c, st⟩ := a
    cases st <;> rfl
  case avgCollect a v ts =>
    exact decodeOp_eq_ok.2 ⟨.avgCollect, _, rfl, by simp [readOperands]⟩
  case chFeed c v ts => exact decodeOp_eq_ok.2 ⟨.chFeed, _, rfl, by simp [readOperands]⟩

/-! ### Payloads (R84, R86) -/

theorem encode_commandInstr {cmd : CmdId} {ps : List Byte} (h : ps.length = 2 * cmd.params) :
    encode (commandInstr cmd ps) = cmd.byte :: ps := by
  cases cmd <;> simp only [CmdId.params] at h
  case E | S | X => 
    obtain rfl := List.length_eq_zero_iff.1 h
    rfl
  case P | O =>
    match ps, h with
    | [c1, c0, e1, e0], _ => rfl
  all_goals
    match ps, h with
    | [c1, c0], _ => rfl

theorem decodePayload_command {cmd : CmdId} {ps : List Byte} (h : ps.length = 2 * cmd.params)
    (extra : List Byte) : decodePayload (cmd.byte :: (ps ++ extra)) = commandInstr cmd ps := by
  simp [decodePayload, parsePayload_ok, ← h]

/-- Settles O3: the first three checks of the dispatch, one by one. -/
theorem payloadDecodesByTable : Obligations.PayloadDecodesByTable :=
  ⟨fun _ _ extra h => ⟨encode_commandInstr h, decodePayload_command h extra⟩, rfl,
    fun _ _ h => by simp [decodePayload, parsePayload_unknown h],
    fun _ _ h => by simp [decodePayload, parsePayload_short h]⟩

/-- A wire command is read back from its id and its parameters' characters; the error reply's byte is
the id of no command (R88). -/
theorem decodePayload_encode {i : Instr} (h : i.port = .command) : decodePayload (encode i) = i := by
  cases i <;> cases h <;> rfl

/-- Settles O1: the round trip at each of the two ports. -/
theorem decodeEncodeRoundTrip : Obligations.DecodeEncodeRoundTrip := by
  intro i
  cases hp : i.port with
  | operation => exact decodeOp_encode hp
  | command => exact congrArg Except.ok (decodePayload_encode hp)

/-- Settles O4: each word is run through the decoder. -/
theorem wordsDecodeAsTabled : Obligations.WordsDecodeAsTabled :=
  ⟨rfl, rfl, rfl, rfl, rfl, rfl, rfl, rfl, rfl, rfl⟩

end Sys2Proof
end

section
/-! SUPPORT. Hex digits on input and output (spec/30_encoding.md R83 to R85; spec/20_memory.md R62). -/

namespace Sys2Proof.Machine

/-! ### Digits -/

/-- The four ranges of `HEXVAL`, which exclude each other. -/
theorem hexVal_ranges (c : Config) (b : Byte) :
    (0x30 ≤ b.toNat → b.toNat ≤ 0x39 → hexVal c b = some (BitVec.ofNat 4 (b.toNat - 0x30))) ∧
    (0x41 ≤ b.toNat → b.toNat ≤ 0x46 → hexVal c b = some (BitVec.ofNat 4 (b.toNat - 0x41 + 10))) ∧
    (0x61 ≤ b.toNat → b.toNat ≤ 0x66 → hexVal c b = c.lowerHex.getD (b.toNat - 0x61) none) ∧
    (b.toNat < 0x30 ∨ (0x39 < b.toNat ∧ b.toNat < 0x41) ∨ (0x46 < b.toNat ∧ b.toNat < 0x61) ∨
      0x66 < b.toNat → hexVal c b = none) := by
  unfold hexVal
  refine ⟨fun h1 h2 => if_pos ⟨h1, h2⟩, fun h1 h2 => ?_, fun h1 h2 => ?_, fun h => ?_⟩
  · rw [if_neg (by omega), if_pos ⟨h1, h2⟩]
  · rw [if_neg (by omega), if_neg (by omega), if_pos ⟨h1, h2⟩]
  · rw [if_neg (by omega), if_neg (by omega), if_neg (by omega)]

theorem hexChr_toNat (n : Nibble) :
    (n.toNat < 10 → (hexChr n).toNat = 0x30 + n.toNat) ∧
    (10 ≤ n.toNat → (hexChr n).toNat = 0x41 + (n.toNat - 10)) := by
  have := n.isLt
  unfold hexChr
  refine ⟨fun h => ?_, fun h => ?_⟩
  · rw [if_pos h, BitVec.toNat_ofNat, Nat.mod_eq_of_lt (by omega)]
  · rw [if_neg (by omega), BitVec.toNat_ofNat, Nat.mod_eq_of_lt (by omega)]

/-! ### The fields of a word -/

theorem extract_high_append_low (v : Byte) : v.extractLsb' 4 4 ++ v.extractLsb' 0 4 = v :=
  (BitVec.extractLsb'_append_extractLsb'_eq_extractLsb' rfl).trans BitVec.extractLsb'_eq_self

/-- What `hex8` writes reads back, under every `HEXVAL`. -/
theorem hexByte_hex8 (c : Config) (v : Byte) :
    hexByte c (hexChr (v.extractLsb' 4 4)) (hexChr (v.extractLsb' 0 4)) = some v := by
  simp only [hexByte, hexVal_hexChr, extract_high_append_low]

/-- A field of a word is its quotient by the field's weight, as a number of the field's width. -/
theorem extractLsb'_eq_ofNat {w : Nat} (v : BitVec w) (k n : Nat) :
    v.extractLsb' k n = BitVec.ofNat n (v.toNat / 2 ^ k) := by
  simp [← BitVec.toNat_inj, Nat.shiftRight_eq_div_pow]

theorem ofNat_mod_two_pow (n m : Nat) : BitVec.ofNat n (m % 2 ^ n) = BitVec.ofNat n m := by
  simp [← BitVec.toNat_inj]

/-- Settles O5: every digit is a field of its word, and a field is a quotient. -/
theorem hexDigitsInAndOut : Obligations.HexDigitsInAndOut := by
  refine ⟨hexVal_ranges, hexChr_toNat, fun c v h l hv => ?_, fun v => ?_, fun v => ?_, fun v => ?_⟩
  · obtain ⟨rfl, rfl⟩ : hexChr (v.extractLsb' 4 4) = h ∧ hexChr (v.extractLsb' 0 4) = l := by
      simpa [hex8] using hv
    exact hexByte_hex8 c v
  · simp only [hex8, extractLsb'_eq_ofNat, ofNat_mod_two_pow, Nat.pow_zero, Nat.div_one]
  · simp only [hex16, extractLsb'_eq_ofNat, ofNat_mod_two_pow, Nat.pow_zero, Nat.div_one]
  · simp only [hex32, extractLsb'_eq_ofNat, ofNat_mod_two_pow, Nat.pow_zero, Nat.div_one]

end Sys2Proof.Machine
end

section
/-! SUPPORT. Averager and sample operands (spec/93_implementation_defined.md U5, U6): what `AVG.INIT`
answers for an averager of the bank, and what is refused. -/

namespace Sys2Proof.Machine

variable {s : State} {a : AvgRef} {x : Averager Sample}

theorem exec_avgInit (hx : s.averager? a = some x) :
    exec (.avgInit a) s = .next
      { s.setAverager a (x.init (sampleArith s.cfg).szero) with result := .none } := by
  simp [exec, execAvgInit, hx, State.answer_eq]

/-- Settles O6: the averager that is put back is the cleared one, at depth 0. -/
theorem avgInitClears : Obligations.AvgInitClears := fun _ _ x hx =>
  ⟨_, exec_avgInit hx, x.init_eq _ ▸ State.onlyAverager_setAverager hx _ _⟩

/-! ### Operands outside the bank -/

theorem State.Inv.averager?_eq_none_iff (h : s.Inv) :
    s.averager? a = none ↔ s.cfg.nch ≤ a.channel.toNat := by
  refine ⟨fun hn => Nat.not_lt.1 fun hc => ?_, fun hc => ?_⟩
  · obtain ⟨x, hx⟩ := h.averager?_some hc
    simp [hx] at hn
  · simp [State.averager?, State.channel?_eq_none hc]

/-- Every operation on an averager is refused when the operand names none (U6). -/
theorem exec_avg_refused (hx : s.averager? a = none) :
    exec (.avgInit a) s = .refused .noSuchAverager ∧
    (∀ d, exec (.avgSetDepth a d) s = .refused .noSuchAverager) ∧
    (∀ v ts, exec (.avgCollect a v ts) s = .refused .noSuchAverager) ∧
    exec (.avgLastAvg a) s = .refused .noSuchAverager ∧
    exec (.avgLastCum a) s = .refused .noSuchAverager ∧
    exec (.avgLastTs a) s = .refused .noSuchAverager ∧
    exec (.avgGetDepth a) s = .refused .noSuchAverager := by
  simp [exec, execAvgInit, execAvgSetDepth, execAvgCollect, execAvgLastAvg, execAvgLastCum,
    execAvgLastTs, execAvgGetDepth, hx]

theorem exec_avgCollect_noSample (hx : s.averager? a = some x) {v : Sample}
    (hv : sampleLegal s.cfg v = false) (ts : U32) :
    exec (.avgCollect a v ts) s = .refused .noSuchSample := by
  simp [exec, execAvgCollect, hx, hv]

theorem exec_chFeed_outside {c : Byte} (hc : s.cfg.nch ≤ c.toNat) (v : Sample) (ts : U32) :
    exec (.chFeed c v ts) s = .refused .noSuchChannel := by
  simp [exec, execChFeed, State.channel?_eq_none hc]

theorem exec_chFeed_noSample {c : Byte} {ch : Channel} (hch : s.channel? c = some ch) {v : Sample}
    (hv : sampleLegal s.cfg v = false) (ts : U32) :
    exec (.chFeed c v ts) s = .refused .noSuchSample := by
  simp [exec, execChFeed, hch, hv]

/-- Settles O10: the bank of a state that meets the invariant has every channel below `nch`. -/
theorem operandsOutsideBankRefused : Obligations.OperandsOutsideBankRefused := by
  intro s a d v ts hs
  refine ⟨hs.averager?_eq_none_iff, fun hc => ?_, fun hc hv => ?_⟩
  · have hrefused := exec_avg_refused (hs.averager?_eq_none_iff.2 hc)
    simp [hrefused, exec_chFeed_outside hc]
  · obtain ⟨x, hx⟩ := hs.averager?_some hc
    obtain ⟨ch, hch⟩ := hs.channel?_some hc
    exact ⟨exec_avgCollect_noSample hx hv ts, exec_chFeed_noSample hch hv ts⟩

end Sys2Proof.Machine
end

section
/-! SUPPORT. Reset (spec/70_reset_and_hazards.md R270; spec/10_state.md R36): the units it constructs
meet their invariants, and the obligations about it. -/

namespace Sys2Proof.Machine

variable {s : State} {cfg : Config}

/-! ### The units after a reset -/

theorem constructAverager_inv (draw c : Nat) (st : Stage) {cap : Nat} (hpos : 0 < cap)
    (hmax : cap ≤ 256) : (constructAverager cfg draw c st cap).Inv (sampleArith cfg).szero where
  capBound := by simpa [constructAverager, Averager.cap] using hmax
  depthBound := by simpa [constructAverager, Averager.cap] using hpos
  cursorBound h := absurd rfl h
  cursorZero _ := rfl
  cleared x hx := List.eq_of_mem_replicate (List.mem_of_mem_drop hx)
  notConsolidated _ := rfl

theorem constructAverager_typed (draw c : Nat) (st : Stage) (cap : Nat) :
    (constructAverager cfg draw c st cap).Typed cfg where
  buf x hx := by rw [List.eq_of_mem_replicate hx]; exact sampleLegal_szero cfg
  acc := sampleLegal_szero cfg
  lastAvg := sampleLegal_freeSample ..

/-- The capacities of every channel are legal (R6(a)). -/
theorem caps_legal (hw : cfg.WF) {c : Nat} (hc : c < cfg.nch) :
    1 ≤ cfg.capInner c ∧ cfg.capInner c ≤ 256 ∧ 1 ≤ cfg.capOuter c ∧ cfg.capOuter c ≤ 256 := by
  obtain ⟨⟨hlen, hlegal⟩, -⟩ := hw
  refine hlegal (cfg.caps.getD c ⟨0, 0⟩) ?_
  rw [List.getD_eq_getElem _ _ (hlen ▸ hc)]
  exact List.getElem_mem _

theorem constructChannel_inv (hw : cfg.WF) (draw : Nat) {c : Nat} (hc : c < cfg.nch) :
    (constructChannel cfg draw c).Inv cfg c := by
  obtain ⟨hi, hi', ho, ho'⟩ := caps_legal hw hc
  exact ⟨constructAverager_inv _ _ _ hi hi', List.length_replicate, constructAverager_typed ..,
    constructAverager_inv _ _ _ ho ho', List.length_replicate, constructAverager_typed ..⟩

/-- A sampler after reset has the prescaler of the configuration, set as R153 sets one. -/
theorem resetSamplerOp_inv (draw : Nat) (x : Sensor) (m : Sampler) :
    (resetSamplerOp cfg draw x m).Inv := by
  obtain ⟨htens, hbound, hcounter⟩ := m.setPre_inv cfg.smpResetPrescaler
  exact ⟨htens, hbound, hcounter⟩

theorem resetLinkOp_inv (draw : Nat) : (resetLinkOp cfg draw).Inv cfg where
  rxSize := by simp [resetLinkOp, freeBytes]
  rxLen := Nat.zero_le _
  txSize := by simp [resetLinkOp, freeBytes]
  txLen := Nat.zero_le _
  idle _ := rfl
  payload := by simp [resetLinkOp]
  reply h := by cases h

/-! ### The state after a reset -/

/-- The state that `SYS.RESET` leaves. -/
def State.afterReset (s : State) : State :=
  { s with
    channels := (List.range s.cfg.nch).map (constructChannel s.cfg s.draws)
    opc := resetSamplerOp s.cfg s.draws .opc s.opc
    mox := resetSamplerOp s.cfg s.draws .mox s.mox
    ticks := 0
    link := resetLinkOp s.cfg s.draws
    boardId := s.ports.addressPins
    result := .none
    draws := s.draws + 1 }

theorem exec_sysReset (s : State) : exec .sysReset s = .next s.afterReset := rfl

theorem State.afterReset_channel {c : Nat} {ch : Channel} (h : s.afterReset.channels[c]? = some ch) :
    c < s.cfg.nch ∧ ch = constructChannel s.cfg s.draws c := by
  obtain ⟨k, hk, rfl⟩ := Option.map_eq_some_iff.1 (List.getElem?_map.symm.trans h)
  obtain ⟨hc, rfl⟩ := List.getElem?_eq_some_iff.1 hk
  exact ⟨by simpa using hc, by simp⟩

theorem State.Inv.afterReset (h : s.Inv) : s.afterReset.Inv where
  config := h.config
  count := by simp [State.afterReset]
  channels c ch hch := by
    obtain ⟨hc, rfl⟩ := State.afterReset_channel hch
    exact constructChannel_inv h.config _ hc
  opc := resetSamplerOp_inv ..
  mox := resetSamplerOp_inv ..
  link := resetLinkOp_inv _
  store := h.store
  names := h.names

/-- Settles O57: every unit is the one that its constructor gives. -/
theorem sysResetInitialises : Obligations.SysResetInitialises := by
  intro s
  refine ⟨_, exec_sysReset s, by simp [State.afterReset], fun c ch hch => ?_, fun x => ?_, rfl, rfl,
    rfl, rfl, rfl, rfl, rfl, rfl, rfl, rfl, rfl, rfl, rfl, rfl, State.Inv.afterReset⟩
  · obtain ⟨-, rfl⟩ := State.afterReset_channel hch
    exact ⟨rfl, rfl⟩
  · have hp10 (m : Sampler) := m.setPre_p10 s.cfg.smpResetPrescaler
    cases x
    · exact ⟨hp10 s.opc, rfl, rfl, rfl⟩
    · exact ⟨hp10 s.mox, rfl, rfl, rfl⟩

/-! ### The model's own state after reset -/

/-- Settles O52: every invariant is checked on the state. -/
theorem resetMeetsInvariant : Obligations.ResetMeetsInvariant := State.inv_of_check rfl

/-- Settles O58: every channel of the state holds the same pair of averagers. -/
theorem resetStateHoldsTable : Obligations.ResetStateHoldsTable := by
  refine ⟨rfl, fun c ch hch a ha => ?_, fun x => ?_, rfl, rfl, rfl, rfl, rfl, rfl, rfl, rfl, rfl,
    Memory.wf_nil⟩
  · obtain rfl := List.eq_of_mem_replicate (List.mem_of_getElem? hch)
    obtain rfl : a = resetAverager 16 := ha.elim id id
    exact ⟨rfl, rfl, rfl, rfl, rfl⟩
  · cases x <;> exact ⟨rfl, rfl, rfl⟩

end Sys2Proof.Machine
end

section
/-! SUPPORT. The machine as a whole: every operation keeps the invariant, which operations are refused,
what a delivery and a step do, and the obligations about the step (spec/10_state.md R23, R27, R29;
spec/60_exceptions.md R240). -/

namespace Sys2Proof.Machine

variable {s : State}

/-! ### An operation that is well formed completes and keeps the invariant -/

/-- The operation completes in a state that meets the invariant. -/
def CompletesSafely (o : Outcome) : Prop := ∃ t, o = .next t ∧ t.Inv

theorem State.Inv.answer (h : s.Inv) (r : OpResult) : CompletesSafely (s.answer r) :=
  ⟨_, rfl, h.withResult r⟩

/-- An operation that puts back an averager keeps the invariant when the new averager meets its own. -/
theorem State.Inv.answerAverager (h : s.Inv) {a : AvgRef} {x v : Averager Sample}
    (hx : s.averager? a = some x)
    (hv : v.Inv (sampleArith s.cfg).szero ∧ v.cap = x.cap) (ht : v.Typed s.cfg) (r : OpResult) :
    CompletesSafely ((s.setAverager a v).answer r) :=
  (h.setAverager hx hv.1 hv.2 ht).answer r

theorem State.Inv.tickIrq (h : s.Inv) : CompletesSafely (execSysTickIrq s) :=
  ⟨_, rfl, ((h.setSampler .opc (h.opc.tick (s.ticks + 1))).setSampler .mox
    (h.mox.tick (s.ticks + 1))).congr rfl rfl rfl rfl rfl rfl rfl⟩

theorem State.Inv.avgCollect (h : s.Inv) {a : AvgRef} {x : Averager Sample} {v : Sample}
    (hx : s.averager? a = some x) (hv : sampleLegal s.cfg v = true) (ts : U32) :
    CompletesSafely (exec (.avgCollect a v ts) s) := by
  obtain ⟨p, y, hy⟩ := (h.averager hx).collect (A := sampleArith s.cfg) v ts
  rw [exec_avgCollect_of_collect hx hv hy]
  exact h.answerAverager hx ⟨(h.averager hx).collect_inv hy, Averager.collect_cap hy⟩
    ((h.averagerTyped hx).collect hv hy) _

theorem State.Inv.chFeed (h : s.Inv) {c : Byte} {ch : Channel} {v : Sample}
    (hch : s.channel? c = some ch) (hv : sampleLegal s.cfg v = true) (ts : U32) :
    CompletesSafely (exec (.chFeed c v ts) s) := by
  obtain ⟨p, ch', hfeed, hch'⟩ := (h.channel hch).feed hv ts
  rw [exec_chFeed_of_feed hch hv hfeed]
  exact (h.setChannel hch').answer _

theorem State.Inv.smpTask (h : s.Inv) (x : Sensor) (hret : Bool) :
    CompletesSafely (execSmpTask x hret s) := by
  have htaken := h.setSampler x (h.sampler x).take
  unfold execSmpTask
  dsimp only
  split
  · exact (htaken.withEvents _).answer _
  · exact htaken.answer _

theorem State.Inv.chSetPre (h : s.Inv) (c e : Byte) : CompletesSafely (execChSetPre c e s) := by
  unfold execChSetPre
  split
  next t ht => exact (h.setChannelPre ht).answer _
  next => exact h.answer _

theorem State.Inv.chLoadPreset (h : s.Inv) (c : Byte) : CompletesSafely (execChLoadPreset c s) := by
  unfold execChLoadPreset
  split
  next t ht => exact (h.loadPreset ht).answer _
  next => exact h.answer _

theorem State.Inv.chSavePreset (h : s.Inv) (c : Byte) : CompletesSafely (execChSavePreset c s) := by
  unfold execChSavePreset
  split
  next t ht => exact (h.savePreset ht).answer _
  next => exact h.answer _

/-- From a state that meets the invariant every well-formed operation completes and keeps it. -/
theorem State.Inv.exec (h : s.Inv) {i : Instr} (hi : i.wellFormed s.cfg = true) :
    CompletesSafely (exec i s) := by
  cases i <;> simp only [Instr.wellFormed, Bool.and_eq_true, decide_eq_true_eq] at hi
  case sysReset => exact ⟨_, rfl, h.afterReset⟩
  case sysTickIrq => exact h.tickIrq
  case avgInit a =>
    obtain ⟨x, hx⟩ := h.averager?_some hi
    rw [exec_avgInit hx]
    exact h.answerAverager hx (h.averager hx).init_inv
      (Averager.clearedTo_typed (h.averagerTyped hx) 0) _
  case avgSetDepth a d =>
    obtain ⟨x, hx⟩ := h.averager?_some hi
    rw [exec_avgSetDepth hx]
    exact h.answerAverager hx ((h.averager hx).setDepth_inv d) ((h.averagerTyped hx).setDepth d) _
  case avgCollect a v ts =>
    obtain ⟨hc, hv⟩ := hi
    obtain ⟨x, hx⟩ := h.averager?_some hc
    exact h.avgCollect hx hv ts
  case avgLastAvg a | avgLastCum a | avgLastTs a | avgGetDepth a =>
    obtain ⟨x, hx⟩ := h.averager?_some hi
    simp only [exec_avgLastAvg hx, exec_avgLastCum hx, exec_avgLastTs hx, exec_avgGetDepth hx]
    exact h.answer _
  case lutResolve | chGetPost | chLast | smpGetPre | chGetPre => exact h.answer _
  case chSetPost c req => exact (h.setChannelPost c req).answer _
  case chFeed c v ts =>
    obtain ⟨hc, hv⟩ := hi
    obtain ⟨ch, hch⟩ := h.channel?_some hc
    exact h.chFeed hch hv ts
  case bankCorrect => exact h.correctBank.answer _
  case bankRestart => exact h.restartBank.answer _
  case bankEnableSampling on => exact (h.enableSampling on).answer _
  case chLoadPreset c => exact h.chLoadPreset c
  case chSavePreset c => exact h.chSavePreset c
  case smpTick x => exact (h.setSampler x ((h.sampler x).tick s.ticks)).answer _
  case smpTask x hret => exact h.smpTask x hret
  case smpSetPre x e => exact (h.setSampler x (Sampler.setPre_inv _ e)).answer _
  case chSetPre c e => exact h.chSetPre c e
  case lnkRx b => exact h.lnkRx b
  case lnkPoll => exact h.lnkPoll
  case lnkTx => exact h.lnkTx
  case lnkLedEnable => exact h.lnkLedEnable
  case cmdDispatch p => exact h.dispatch p
  case cmdE => exact h.runCommand .E []
  case cmdS => exact h.runCommand .S []
  case cmdX => exact h.runCommand .X []
  case cmdI | cmdP | cmdQ | cmdO | cmdN | cmdG | cmdY | cmdL | cmdW =>
    exact h.runCommand _ _
  -- the error reply is what an empty payload is answered with (R200)
  case errorReply => exact h.dispatch []

/-! ### An operation that is not well formed is refused, or is a dispatch -/

/-- Either the operation completes in a state that meets the invariant, or it is refused. -/
def CompletesOrRefused (o : Outcome) : Prop := CompletesSafely o ∨ ∃ r, o = .refused r

theorem State.Inv.exec_illFormed (h : s.Inv) {i : Instr} (hi : i.wellFormed s.cfg = false) :
    CompletesOrRefused (Machine.exec i s) := by
  cases i <;> simp only [Instr.wellFormed, Bool.and_eq_false_iff, decide_eq_false_iff_not,
    Nat.not_lt, Bool.true_eq_false] at hi
  case avgInit a | avgSetDepth a _ | avgLastAvg a | avgLastCum a | avgLastTs a | avgGetDepth a =>
    exact .inr ⟨.noSuchAverager, by simp [exec_avg_refused (h.averager?_eq_none_iff.2 hi)]⟩
  case avgCollect a v ts =>
    cases hx : s.averager? a with
    | none => exact .inr ⟨.noSuchAverager, by simp [exec_avg_refused hx]⟩
    | some x =>
      have hc : ¬ s.cfg.nch ≤ a.channel.toNat := fun hc => by
        simp [h.averager?_eq_none_iff.2 hc] at hx
      exact .inr ⟨_, exec_avgCollect_noSample hx (hi.resolve_left hc) ts⟩
  case chFeed c v ts =>
    by_cases hc : s.cfg.nch ≤ c.toNat
    · exact .inr ⟨_, exec_chFeed_outside hc v ts⟩
    · obtain ⟨ch, hch⟩ := h.channel?_some (Nat.not_le.1 hc)
      exact .inr ⟨_, exec_chFeed_noSample hch (hi.resolve_left hc) ts⟩
  case cmdDispatch p => exact .inl (h.dispatch p)

/-! ### The environment's stimuli and the step (R4, R34, R35) -/

theorem State.deliver_operation {port : Port} {bytes : List Byte} {i : Instr}
    (hi : decodeAt port bytes = .ok i) : s.deliver (.request port bytes) = Machine.exec i s := by
  simp only [State.deliver, hi]

theorem State.deliver_noOperation {port : Port} {bytes : List Byte} {e : DecodeError}
    (he : decodeAt port bytes = .error e) :
    s.deliver (.request port bytes) = .refused (.noSuchOperation e) := by
  simp only [State.deliver, he]

theorem State.deliver_legalName {c : Byte} {name : Option (List Byte)}
    (h : name.all (nameLegal s.cfg c) = true) : s.deliver (.setSensorName c name) = .next
      { s with ports := { s.ports with
          sensorNames := setName s.ports.sensorNames c.toNat name } } := if_pos h

theorem State.deliver_illegalName {c : Byte} {name : Option (List Byte)}
    (h : ¬ name.all (nameLegal s.cfg c) = true) :
    s.deliver (.setSensorName c name) = .refused .illFormedName := if_neg h

theorem step_illFormed (h : ¬ s.cfg.WF) : step s = .refused .illFormedConfig := if_neg h

theorem step_idle (hw : s.cfg.WF) (h : s.inbox = []) : step s = .next s := by
  rw [step, if_pos hw, h]

theorem step_delivers (hw : s.cfg.WF) {st : Stimulus} {rest : List Stimulus}
    (h : s.inbox = st :: rest) : step s = State.deliver { s with inbox := rest } st := by
  rw [step, if_pos hw, h]

/-! ### A step keeps the invariant or is refused -/

theorem nameFits_of_nameLegal {cfg : Config} {c : Byte} {name : List Byte}
    (h : nameLegal cfg c name = true) : nameFits cfg name = true := by
  simp only [nameLegal, Bool.and_eq_true] at h
  obtain ⟨⟨-, hbytes⟩, hlen⟩ := h
  exact Bool.and_eq_true_iff.2 ⟨hbytes, hlen⟩

/-- Setting a name adds no other. -/
theorem mem_setName {names : List (Option (List Byte))} {c : Nat} {name : Option (List Byte)}
    {n : List Byte} (h : some n ∈ setName names c name) : some n ∈ names ∨ name = some n := by
  rcases List.mem_or_eq_of_mem_set h with hmem | heq
  · exact .inl ((List.mem_append.1 hmem).resolve_right fun hn => by
      simp [List.mem_replicate] at hn)
  · exact .inr heq.symm

theorem State.Inv.deliver (h : s.Inv) (st : Stimulus) : CompletesOrRefused (s.deliver st) := by
  cases st with
  | request port bytes =>
    cases hd : decodeAt port bytes with
    | error e => exact .inr ⟨_, State.deliver_noOperation hd⟩
    | ok i =>
      rw [State.deliver_operation hd]
      cases hi : i.wellFormed s.cfg with
      | true => exact .inl (h.exec hi)
      | false => exact h.exec_illFormed hi
  | setSensorName c name =>
    by_cases hlegal : name.all (nameLegal s.cfg c) = true
    · refine .inl ⟨_, State.deliver_legalName hlegal, { h with names := fun n hn => ?_ }⟩
      rcases mem_setName hn with hold | rfl
      · exact h.names n hold
      · exact nameFits_of_nameLegal hlegal
    · exact .inr ⟨_, State.deliver_illegalName hlegal⟩
  | setSamplingEnabled on => exact .inl ⟨_, rfl, h.congr rfl rfl rfl rfl rfl rfl rfl⟩
  | setAddressPins v => exact .inl ⟨_, rfl, h.congr rfl rfl rfl rfl rfl rfl rfl⟩
  | setDriverFails on => exact .inl ⟨_, rfl, h.congr rfl rfl rfl rfl rfl rfl rfl⟩
  | writeStore addr b => exact .inl ⟨_, rfl, h.withNv (Memory.write_wf h.store addr b)⟩

theorem State.Inv.step (h : s.Inv) : CompletesOrRefused (Machine.step s) := by
  cases hs : s.inbox with
  | nil => exact .inl ⟨s, step_idle h.config hs, h⟩
  | cons st rest =>
    rw [step_delivers h.config hs]
    exact (h.withInbox rest).deliver st

/-! ### The names of the sensors (R34, U7) -/

theorem setName_getD_same (names : List (Option (List Byte))) (c : Nat) (name : Option (List Byte)) :
    (setName names c name).getD c none = name := by
  have hc : c < (names ++ List.replicate (c + 1 - names.length) none).length := by
    simp only [List.length_append, List.length_replicate]; omega
  rw [List.getD_eq_getElem?_getD, setName, List.getElem?_set_self hc, Option.getD_some]

/-- A channel without an entry has no name, so the padding names no channel. -/
theorem setName_getD_ne (names : List (Option (List Byte))) {c d : Nat} (h : d ≠ c)
    (name : Option (List Byte)) : (setName names c name).getD d none = names.getD d none := by
  simp only [List.getD_eq_getElem?_getD, setName, List.getElem?_set_ne h.symm, List.getElem?_append,
    List.getElem?_replicate]
  split
  · rfl
  next hd =>
    rw [List.getElem?_eq_none (Nat.not_lt.1 hd)]
    split <;> rfl

/-- The names the port may give, in the words of U7. -/
theorem all_nameLegal_iff {cfg : Config} {c : Byte} {name : Option (List Byte)} :
    name.all (nameLegal cfg c) = true ↔ ∀ n, name = some n →
      c.toNat < cfg.nch ∧ (0 : Byte) ∉ n ∧ 5 + 2 * n.length ≤ cfg.txBufSize := by
  cases name with
  | none => simp
  | some n =>
    have hzero : (n.all fun b => b != 0) = true ↔ (0 : Byte) ∉ n := by
      rw [List.all_eq_true]
      exact ⟨fun h h0 => by simpa using h 0 h0, fun h x hx => bne_iff_ne.2 fun h0 => h (h0 ▸ hx)⟩
    rw [Option.all_some, nameLegal, Bool.and_eq_true, Bool.and_eq_true, hzero, decide_eq_true_iff,
      decide_eq_true_iff, and_assoc]
    simp

/-! ### The obligations -/

/-- Settles O53: a step completes only in a state that meets the invariant. -/
theorem stepKeepsInvariant : Obligations.StepKeepsInvariant := by
  intro s t h ht
  rcases h.step with ⟨u, hu, hinv⟩ | ⟨r, hr⟩
  · rw [hu, next_inj] at ht
    exact ht ▸ hinv
  · simp [hr] at ht

/-- Settles O54: a step completes or is refused, and a well-formed operation completes. -/
theorem nothingHaltsTheBlock : Obligations.NothingHaltsTheBlock := by
  refine ⟨fun s h => ?_, fun s i h hi => ?_⟩
  · rcases h.step with ⟨t, ht, -⟩ | ⟨r, hr⟩
    · rw [ht]; rfl
    · rw [hr]; rfl
  · obtain ⟨t, ht, -⟩ := h.exec hi
    exact ⟨t, ht⟩

/-- Settles O51: the first stimulus is delivered, a request to what it decodes to. -/
theorem stepRunsPresentedOperation : Obligations.StepRunsPresentedOperation := fun _ _ _ _ hw =>
  ⟨fun h => ⟨fun _ hi => (step_delivers hw h).trans (State.deliver_operation hi),
    fun _ he => (step_delivers hw h).trans (State.deliver_noOperation he)⟩, step_idle hw⟩

/-- Settles O60: the first stimulus is delivered, and a move of an input updates that input alone. -/
theorem stepMovesInputs : Obligations.StepMovesInputs := by
  refine ⟨fun _ => step_illFormed, ?_⟩
  intro s st rest hw hs u
  have hstep : step s = u.deliver st := step_delivers hw hs
  refine ⟨?_, ?_, ?_, ?_, ?_⟩
  · rintro on rfl; exact hstep
  · rintro on rfl; exact hstep
  · rintro v rfl; exact ⟨_, _, hstep, rfl, rfl, rfl, rfl⟩
  · rintro c name rfl legal
    refine ⟨fun h => ⟨_, hstep.trans (State.deliver_legalName (all_nameLegal_iff.2 h)),
      setName_getD_same .., fun d hd => setName_getD_ne _ ?_ _, rfl⟩,
      fun h => hstep.trans (State.deliver_illegalName (mt all_nameLegal_iff.1 h))⟩
    exact fun he => hd (BitVec.eq_of_toNat_eq he)
  · rintro a b rfl hm
    exact ⟨_, hstep, Memory.read_write_same hm a b, fun _ ha => Memory.read_write_ne _ ha b, rfl⟩

end Sys2Proof.Machine
end

section
/-! SUPPORT. What the units share (spec/10_state.md R28, R35; spec/20_memory.md R60, R72): which
operation writes the clock, the board's address, the output stream and the store. -/

namespace Sys2Proof.Machine

variable {s t u : State} {i : Instr}

/-- Settles O56: the laws of a store in canonical form. -/
theorem storeReadsBackWrites : Obligations.StoreReadsBackWrites := fun m a b h =>
  ⟨Memory.write_wf h a b, Memory.read_write_same h a b, fun _ ha => Memory.read_write_ne m ha b, rfl⟩

/-! ### Updates that leave everything shared alone -/

/-- Nothing the units share has changed, the store included. -/
def SharedKept (s t : State) : Prop := CommandFrame s t ∧ t.nv = s.nv

theorem SharedKept.refl (s : State) : SharedKept s s := ⟨⟨rfl, rfl, rfl, rfl, rfl, rfl, rfl⟩, rfl⟩

theorem HandlerFrame.commandFrame (h : HandlerFrame s t) : CommandFrame s t :=
  ⟨h.cfg, h.ticks, h.boardId, h.ports, h.inbox, h.tx, h.draws⟩

/-- Handing a result to the caller writes the result port only. -/
theorem CommandFrame.of_answer {r : OpResult} (ht : u.answer r = .next t) (h : CommandFrame s u) :
    CommandFrame s t := by
  rw [State.answer_eq, next_inj] at ht
  subst ht
  exact ⟨h.cfg, h.ticks, h.boardId, h.ports, h.inbox, h.tx, h.draws⟩

theorem SharedKept.of_answer {r : OpResult} (ht : u.answer r = .next t) (h : SharedKept s u) :
    SharedKept s t := by
  refine ⟨h.1.of_answer ht, ?_⟩
  rw [State.answer_eq, next_inj] at ht
  exact ht ▸ h.2

theorem sharedKept_setAverager (s : State) (a : AvgRef) (v : Averager Sample) :
    SharedKept s (s.setAverager a v) := by
  refine ⟨?_, ?_⟩
  · constructor <;> simp
  · simp

theorem sharedKept_setSampler (s : State) (x : Sensor) (v : Sampler) :
    SharedKept s (s.setSampler x v) := by
  refine ⟨?_, ?_⟩
  · constructor <;> simp
  · simp

theorem sharedKept_setChannel (s : State) (c : Byte) (ch : Channel) :
    SharedKept s (s.setChannel c ch) := ⟨⟨rfl, rfl, rfl, rfl, rfl, rfl, rfl⟩, rfl⟩

theorem sharedKept_withLink (s : State) (l : Link) : SharedKept s { s with link := l } :=
  ⟨⟨rfl, rfl, rfl, rfl, rfl, rfl, rfl⟩, rfl⟩

theorem runCommand_sharedKept {cmd : CmdId} {ds : List Byte} (h : runCommand cmd ds s = .next t)
    (hcmd : cmd ≠ .W) : SharedKept s t :=
  ⟨(runCommand_frame h).1, (runCommand_frame h).2 hcmd⟩

/-! ### The operations that write what is shared -/

/-- The operations that may write the clock, the board's address, the output stream or the store. -/
def writesShared : Instr → Bool
  | .sysReset | .sysTickIrq | .lnkTx | .chSavePreset _ | .cmdW _ _ | .cmdDispatch _ | .lnkRx _ => true
  | _ => false

/-- Every other operation leaves what is shared alone: it puts back averagers or samplers, changes the
link, or only hands out a result. -/
theorem exec_sharedKept (h : exec i s = .next t) (hi : writesShared i = false) : SharedKept s t := by
  cases i <;> cases hi <;> simp only [exec] at h
  case avgInit | avgSetDepth =>
    simp only [execAvgInit, execAvgSetDepth] at h
    split at h
    · cases h
    · exact (sharedKept_setAverager ..).of_answer h
  case avgLastAvg | avgLastCum | avgLastTs | avgGetDepth =>
    simp only [execAvgLastAvg, execAvgLastCum, execAvgLastTs, execAvgGetDepth] at h
    split at h
    · cases h
    · exact (SharedKept.refl s).of_answer h
  case avgCollect =>
    unfold execAvgCollect at h
    split at h
    · cases h
    · split at h
      · split at h
        · cases h
        · exact (sharedKept_setAverager ..).of_answer h
      · cases h
  case chFeed =>
    unfold execChFeed at h
    split at h
    · cases h
    · split at h
      · split at h
        · cases h
        · exact (sharedKept_setChannel ..).of_answer h
      · cases h
  case lutResolve | chGetPost | chLast | smpGetPre | chGetPre => exact (SharedKept.refl s).of_answer h
  case chSetPost c req =>
    obtain ⟨hf, hn⟩ := setChannelPost_frame c req s
    exact SharedKept.of_answer h ⟨hf.commandFrame, hn⟩
  case bankCorrect | bankRestart =>
    exact SharedKept.of_answer h ⟨⟨rfl, rfl, rfl, rfl, rfl, rfl, rfl⟩, rfl⟩
  case bankEnableSampling on =>
    obtain ⟨hf, hn⟩ := enableSampling_frame on s
    exact SharedKept.of_answer h ⟨hf.commandFrame, hn⟩
  case chLoadPreset =>
    unfold execChLoadPreset at h
    split at h
    next u hu =>
      obtain ⟨hf, hn⟩ := loadPreset_frame hu
      exact SharedKept.of_answer h ⟨hf.commandFrame, hn⟩
    next => exact (SharedKept.refl s).of_answer h
  case chSetPre =>
    unfold execChSetPre at h
    split at h
    next u hu =>
      obtain ⟨hf, hn, -⟩ := setChannelPre_frame hu
      exact SharedKept.of_answer h ⟨hf.commandFrame, hn⟩
    next => exact (SharedKept.refl s).of_answer h
  case smpTick | smpSetPre => exact (sharedKept_setSampler ..).of_answer h
  case smpTask x hret =>
    obtain ⟨hf, hn⟩ := sharedKept_setSampler s x (s.sampler x).take.2
    unfold execSmpTask at h
    dsimp only at h
    split at h
    · exact SharedKept.of_answer h
        ⟨⟨hf.cfg, hf.ticks, hf.boardId, hf.ports, hf.inbox, hf.tx, hf.draws⟩, hn⟩
    · exact SharedKept.of_answer h ⟨hf, hn⟩
  case lnkPoll | lnkLedEnable => exact (sharedKept_withLink ..).of_answer h
  case cmdE | cmdI | cmdS | cmdX | cmdP | cmdQ | cmdO | cmdN | cmdG | cmdY | cmdL =>
    simp only [execCmdE, execCmdI, execCmdS, execCmdX, execCmdP, execCmdQ, execCmdO, execCmdN,
      execCmdG, execCmdY, execCmdL] at h
    exact runCommand_sharedKept h (by decide)
  case errorReply => exact raiseCmdError_frame h

/-! ### The writers, one by one -/

theorem execChSavePreset_frame {c : Byte} (h : execChSavePreset c s = .next t) :
    CommandFrame s t := by
  unfold execChSavePreset at h
  split at h
  next u hu => exact (savePreset_frame hu).commandFrame.of_answer h
  next => exact (SharedKept.refl s).1.of_answer h

theorem execLnkTx_frame (h : execLnkTx s = .next t) :
    t = { s with tx := t.tx, link := t.link, result := t.result } := by
  unfold execLnkTx at h
  split at h
  · split at h
    · rw [State.answer_eq, next_inj] at h
      exact h ▸ rfl
    · cases h
  · rw [State.answer_eq, next_inj] at h
    exact h ▸ rfl

/-- A commit is the dispatch of the payload, in a state where only the link has changed (R178). -/
theorem commit_frame (h : s.commit = .next t) :
    CommandFrame s t ∧
      ((s.link.rxBuf.take s.link.rxLen).head? ≠ some CmdId.W.byte → t.nv = s.nv) := by
  by_cases hlen : s.link.rxLen ≤ s.link.rxBuf.length
  · rw [State.commit_eq hlen] at h
    obtain ⟨hf, hn⟩ := dispatch_frame h
    exact ⟨⟨hf.cfg, hf.ticks, hf.boardId, hf.ports, hf.inbox, hf.tx, hf.draws⟩, hn⟩
  · simp [State.commit, hlen] at h

/-- A received byte changes the link alone, unless it is a trailer that commits a payload. -/
theorem execLnkRx_frame {b : Byte} (h : execLnkRx b s = .next t) :
    CommandFrame s t ∧ ((b = chTrailer → s.link.rxBuf.head? ≠ some CmdId.W.byte) → t.nv = s.nv) := by
  rcases execLnkRx_cases b s with ⟨l, he, -⟩ | ⟨rfl, -, -, he⟩ | ⟨-, he⟩
  · rw [he, next_inj] at h
    subst h
    exact ⟨⟨rfl, rfl, rfl, rfl, rfl, rfl, rfl⟩, fun _ => rfl⟩
  · obtain ⟨hf, hn⟩ := commit_frame (he ▸ h)
    refine ⟨hf, fun hhead => hn ?_⟩
    rw [List.head?_take]
    split
    · simp
    · exact hhead rfl
  · simp [he] at h

/-- What a frame says of an operation, beside what `P` says of the store. -/
theorem CommandFrame.writers (hf : CommandFrame s t) {P : Prop} (hp : P) :
    t.cfg = s.cfg ∧ t.ports = s.ports ∧ t.inbox = s.inbox ∧
    (i ≠ .sysReset → t.boardId = s.boardId ∧ t.draws = s.draws) ∧
    (i ≠ .sysReset → i ≠ .sysTickIrq → t.ticks = s.ticks) ∧ (i ≠ .lnkTx → t.tx = s.tx) ∧ P :=
  ⟨hf.cfg, hf.ports, hf.inbox, fun _ => ⟨hf.boardId, hf.draws⟩, fun _ _ => hf.ticks,
    fun _ => hf.tx, hp⟩

/-- Settles O55: the seven operations that may write what is shared are looked at one by one. -/
theorem writersOfSharedState : Obligations.WritersOfSharedState := by
  intro i s t h
  cases i with
  | sysReset =>
    cases h
    simp
  | sysTickIrq =>
    cases h
    simp
  | lnkTx =>
    rw [execLnkTx_frame h]
    simp
  | chSavePreset c => exact (execChSavePreset_frame h).writers fun hc => absurd rfl (hc c)
  | cmdW h1 h0 => exact (runCommand_frame h).1.writers fun _ hw => absurd rfl (hw h1 h0)
  | cmdDispatch p => exact (dispatch_frame h).1.writers fun _ _ hp _ => (dispatch_frame h).2 (hp p rfl)
  | lnkRx b =>
    exact (execLnkRx_frame h).1.writers fun _ _ _ hb =>
      (execLnkRx_frame h).2 fun htrailer => hb (htrailer ▸ rfl)
  | _ =>
    obtain ⟨hf, hn⟩ := exec_sharedKept h rfl
    exact hf.writers fun _ _ _ _ => hn

end Sys2Proof.Machine
end

section
/-! SUPPORT. The command dispatch and the commands that read or write a channel
(spec/44_commands.md R200 to R214): what a dispatch does, how a payload is rejected, what each
command acts on and replies, and the obligations about them. -/

namespace Sys2Proof.Machine

variable {s u : State} {cmd : CmdId} {ds q r p : List Byte} {h l c : Byte}

/-! ### A dispatch is the operation of its payload (R200) -/

/-- A command with all its characters runs at the command port as its dispatch does. -/
theorem exec_commandInstr (hds : ds.length = 2 * cmd.params) (s : State) :
    exec (commandInstr cmd ds) s = runCommand cmd ds s := by
  cases cmd <;> simp only [CmdId.params] at hds
  case E | S | X =>
    obtain rfl := List.length_eq_zero_iff.1 hds
    rfl
  case P | O =>
    match ds, hds with
    | [_, _, _, _], _ => rfl
  all_goals
    match ds, hds with
    | [_, _], _ => rfl

theorem exec_cmdDispatch_eq_decoded (s : State) (p : List Byte) :
    exec (.cmdDispatch p) s = exec (decodePayload p) s := by
  change s.dispatch p = _
  cases hp : parsePayload p with
  | error e =>
    simp only [State.dispatch, decodePayload, hp]
    rfl
  | ok parsed =>
    obtain ⟨cmd, ds⟩ := parsed
    obtain ⟨ps, -, hlen, rfl⟩ := parsePayload_eq_ok.1 hp
    simp only [State.dispatch, decodePayload, hp]
    exact (exec_commandInstr (List.length_take_of_le hlen) s).symm

/-- The reply that is pending after one was left. -/
theorem Link.setReply_payload (l : Link) (r : List Byte) :
    (l.setReply r).txBuf.take (l.setReply r).txLen = r := by simp [Link.setReply]

/-- Settles O45: the error reply is left, or a handler's reply, which begins with the id. -/
theorem dispatchLeavesOneReply : Obligations.DispatchLeavesOneReply := by
  refine fun s p => ⟨exec_cmdDispatch_eq_decoded s p, fun hs => ?_⟩
  change ∃ t, s.dispatch p = .next t ∧ _
  rcases State.dispatch_cases hs.config p with he | ⟨cmd, ds, q, u, r, hp, -, hh, hr⟩
  · exact ⟨_, he, rfl, .inl (Link.setReply_payload _ _)⟩
  · obtain ⟨ps, rfl, -⟩ := parsePayload_eq_ok.1 hp
    have ok := handler_ok hh
    have hfits : r.length ≤ u.cfg.txBufSize := ok.frame.cfg ▸ ok.fits hs
    refine ⟨_, hr.trans (State.leaveReply_of_le hfits), rfl, .inr ⟨cmd.byte, rfl, ?_⟩⟩
    exact (congrArg List.head? (Link.setReply_payload _ _)).trans ok.head

/-! ### A command acts and replies, or fails and leaves the error reply (R200, R249) -/

theorem OnlyReply.withResult {t : State} (ht : OnlyReply s t r) (x : OpResult) :
    OnlyReply { s with result := x } t r := ⟨ht.payload, ht.slots, ht.rest⟩

/-- The error reply is all that is left. -/
def OnlyErrorReply (s : State) (o : Outcome) : Prop := ∃ t, o = .next t ∧ OnlyReply s t [0x2A]

theorem raiseCmdError_onlyErrorReply (hw : s.cfg.WF) (e : CmdError) :
    OnlyErrorReply s (s.raiseCmdError e) := ⟨_, State.raiseCmdError_eq hw e, Link.onlyReply s _⟩

section ReadParameters
variable (hq : readParams s.cfg ds = some q)
include hq

theorem runCommand_replies (hs : s.Inv) (hh : handler cmd q s = some (u, r))
    (hd : (driverMayFail cmd && s.ports.driverFails) = false) :
    ∃ v, runCommand cmd ds s = .next v ∧ OnlyReply u v r := by
  have ok := handler_ok hh
  have hfits : r.length ≤ u.cfg.txBufSize := ok.frame.cfg ▸ ok.fits hs
  exact ⟨_, (runCommand_of_some hq hh hd).trans (State.leaveReply_of_le hfits), Link.onlyReply u r⟩

/-- A command whose handler leaves the state of an operation acts as that operation and replies. -/
theorem runCommand_acts (hs : s.Inv) (hh : handler cmd q s = some (u, r))
    (hd : (driverMayFail cmd && s.ports.driverFails) = false) {i : Instr} {x : OpResult}
    (hi : exec i s = u.answer x) :
    ∃ t v, exec i s = .next t ∧ t.result = x ∧ runCommand cmd ds s = .next v ∧ OnlyReply t v r := by
  obtain ⟨v, hv, honly⟩ := runCommand_replies hq hs hh hd
  exact ⟨_, v, hi, rfl, hv, honly.withResult x⟩

theorem runCommand_handlerFails (hw : s.cfg.WF) (hh : handler cmd q s = none) :
    OnlyErrorReply s (runCommand cmd ds s) :=
  ⟨_, runCommand_of_none hq hw hh, Link.onlyReply s _⟩

/-- The driver input of R217 makes a handler fail before it acts. -/
theorem runCommand_driverFails (hw : s.cfg.WF)
    (hd : (driverMayFail cmd && s.ports.driverFails) = true) :
    OnlyErrorReply s (runCommand cmd ds s) := by
  simp only [runCommand, hq, hd, if_true]
  exact raiseCmdError_onlyErrorReply hw _

end ReadParameters

theorem runCommand_badParams (hw : s.cfg.WF) (hq : readParams s.cfg ds = none) :
    OnlyErrorReply s (runCommand cmd ds s) := by
  simp only [runCommand, hq]
  exact raiseCmdError_onlyErrorReply hw _

/-! ### Rejected payloads (R200 to R202, R243) -/

theorem dispatch_parseError {e : CmdError} (hw : s.cfg.WF) (hp : parsePayload p = .error e) :
    OnlyErrorReply s (s.dispatch p) := by
  simp only [State.dispatch, hp]
  exact raiseCmdError_onlyErrorReply hw e

theorem dispatch_parsed (hp : parsePayload p = .ok (cmd, ds)) (s : State) :
    s.dispatch p = runCommand cmd ds s := by simp only [State.dispatch, hp]

/-- The first parameter is the byte of the first two characters. -/
theorem readParams_head {cfg : Config} {rest : List Byte} (hb : hexByte cfg h l = some c)
    (hq : readParams cfg (h :: l :: rest) = some q) : q.getD 0 0 = c := by
  simp only [readParams, hb] at hq
  split at hq
  next x _ hx _ =>
    cases hx
    cases hq
    rfl
  next => cases hq

/-- A command with a channel outside the bank is rejected, whatever follows the channel. -/
theorem dispatch_outside (hw : s.cfg.WF) {ps : List Byte} (hk : 1 ≤ cmd.params)
    (hb : hexByte s.cfg h l = some c) (hc : s.cfg.nch ≤ c.toNat) :
    OnlyErrorReply s (s.dispatch (cmd.byte :: h :: l :: ps)) := by
  rcases Nat.lt_or_ge (h :: l :: ps).length (2 * cmd.params) with hshort | hlen
  · exact dispatch_parseError hw (parsePayload_short hshort)
  · rw [dispatch_parsed (parsePayload_ok hlen)]
    cases hq : readParams s.cfg ((h :: l :: ps).take (2 * cmd.params)) with
    | none => exact runCommand_badParams hw hq
    | some q =>
      refine runCommand_handlerFails hq hw (handler_outside hk hc ?_)
      obtain ⟨k, hk2⟩ : ∃ k, 2 * cmd.params = k + 2 := ⟨2 * cmd.params - 2, by omega⟩
      rw [hk2] at hq
      exact readParams_head hb hq

/-- Settles O46: each check of the dispatch, in the order of R200. -/
theorem rejectedPayloadOnlyErrorReply : Obligations.RejectedPayloadOnlyErrorReply := by
  refine fun s hw => ⟨raiseCmdError_onlyErrorReply hw .unknownId, fun p hp => ?_⟩
  change OnlyErrorReply s (s.dispatch p)
  rcases hp with rfl | ⟨id, ps, rfl, hid⟩ | ⟨cmd, ps, rfl, hshort⟩ |
    ⟨cmd, ps, rfl, hlen, j, hj, h, l, hh, hl, hb⟩ | ⟨cmd, h, l, c, ps, rfl, hk, hb, hc⟩
  · exact dispatch_parseError hw rfl
  · exact dispatch_parseError hw (parsePayload_unknown hid)
  · exact dispatch_parseError hw (parsePayload_short hshort)
  · rw [dispatch_parsed (parsePayload_ok hlen)]
    exact runCommand_badParams hw (readParams_none _ _ hlen j hj h l hh hl hb)
  · exact dispatch_outside hw hk hb hc

/-! ### The commands that read (R203, R208, R210 to R212) -/

section InsideBank
variable {ch : Channel} (hch : s.channel? c = some ch)
include hch

theorem handleGetPre_of_channel : handleGetPre c s =
    some (s, replyTo .Q c (hex8 (s.sampler (sensorOf s.cfg c)).getPre)) := by
  obtain ⟨hc, -⟩ := State.channel?_eq_some.1 hch
  simp [handleGetPre, getChannelPre, hc]

theorem handleGetPost_of_channel :
    handleGetPost c s = some (s, replyTo .N c (hex8 ch.post)) := by
  simp [handleGetPost, getChannelPost, hch]

theorem channelLast_of_channel : channelLast c s =
    some (clampReadOut s.cfg c (rawReadOut s.cfg c ch.outer), ch.outer.lastTs) := by
  simp [channelLast, hch]

end InsideBank

theorem handleLast16_of_last {v : Sample} {ts : U32} (hl : channelLast c s = some (v, ts)) :
    handleLast16 c s =
      some (s, replyTo .G c (hex16 ((sampleArith s.cfg).trunc16 v) ++ hex32 ts)) := by
  simp [handleLast16, hl]

theorem handleLast32_of_last {v : Sample} {ts : U32} (hl : channelLast c s = some (v, ts)) :
    handleLast32 c s =
      some (s, replyTo .Y c (hex32 ((sampleArith s.cfg).bits32 v) ++ hex32 ts)) := by
  simp [handleLast32, hl]

/-- Outside the bank a command on a channel is answered with the error reply. -/
theorem runCommand_outside (hw : s.cfg.WF) (hq : readParams s.cfg ds = some q)
    (hk : 1 ≤ cmd.params) (hc : s.cfg.nch ≤ (q.getD 0 0).toNat) :
    OnlyErrorReply s (runCommand cmd ds s) :=
  runCommand_handlerFails hq hw (handler_outside hk hc rfl)

/-- So is a command the driver input makes fail. -/
theorem runCommand_outside_or_driver (hw : s.cfg.WF) (hq : readParams s.cfg ds = some q)
    (hk : 1 ≤ cmd.params) (hm : driverMayFail cmd = true)
    (hf : s.cfg.nch ≤ (q.getD 0 0).toNat ∨ s.ports.driverFails = true) :
    OnlyErrorReply s (runCommand cmd ds s) := by
  rcases hf with hc | hd
  · exact runCommand_outside hw hq hk hc
  · exact runCommand_driverFails hq hw (by rw [hm, hd]; rfl)

/-- Settles O47: each handler replies with what its channel operation reads. -/
theorem readCommandsReply : Obligations.ReadCommandsReply := by
  intro s h l c hs hb
  have hq := readParams_pair hb
  have hw := hs.config
  refine ⟨runCommand_replies (cmd := .E) (ds := []) rfl hs rfl rfl, fun hc => ?_,
    fun hf => ⟨runCommand_outside_or_driver (cmd := .G) hw hq (by decide) rfl hf,
      runCommand_outside_or_driver (cmd := .Y) hw hq (by decide) rfl hf⟩,
    fun hc => ⟨runCommand_outside (cmd := .Q) hw hq (by decide) hc,
      runCommand_outside (cmd := .N) hw hq (by decide) hc⟩⟩
  obtain ⟨ch, hch⟩ := hs.channel?_some hc
  refine ⟨?_, ?_, fun hd => ?_⟩
  · obtain ⟨t, ht, honly⟩ :=
      runCommand_replies (cmd := .Q) hq hs (handleGetPre_of_channel hch) rfl
    exact ⟨_, t, exec_chGetPre_of_lt hc, ht, honly⟩
  · obtain ⟨t, ht, honly⟩ :=
      runCommand_replies (cmd := .N) hq hs (handleGetPost_of_channel hch) rfl
    exact ⟨_, t, exec_chGetPost hch, ht, honly⟩
  · have hlast := channelLast_of_channel hch
    obtain ⟨t, ht, honly⟩ :=
      runCommand_replies (cmd := .G) hq hs (handleLast16_of_last hlast) hd
    obtain ⟨t', ht', honly'⟩ :=
      runCommand_replies (cmd := .Y) hq hs (handleLast32_of_last hlast) hd
    exact ⟨_, _, t, t', exec_chLast hch, ht, honly, ht', honly'⟩

/-! ### The commands that write (R205 to R207, R209, R213, R214) -/

theorem readParams_two {cfg : Config} {h' l' e : Byte} (hb : hexByte cfg h l = some c)
    (hb' : hexByte cfg h' l' = some e) : readParams cfg [h, l, h', l'] = some [c, e] := by
  simp [readParams, hb, hb']

/-- Both depths of a table entry are accepted (R131). -/
theorem setChannelPost_ok (hs : s.Inv) {ch : Channel} (hch : s.channel? c = some ch) (req : Byte) :
    (setChannelPost c req s).1 = true := by
  obtain ⟨hi, ho⟩ := (hs.channel hch).lutEntry_lt hs.config (State.channel?_eq_some.1 hch).1
    (lutSelect_closest_of_wf hs.config req).1
  simp [setChannelPost, hch, Averager.setDepth_of_lt, hi, ho]

theorem loadPreset_some {ch : Channel} (hch : s.channel? c = some ch) :
    ∃ t, loadPreset c s = some t := by
  simp [loadPreset, hch, setChannelPre_of_lt (State.channel?_eq_some.1 hch).1]

theorem savePreset_some {ch : Channel} (hch : s.channel? c = some ch) :
    ∃ t, savePreset c s = some t := by
  simp [savePreset, hch]

/-- Settles O48: each handler leaves the state of its channel operation. -/
theorem writeCommandsActAndReply : Obligations.WriteCommandsActAndReply := by
  intro s h l c h' l' e hs hb hb'
  have hq := readParams_pair hb
  have hq2 := readParams_two hb hb'
  have hw := hs.config
  refine ⟨fun hc => ?_,
    fun hf => ⟨runCommand_outside_or_driver (cmd := .L) hw hq (by decide) rfl hf,
      runCommand_outside_or_driver (cmd := .W) hw hq (by decide) rfl hf⟩,
    fun hc => ⟨runCommand_outside (cmd := .P) hw hq2 (by decide) hc,
      runCommand_outside (cmd := .O) hw hq2 (by decide) hc⟩⟩
  obtain ⟨ch, hch⟩ := hs.channel?_some hc
  refine ⟨?_, ?_, fun hd => ⟨?_, ?_⟩⟩
  · have hh : handler .P [c, e] s = some (s.withPre c e, replyTo .P c []) := by
      simp [handler, handleSetPre, setChannelPre_of_lt hc]
    exact runCommand_acts hq2 hs hh rfl (exec_chSetPre_of_lt hc e)
  · have hok := setChannelPost_ok hs hch e
    have hh : handler .O [c, e] s = some ((setChannelPost c e s).2, replyTo .O c []) := by
      simp [handler, handleSetPost, hok]
    exact runCommand_acts hq2 hs hh rfl (by simp only [exec, execChSetPost, hok])
  · obtain ⟨t, ht⟩ := loadPreset_some hch
    have hh : handler .L [c] s = some (t, replyTo .L c []) := by simp [handler, handleLoad, ht]
    exact runCommand_acts hq hs hh hd (by simp only [exec, execChLoadPreset, ht])
  · obtain ⟨t, ht⟩ := savePreset_some hch
    have hh : handler .W [c] s = some (t, replyTo .W c []) := by simp [handler, handleSave, ht]
    exact runCommand_acts hq hs hh hd (by simp only [exec, execChSavePreset, ht])

/-- Settles O49: both commands take no parameter. -/
theorem samplingCommandsActAndReply : Obligations.SamplingCommandsActAndReply := by
  intro s hs
  have hq : readParams s.cfg [] = some [] := rfl
  refine ⟨fun hd => ⟨?_, ?_⟩, fun hd =>
    ⟨runCommand_driverFails (cmd := .S) hq hs.config hd,
      runCommand_driverFails (cmd := .X) hq hs.config hd⟩⟩
  · obtain ⟨t, v, ht, -, hv, honly⟩ := runCommand_acts (cmd := .S) hq hs rfl hd
      (i := .bankEnableSampling true) rfl
    exact ⟨t, v, ht, hv, honly⟩
  · obtain ⟨t, v, ht, -, hv, honly⟩ := runCommand_acts (cmd := .X) hq hs rfl hd
      (i := .bankEnableSampling false) rfl
    exact ⟨t, v, ht, hv, honly⟩

end Sys2Proof.Machine
end

section
/-! SUPPORT. Whole frames on the bus link (spec/43_buslink.md R171, R176, R186; spec/30_encoding.md
R80, R81): what a frame's header leaves, the frame for another board and the echo frame. -/

namespace Sys2Proof.Machine

variable {s t : State} {b : Byte} {bs p : List Byte}

/-- Settles O36: the timeout check comes first and leaves an idle receiver, which ignores the byte. -/
theorem expiredFrameDropped : Obligations.ExpiredFrameDropped := by
  intro s b hb hs hold
  have hne : b ≠ chHeader := hb
  simp [exec, execLnkRx, hne, Link.checkTimeout_expired s.cfg hs hold, State.answer_eq]

/-! ### Bytes one after another -/

theorem State.receive_cons (h : exec (.lnkRx b) s = .next t) (bs : List Byte) :
    s.receive (b :: bs) = t.receive bs := by simp only [State.receive, h]

/-- An idle receiver ignores everything but a header byte (R173). -/
theorem State.receive_searching (hs : s.link.rxState = .searching) (hr : s.result = .none)
    (hp : chHeader ∉ p) : s.receive p = .next s := by
  induction p with
  | nil => rfl
  | cons b bs ih =>
    obtain ⟨hb, hbs⟩ := not_or.1 (List.mem_cons.not.1 hp)
    have hbyte : exec (.lnkRx b) s = .next s := by
      rw [exec_lnkRx_searching (Ne.symm hb) hs, ← hr]
    rw [State.receive_cons hbyte, ih hbs]

/-! ### The header of a frame -/

theorem hexChr_ne_header : ∀ n : Nibble, hexChr n ≠ chHeader := by decide

theorem protoVersion_ne_header {cfg : Config} (hw : cfg.WF) : cfg.protoVersion ≠ chHeader := by
  obtain ⟨-, -, -, ⟨hv, -⟩, -⟩ := hw
  exact hv

/-- A frame begun at this very tick has not expired. -/
theorem Link.checkTimeout_now (cfg : Config) {now : U32} {l : Link} (h : l.frameStart = now) :
    l.checkTimeout cfg now = l := Link.checkTimeout_fresh cfg (by simp [h])

/-- The receiver after a header byte, the version and the first address digit. -/
def Link.halfAddressed (now : U32) (id : Byte) (l : Link) : Link :=
  { l with
    rxState := .addressMsbFound
    frameStart := now
    addrMsb := id.extractLsb' 4 4
    rxLen := 0 }

/-- A header, the version and an address, received at one tick, bring any receiver to the address
match (R172, R174 to R176). -/
theorem State.receive_frameHeader (hw : s.cfg.WF) (id : Byte) (rest : List Byte) :
    s.receive ([0x5B, s.cfg.protoVersion] ++ hex8 id ++ rest) = State.receive { s with
      link := (s.link.halfAddressed s.ticks id).takeAddrLow s.cfg s.boardId
        (hexChr (id.extractLsb' 0 4))
      result := .none } rest := by
  refine (State.receive_cons ((exec_lnkRx_header s).trans
    (by rw [Link.startFrame_checkTimeout])) _).trans ?_
  refine (State.receive_cons ((exec_lnkRx_headerFound (protoVersion_ne_header hw)
    (Link.checkTimeout_now _ rfl) rfl).trans (by rw [Link.takeVersion_expected rfl])) _).trans ?_
  refine (State.receive_cons ((exec_lnkRx_versionFound (hexChr_ne_header _)
    (Link.checkTimeout_now _ rfl) rfl).trans
      (by rw [Link.takeAddrHigh_digit (hexVal_hexChr ..)])) _).trans ?_
  exact State.receive_cons (exec_lnkRx_addressMsbFound (hexChr_ne_header _)
    (Link.checkTimeout_now _ rfl) rfl) rest

/-- The second digit completes the address. -/
theorem Link.halfAddressed_complete (now : U32) (id : Byte) (l : Link) :
    (l.halfAddressed now id).addrMsb ++ id.extractLsb' 0 4 = id := extract_high_append_low id

/-- Settles O44: the address does not match, and the idle receiver ignores the rest. -/
theorem otherBoardsFrameIgnored : Obligations.OtherBoardsFrameIgnored := by
  intro s id p hw hid hp
  rw [State.receive_frameHeader hw, Link.takeAddrLow_mismatch (hexVal_hexChr ..)
    (by rw [Link.halfAddressed_complete]; exact hid), Link.abort_eq]
  exact State.receive_searching rfl rfl hp

/-! ### The echo frame (R186(b)) -/

theorem State.dispatch_echo (hw : s.cfg.WF) : s.dispatch [CmdId.E.byte] =
    .next { s with link := s.link.setReply [CmdId.E.byte], result := .none } :=
  State.leaveReply_of_le (by obtain ⟨-, -, -, -, ⟨-, htx, -⟩, -⟩ := hw; simp; omega)

/-- The receiver of the board addressed, before the payload. -/
def Link.addressed (now : U32) (id : Byte) (l : Link) : Link :=
  { l with rxState := .receiving, frameStart := now, addrMsb := id.extractLsb' 4 4, rxLen := 0 }

theorem State.receive_ownHeader (hw : s.cfg.WF) (rest : List Byte) :
    s.receive ([0x5B, s.cfg.protoVersion] ++ hex8 s.boardId ++ rest) = State.receive { s with
      link := s.link.addressed s.ticks s.boardId, result := .none } rest := by
  rw [State.receive_frameHeader hw,
    Link.takeAddrLow_match (hexVal_hexChr ..) (Link.halfAddressed_complete ..)]
  rfl

/-- The link after the trailer of an echo frame: idle, pulsed, the echo reply pending. -/
def Link.echoed (now : U32) (l : Link) : Link :=
  Link.setReply (Link.pulse now { l with rxState := .searching, rxLen := 0 }) [CmdId.E.byte]

theorem Link.echoed_rxState (now : U32) (l : Link) : (l.echoed now).rxState = .searching := by
  rw [Link.echoed, Link.pulse_eq]; rfl

theorem Link.echoed_payload (now : U32) (l : Link) :
    (l.echoed now).txBuf.take (l.echoed now).txLen = [CmdId.E.byte] := Link.setReply_payload ..

theorem Link.echoed_txLen_le (now : U32) (l : Link) :
    (l.echoed now).txLen ≤ (l.echoed now).txBuf.length := by
  simp [Link.echoed, Link.setReply]

section ReceivingNow
variable (hw : s.cfg.WF) (hs : s.link.rxState = .receiving) (hnow : s.link.frameStart = s.ticks)
include hw hs hnow

/-- The trailer dispatches the payload (R178). -/
theorem exec_lnkRx_echoTrailer (hlen : s.link.rxLen ≤ s.link.rxBuf.length)
    (hpayload : s.link.rxBuf.take s.link.rxLen = [CmdId.E.byte]) : exec (.lnkRx chTrailer) s =
      .next { s with link := s.link.echoed s.ticks, result := .none } := by
  rw [exec_lnkRx_trailer (Link.checkTimeout_now _ hnow) hs, State.commit_eq hlen, hpayload]
  exact State.dispatch_echo hw

/-- An empty payload takes the id, and the trailer dispatches it (R177). -/
theorem State.receive_echo (hempty : s.link.rxLen = 0)
    (hsize : s.link.rxBuf.length = s.cfg.rxBufSize) : s.receive [CmdId.E.byte, chTrailer] =
      .next { s with
        link := Link.echoed s.ticks { s.link with rxBuf := s.link.rxBuf.set 0 CmdId.E.byte }
        result := .none } := by
  have hpos : 0 < s.link.rxBuf.length := by
    obtain ⟨-, -, -, -, ⟨hrx, -⟩, -⟩ := hw
    omega
  have hdata := exec_lnkRx_data (b := CmdId.E.byte) (by decide) (Link.checkTimeout_now _ hnow) hs
    (by decide) (Link.takeData_space _ (by omega) (hempty ▸ hpos))
  rw [hempty] at hdata
  refine (State.receive_cons hdata _).trans (State.receive_cons ?_ [])
  exact exec_lnkRx_echoTrailer hw hs hnow (by rw [List.length_set]; exact hpos)
    (take_succ_set_self hpos _)

end ReceivingNow

/-- The frame in the host's direction around the echo reply (R81). -/
theorem replyFrame_echo (cfg : Config) (id : Byte) : replyFrame cfg id [CmdId.E.byte] =
    [0x28, cfg.protoVersion] ++ hex8 id ++ [0x45, 0x29] := rfl

/-- Settles O43: the echo frame leaves the echo reply, which `LNK.TX` frames. -/
theorem echoFrameIsAnswered : Obligations.EchoFrameIsAnswered := by
  intro s hs _
  have hecho := State.receive_echo (s := { s with
    link := s.link.addressed s.ticks s.boardId, result := .none }) hs.config rfl rfl rfl hs.link.rxSize
  refine ⟨_, _, (State.receive_ownHeader hs.config _).trans hecho,
    exec_lnkTx_sends (mayTransmit_iff.2 ⟨Link.echoed_rxState .., rfl⟩) (Link.echoed_txLen_le ..),
    ?_, by rw [Link.pulse_eq], rfl, rfl, rfl, rfl⟩
  rw [Link.echoed_payload, replyFrame_echo]

end Sys2Proof.Machine
end

section
/-! SUPPORT. The period of a sampler (spec/42_sampler.md R157). -/

namespace Sys2Proof.Machine

variable {m : Sampler}

/-- The sampler is enabled at ten times `e`, and `k` ticks have passed since it was set. -/
structure Sampler.TicksIn (e k : Nat) (m : Sampler) : Prop where
  period : m.p10.toNat = 10 * e
  counter : m.counter.toNat = k % (10 * e)

/-- A number below the modulus or one step from it. -/
theorem succ_mod_eq_ite (k : Nat) {n : Nat} (h : 0 < n) :
    (k + 1) % n = if k % n = n - 1 then 0 else k % n + 1 := by
  have hk := Nat.div_add_mod k n
  have hlt := Nat.mod_lt k h
  split
  next hlast =>
    rw [show k + 1 = n * (k / n + 1) by rw [Nat.mul_succ]; omega, Nat.mul_mod_right]
  next hlast =>
    rw [show k + 1 = k % n + 1 + n * (k / n) by omega, Nat.add_mul_mod_self_left,
      Nat.mod_eq_of_lt (by omega)]

/-- A tick counts modulo the period, and starts a new one at its multiples. -/
theorem Sampler.TicksIn.tick {e k : Nat} (h : m.TicksIn e k) (he : 1 ≤ e) (now : U32) :
    (m.tick now).2.TicksIn e (k + 1) ∧ ((m.tick now).1 = true ↔ (k + 1) % (10 * e) = 0) := by
  have hpos : 0 < 10 * e := by omega
  have hp : m.p10 ≠ 0 := fun h0 => by have := h.period; rw [h0] at this; simp at this; omega
  have hk : k % (10 * e) < 10 * e := Nat.mod_lt _ hpos
  have hmod := succ_mod_eq_ite k hpos
  by_cases hc : m.counter.toNat = m.p10.toNat - 1
  · rw [Sampler.tick_periodEnd hp hc]
    rw [h.counter, h.period] at hc
    rw [if_pos hc] at hmod
    exact ⟨⟨h.period, hmod.symm⟩, by simp [hmod]⟩
  · rw [Sampler.tick_counting hp hc]
    rw [h.counter, h.period] at hc
    rw [if_neg hc] at hmod
    refine ⟨⟨h.period, ?_⟩, by simp [hmod]⟩
    change (m.counter + 1).toNat = _
    have hlt := m.p10.isLt
    rw [h.period] at hlt
    rw [BitVec.toNat_add, h.counter, hmod]
    exact Nat.mod_eq_of_lt (by simp; omega)

theorem Sampler.setPre_ticksIn (m : Sampler) (e : Byte) : (m.setPre e).TicksIn e.toNat 0 :=
  ⟨m.setPre_p10 e, by simp [Sampler.setPre]⟩

theorem Sampler.TicksIn.afterTicks {e : Nat} (h : m.TicksIn e 0) (he : 1 ≤ e) (now : Nat → U32) :
    ∀ k, (m.afterTicks now k).TicksIn e k
  | 0 => h
  | k + 1 => ((h.afterTicks he now k).tick he (now k)).1

/-- Settles O34: by induction on the ticks. -/
theorem samplerPeriodIsTenE : Obligations.SamplerPeriodIsTenE := by
  intro s e now k he
  have h := (s.setPre_ticksIn e).afterTicks he now k
  exact ⟨h.counter, (h.tick he (now k)).2⟩

end Sys2Proof.Machine
end

section
/-! SUPPORT. The laws of an averager and of a pair over a run of samples (spec/40_averager.md R117,
spec/41_channel_postscaler.md R141): when outputs are reported, the sum in the accumulator, and the
latched output. -/

namespace Sys2Proof.Machine

variable {S : Type} {A : SampleArith S} {a b : Averager S} {d : Byte} {n : Nat}

/-! ### A run of samples, step by step -/

/-- What each sample keeps, and the result it gives, holds along a run: `P` speaks of the samples so
far and the averager, `out` of the number of samples. -/
theorem Averager.collects_of_step {P : List (S × U32) → Averager S → Prop} {out : Nat → Bool}
    (step : ∀ xs b v ts, P xs b →
      ∃ b', b.collect A v ts = some (out (xs.length + 1), b') ∧ P (xs ++ [(v, ts)]) b') :
    ∀ (ys xs : List (S × U32)) (b : Averager S), P xs b →
      ∃ b', b.collects A ys =
          some ((List.range ys.length).map (fun k => out (xs.length + (k + 1))), b') ∧
        P (xs ++ ys) b'
  | [], xs, b, h => ⟨b, rfl, by simpa using h⟩
  | (v, ts) :: ys, xs, b, h => by
    obtain ⟨b1, h1, hP1⟩ := step xs b v ts h
    obtain ⟨b2, h2, hP2⟩ := collects_of_step step ys (xs ++ [(v, ts)]) b1 hP1
    refine ⟨b2, ?_, by simpa using hP2⟩
    simp only [collects, h1, h2, List.length_cons, List.range_succ_eq_map, List.map_cons,
      List.map_map]
    simp [Function.comp_def, Nat.add_assoc, Nat.add_comm 1]

/-! ### The cadence (R117(a), (c)) -/

/-- The averager at depth `d` that has taken `n` samples since it was cleared: how far the cursor is,
whether the ring has been filled, and room for the depth. -/
structure Averager.After (d : Byte) (n : Nat) (a : Averager S) : Prop where
  depth : a.depth = d
  room : d.toNat < a.cap
  cursor : d ≠ 0 → a.cursor.toNat = n % d.toNat
  filled : d ≠ 0 → a.consolidated = decide (d.toNat ≤ n)

theorem Averager.clearedTo_after (z : S) (hd : d.toNat < a.cap) : (a.clearedTo z d).After d 0 := by
  refine ⟨rfl, by simpa using hd, fun _ => by simp [clearedTo], fun h => ?_⟩
  have := BitVec.toNat_pos_of_ne_zero h
  simp [clearedTo, this.ne']

/-- The averager after one more sample at a positive depth, `old` being the slot overwritten: R112 with
its conditions on the cursor and the flag written as conditions on the number of samples. -/
def Averager.next (A : SampleArith S) (n : Nat) (old v : S) (ts : U32) (a : Averager S) : Averager S :=
  { a.accept A old v with
    consolidated := decide (a.depth.toNat ≤ n + 1)
    lastAvg :=
      if (n + 1) % a.depth.toNat = 0 then A.sdivn (a.accept A old v).acc a.depth.toNat
      else if n + 1 < a.depth.toNat then v else a.lastAvg
    lastTs := if Reports a.depth.toNat (n + 1) then ts else a.lastTs }

section PositiveDepth
variable (h : a.After d n) (hd : d ≠ 0)
include h hd

theorem Averager.After.slot_lt : n % d.toNat < a.buf.length :=
  Nat.lt_trans (Nat.mod_lt n (BitVec.toNat_pos_of_ne_zero hd)) h.room

theorem Averager.After.nextCursor_eq : nextCursor a = (n + 1) % d.toNat := by
  rw [nextCursor, h.depth, h.cursor hd, Nat.mod_add_mod]

theorem Averager.After.collect_eq {old : S} (ho : a.buf[n % d.toNat]? = some old) (v : S) (ts : U32) :
    a.collect A v ts = some (decide (Reports d.toNat (n + 1)), a.next A n old v ts) := by
  have hpos := BitVec.toNat_pos_of_ne_zero hd
  have hdepth := h.depth
  subst hdepth
  rw [← h.cursor hd] at ho
  have hk := h.nextCursor_eq hd
  by_cases hwrap : (n + 1) % a.depth.toNat = 0
  · have hle : a.depth.toNat ≤ n + 1 := Nat.le_of_dvd (by omega) (Nat.dvd_of_mod_eq_zero hwrap)
    rw [collect_wrap A hd ho (hk.trans hwrap)]
    simp [next, hwrap, hle]
  have hne : n + 1 ≠ a.depth.toNat := fun he => hwrap (by rw [he, Nat.mod_self])
  rcases Nat.lt_or_ge n a.depth.toNat with hlt | hge
  · have hc : a.consolidated = false := by rw [h.filled hd]; simp [hlt]
    have hlt' : n + 1 < a.depth.toNat := by omega
    rw [collect_fill A hd ho (by rwa [hk]) hc]
    simp [next, accept, hwrap, hlt', hc]
  · have hc : a.consolidated = true := by rw [h.filled hd]; simp [hge]
    have hge' : a.depth.toNat ≤ n + 1 := by omega
    rw [collect_quiet A hd ho (by rwa [hk]) hc]
    simp [next, accept, hwrap, hge', hc, hpos.ne']

theorem Averager.After.next (old v : S) (ts : U32) : (a.next A n old v ts).After d (n + 1) where
  depth := h.depth
  room := by simpa [Averager.next, accept, cap] using h.room
  cursor _ := by
    have hlt := Nat.mod_lt (n + 1) (BitVec.toNat_pos_of_ne_zero hd)
    change (BitVec.ofNat 8 (nextCursor a)).toNat = _
    rw [h.nextCursor_eq hd, BitVec.toNat_ofNat]
    exact Nat.mod_eq_of_lt (Nat.lt_trans hlt d.isLt)
  filled _ := by simp [Averager.next, h.depth]

end PositiveDepth

/-- A sample is accepted, and reports an output as `Reports` says. -/
theorem Averager.After.collect (h : a.After d n) (v : S) (ts : U32) :
    ∃ b, a.collect A v ts = some (decide (Reports d.toNat (n + 1)), b) ∧ b.After d (n + 1) := by
  by_cases hd : d = 0
  · subst hd
    exact ⟨_, collect_pass A h.depth v ts, h.depth, h.room, fun h0 => absurd rfl h0,
      fun h0 => absurd rfl h0⟩
  · have ho := List.getElem?_eq_getElem (h.slot_lt hd)
    exact ⟨_, h.collect_eq hd ho v ts, h.next hd _ v ts⟩

/-- Settles O11: by induction on the samples, whatever they are. -/
theorem averagerCadence : Obligations.AveragerCadence := by
  intro S A a d xs hd
  obtain ⟨b, hb, -⟩ := Averager.collects_of_step (A := A)
    (P := fun xs b => b.After d xs.length)
    (out := fun k => decide (Reports d.toNat k))
    (fun xs b v ts h => by simpa using h.collect (A := A) v ts) xs [] _
    (Averager.clearedTo_after A.szero hd)
  exact ⟨b, by simpa using hb⟩

/-! ### The cadence of a pair (R141) -/

/-- One more sample adds an output when it reports one. -/
theorem outputsBy_succ (di n : Nat) :
    outputsBy di (n + 1) = outputsBy di n + if Reports di (n + 1) then 1 else 0 := by
  unfold outputsBy
  by_cases h0 : di = 0
  · simp [h0]
  rcases Nat.lt_trichotomy (n + 1) di with hlt | heq | hgt
  · rw [if_pos (.inr hlt), if_pos (.inr (by omega)), if_pos (.inr (.inl hlt))]
  · subst heq
    simp
  · have hbefore : ¬ (di = 0 ∨ n < di) := by omega
    have hafter : ¬ (di = 0 ∨ n + 1 < di) := by omega
    have hreports : di ∣ n + 1 ↔ Reports di (n + 1) := Nat.dvd_iff_mod_eq_zero.trans
      ⟨fun h => .inr (.inr h), fun h => (h.resolve_left h0).resolve_left (by omega)⟩
    rw [if_neg hbefore, if_neg hafter, Nat.succ_div, if_congr hreports rfl rfl, Nat.add_assoc]

/-- Both averagers of the pair, after `n` feeds. -/
structure Channel.After (di d : Byte) (n : Nat) (ch : Channel) : Prop where
  inner : ch.inner.After di n
  outer : ch.outer.After d (outputsBy di.toNat n)

theorem Channel.After.feed {ch : Channel} {di : Byte} {A : SampleArith Sample} (h : ch.After di d n)
    (v : Sample) (ts : U32) : ∃ ch', ch.feed A v ts = some (decide (Reports di.toNat (n + 1) ∧
      Reports d.toNat (outputsBy di.toNat (n + 1))), ch') ∧ ch'.After di d (n + 1) := by
  obtain ⟨i, hi, hinner⟩ := h.inner.collect (A := A) v ts
  have houtputs := outputsBy_succ di.toNat n
  by_cases hr : Reports di.toNat (n + 1)
  · obtain ⟨o, ho, houter⟩ := h.outer.collect (A := A) i.lastAvg i.lastTs
    rw [if_pos hr] at houtputs
    rw [decide_eq_true hr] at hi
    exact ⟨⟨i, o⟩, by simp only [Channel.feed_output hi ho, houtputs, hr, true_and],
      hinner, by rw [houtputs]; exact houter⟩
  · rw [if_neg hr, Nat.add_zero] at houtputs
    rw [decide_eq_false hr] at hi
    exact ⟨{ ch with inner := i }, by simp only [Channel.feed_quiet hi, hr, false_and, decide_false],
      hinner, by rw [houtputs]; exact h.outer⟩

theorem Channel.After.feeds {di : Byte} {A : SampleArith Sample} :
    ∀ (xs : List (Sample × U32)) {n : Nat} {ch : Channel}, ch.After di d n →
      ∃ ch', ch.feeds A xs = some ((List.range xs.length).map (fun k =>
        decide (Reports di.toNat (n + (k + 1)) ∧
          Reports d.toNat (outputsBy di.toNat (n + (k + 1))))), ch')
  | [], _, ch, _ => ⟨ch, rfl⟩
  | (v, ts) :: xs, n, ch, h => by
    obtain ⟨ch1, h1, hafter⟩ := h.feed (A := A) v ts
    obtain ⟨ch2, h2⟩ := feeds (A := A) xs hafter
    refine ⟨ch2, ?_⟩
    simp only [Channel.feeds, h1, h2, List.length_cons, List.range_succ_eq_map, List.map_cons,
      List.map_map]
    simp [Function.comp_def, Nat.add_assoc, Nat.add_comm 1]

/-- Settles O22: the outer averager is fed the inner one's outputs, which `outputsBy` counts. -/
theorem pairCadence : Obligations.PairCadence := by
  intro A ch di d xs hi ho
  have h0 : outputsBy di.toNat 0 = 0 := by
    unfold outputsBy; split
    · rfl
    · simp; omega
  have h : Channel.After di d 0 ⟨ch.inner.clearedTo A.szero di, ch.outer.clearedTo A.szero d⟩ :=
    ⟨Averager.clearedTo_after _ hi, by rw [h0]; exact Averager.clearedTo_after _ ho⟩
  simpa using h.feeds (A := A) xs

/-! ### The ring and the sum (R117(b), (e)) -/

/-- The samples an averager has taken, behind as many zeros as its ring held when it was cleared. -/
def paddedSamples (z : S) (d : Byte) (xs : List (S × U32)) : List S :=
  List.replicate d.toNat z ++ xs.map Prod.fst

theorem paddedSamples_length (z : S) (d : Byte) (xs : List (S × U32)) :
    (paddedSamples z d xs).length = d.toNat + xs.length := by simp [paddedSamples]

theorem paddedSamples_concat (z : S) (d : Byte) (xs : List (S × U32)) (v : S) (ts : U32) :
    paddedSamples z d (xs ++ [(v, ts)]) = paddedSamples z d xs ++ [v] := by simp [paddedSamples]

/-- The averager after the samples `xs` at a positive depth: its ring holds the last `d` of the padded
samples, each at its index modulo `d`, and its accumulator is their sum. -/
structure Averager.Window (A : SampleArith S) (val : S → ℚ) (d : Byte) (xs : List (S × U32))
    (a : Averager S) : Prop where
  after : a.After d xs.length
  ring : ∀ i, xs.length ≤ i → i < xs.length + d.toNat →
    a.buf[i % d.toNat]? = (paddedSamples A.szero d xs)[i]?
  sum : val a.acc = (((paddedSamples A.szero d xs).drop xs.length).map val).sum

variable {val : S → ℚ} {xs : List (S × U32)}

theorem Averager.clearedTo_window (hA : ExactArith A val) (hd : d.toNat < a.cap) :
    (a.clearedTo A.szero d).Window A val d [] where
  after := Averager.clearedTo_after _ hd
  ring i _ hi := by
    have hi : i < d.toNat := by simpa using hi
    have hcap : i < a.cap := Nat.lt_trans hi hd
    simp [clearedTo, paddedSamples, Nat.mod_eq_of_lt hi, hi, hcap]
  sum := by simp [clearedTo, paddedSamples, hA.zero]

/-- The next index is the only one of the next `d` that falls on the slot overwritten. -/
theorem mod_ne_of_lt {i n d : Nat} (h : n < i) (hi : i < n + d) : i % d ≠ n % d := by
  intro he
  have hdvd : d ∣ i - n := (Nat.modEq_iff_dvd' h.le).1 he.symm
  have := Nat.le_of_dvd (by omega) hdvd
  omega

section Window
variable (h : a.Window A val d xs) (hd : d ≠ 0)
include h hd

/-- The slot overwritten holds the sample that leaves the window. -/
theorem Averager.Window.slot : ∃ old, a.buf[xs.length % d.toNat]? = some old ∧
    (paddedSamples A.szero d xs).drop xs.length =
      old :: (paddedSamples A.szero d xs).drop (xs.length + 1) := by
  have hpos := BitVec.toNat_pos_of_ne_zero hd
  have hlen : xs.length < (paddedSamples A.szero d xs).length := by
    rw [paddedSamples_length]; omega
  exact ⟨_, (h.ring _ (Nat.le_refl _) (by omega)).trans (List.getElem?_eq_getElem hlen),
    List.drop_eq_getElem_cons hlen⟩

theorem Averager.Window.next (hA : ExactArith A val) {old : S}
    (hold : (paddedSamples A.szero d xs).drop xs.length =
      old :: (paddedSamples A.szero d xs).drop (xs.length + 1)) (v : S) (ts : U32) :
    (a.next A xs.length old v ts).Window A val d (xs ++ [(v, ts)]) := by
  have hpos := BitVec.toNat_pos_of_ne_zero hd
  have hlen := paddedSamples_length A.szero d xs
  have hcursor := h.after.cursor hd
  refine ⟨by simpa using h.after.next hd old v ts, fun i hi hi' => ?_, ?_⟩
  · rw [List.length_append, List.length_singleton] at hi hi'
    change (a.buf.set a.cursor.toNat v)[i % d.toNat]? = _
    rw [paddedSamples_concat, hcursor]
    rcases Nat.lt_or_ge i (xs.length + d.toNat) with hlt | hge
    · rw [List.getElem?_set_ne (mod_ne_of_lt (by omega) hlt).symm, h.ring i (by omega) hlt,
        List.getElem?_append_left (by omega)]
    · obtain rfl : i = xs.length + d.toNat := by omega
      rw [Nat.add_mod_right, List.getElem?_set_self (h.after.slot_lt hd),
        List.getElem?_append_right (by omega), hlen, Nat.add_comm, Nat.sub_self]
      rfl
  · change val (A.sadd (A.ssub a.acc old) v) = _
    rw [hA.add, hA.sub, h.sum, hold, paddedSamples_concat, List.length_append, List.length_singleton,
      List.drop_append_of_le_length (by omega)]
    simp

end Window

/-- The zeros of the padding add nothing: the sum is that of the last `d` samples. -/
theorem Averager.Window.sum_eq (h : a.Window A val d xs) (hA : ExactArith A val) :
    val a.acc = ((xs.map (fun x => val x.1)).drop (xs.length - d.toNat)).sum := by
  rw [h.sum, paddedSamples, List.drop_append]
  simp [hA.zero, Function.comp_def]

theorem Averager.Window.collect (h : a.Window A val d xs) (hd : d ≠ 0) (hA : ExactArith A val) (v : S)
    (ts : U32) : ∃ old, a.collect A v ts =
        some (decide (Reports d.toNat (xs.length + 1)), a.next A xs.length old v ts) ∧
      (a.next A xs.length old v ts).Window A val d (xs ++ [(v, ts)]) := by
  obtain ⟨old, hslot, hold⟩ := h.slot hd
  exact ⟨old, h.after.collect_eq hd hslot v ts, h.next hd hA hold v ts⟩

theorem ne_zero_of_one_le_toNat (hd : 1 ≤ d.toNat) : d ≠ 0 := by
  rintro rfl
  simp at hd

/-- Settles O12: the window is kept by every sample, by induction on the samples. -/
theorem averagerWindowSum : Obligations.AveragerWindowSum := by
  intro S A val a d xs hA hd1 hd
  have hd0 := ne_zero_of_one_le_toNat hd1
  obtain ⟨b, hb, hwindow⟩ := Averager.collects_of_step (A := A)
    (P := fun xs b => b.Window A val d xs) (out := fun k => decide (Reports d.toNat k))
    (fun xs b v ts h => by
      obtain ⟨old, hb, hnext⟩ := h.collect hd0 hA v ts
      exact ⟨_, hb, hnext⟩)
    xs [] _ (Averager.clearedTo_window hA hd)
  exact ⟨_, b, hb, by simpa using hwindow.sum_eq hA⟩

/-! ### The latched output (R117(d)) -/

/-- How many of `n` samples are in complete blocks of `d`. -/
def blocksEnd (d : Byte) (n : Nat) : Nat := d.toNat * (n / d.toNat)

/-- The latched output after the samples `xs`: the last of them before the ring is full, then the mean
of the last complete block. -/
structure Averager.Latched (val : S → ℚ) (d : Byte) (xs : List (S × U32)) (a : Averager S) : Prop where
  fill : xs.length < d.toNat → ∀ v ts, xs.getLast? = some (v, ts) → a.lastAvg = v ∧ a.lastTs = ts
  mean : d.toNat ≤ xs.length → val a.lastAvg = (((xs.map (fun x => val x.1)).take
    (blocksEnd d xs.length)).drop (blocksEnd d xs.length - d.toNat)).sum / d.toNat
  time : d.toNat ≤ xs.length → (xs.map Prod.snd)[blocksEnd d xs.length - 1]? = some a.lastTs

theorem Averager.clearedTo_latched (z : S) (hd : d ≠ 0) : (a.clearedTo z d).Latched val d [] := by
  have hpos := BitVec.toNat_pos_of_ne_zero hd
  refine ⟨fun _ v ts h => by simp at h, fun h => ?_, fun h => ?_⟩ <;>
  · simp at h; omega

/-! One more sample, in the three cases of R112 at a positive depth. -/

section LatchedNext
variable (hdepth : a.depth = d) (old v : S) (ts : U32)
include hdepth

/-- The sample completes a block, whose mean is latched. -/
theorem Averager.next_latched_wrap (hA : ExactArith A val) (hd : d ≠ 0)
    (hnext : (a.next A xs.length old v ts).Window A val d (xs ++ [(v, ts)]))
    (hwrap : (xs.length + 1) % d.toNat = 0) :
    (a.next A xs.length old v ts).Latched val d (xs ++ [(v, ts)]) := by
  subst hdepth
  have hpos := BitVec.toNat_pos_of_ne_zero hd
  have hlt := a.depth.isLt
  have hlen : (xs ++ [(v, ts)]).length = xs.length + 1 := by simp
  have hend : blocksEnd a.depth (xs.length + 1) = xs.length + 1 :=
    Nat.mul_div_cancel' (Nat.dvd_of_mod_eq_zero hwrap)
  have hle : a.depth.toNat ≤ xs.length + 1 := Nat.le_of_dvd (by omega) (Nat.dvd_of_mod_eq_zero hwrap)
  refine ⟨fun hfill => ?_, fun _ => ?_, fun _ => ?_⟩
  · rw [hlen] at hfill; omega
  · have hmean : (a.next A xs.length old v ts).lastAvg =
        A.sdivn (a.next A xs.length old v ts).acc a.depth.toNat := if_pos hwrap
    rw [hmean, hA.div _ _ hpos (by omega), hnext.sum_eq hA, hlen, hend]
    rw [List.take_of_length_le (by simp)]
  · have htime : (a.next A xs.length old v ts).lastTs = ts := if_pos (.inr (.inr hwrap))
    rw [hlen, hend, htime]
    simp

/-- The ring is not full yet: the sample itself is latched. -/
theorem Averager.next_latched_fill (hfill : xs.length + 1 < d.toNat) :
    (a.next A xs.length old v ts).Latched val d (xs ++ [(v, ts)]) := by
  subst hdepth
  have hlen : (xs ++ [(v, ts)]).length = xs.length + 1 := by simp
  have hmod : (xs.length + 1) % a.depth.toNat ≠ 0 := by rw [Nat.mod_eq_of_lt hfill]; omega
  refine ⟨fun _ v' ts' hlast => ?_, fun hfull => ?_, fun hfull => ?_⟩
  · obtain ⟨rfl, rfl⟩ : v = v' ∧ ts = ts' := by simpa using hlast
    exact ⟨(if_neg hmod).trans (if_pos hfill), if_pos (.inr (.inl hfill))⟩
  · rw [hlen] at hfull; omega
  · rw [hlen] at hfull; omega

/-- The sample is inside a block: the output latched before it stays. -/
theorem Averager.Latched.next_quiet (h : a.Latched val d xs) (hd : d ≠ 0) (hfull : d.toNat ≤ xs.length)
    (hwrap : (xs.length + 1) % d.toNat ≠ 0) :
    (a.next A xs.length old v ts).Latched val d (xs ++ [(v, ts)]) := by
  subst hdepth
  have hpos := BitVec.toNat_pos_of_ne_zero hd
  have hlen : (xs ++ [(v, ts)]).length = xs.length + 1 := by simp
  have hquiet : ¬ Reports a.depth.toNat (xs.length + 1) := by omega
  have hend : blocksEnd a.depth (xs.length + 1) = blocksEnd a.depth xs.length := by
    rw [blocksEnd, Nat.succ_div, if_neg (fun hdvd => hwrap (Nat.mod_eq_zero_of_dvd hdvd))]; rfl
  have hin : blocksEnd a.depth xs.length ≤ xs.length := Nat.mul_div_le ..
  have hmean : (a.next A xs.length old v ts).lastAvg = a.lastAvg :=
    (if_neg hwrap).trans (if_neg (by omega))
  have htime : (a.next A xs.length old v ts).lastTs = a.lastTs := if_neg hquiet
  refine ⟨fun hfill => ?_, fun _ => ?_, fun _ => ?_⟩
  · rw [hlen] at hfill; omega
  · rw [hmean, hlen, hend, h.mean hfull, List.map_append, List.take_append_of_le_length (by simpa)]
  · rw [htime, hlen, hend, List.map_append, List.getElem?_append_left (by simp; omega)]
    exact h.time hfull

end LatchedNext

theorem Averager.Latched.next (h : a.Latched val d xs) (hw : a.Window A val d xs) (hd : d ≠ 0)
    (hA : ExactArith A val) {old v : S} {ts : U32}
    (hnext : (a.next A xs.length old v ts).Window A val d (xs ++ [(v, ts)])) :
    (a.next A xs.length old v ts).Latched val d (xs ++ [(v, ts)]) := by
  have hdepth := hw.after.depth
  by_cases hwrap : (xs.length + 1) % d.toNat = 0
  · exact Averager.next_latched_wrap hdepth old v ts hA hd hnext hwrap
  rcases Nat.lt_or_ge (xs.length + 1) d.toNat with hfill | hge
  · exact Averager.next_latched_fill hdepth old v ts hfill
  · have hne : d.toNat ≠ xs.length + 1 := fun he => hwrap (by rw [he, Nat.mod_self])
    exact Averager.Latched.next_quiet hdepth old v ts h hd (by omega) hwrap

/-- Settles O13: the window and the latched output are kept together by every sample. -/
theorem averagerLatchedOutput : Obligations.AveragerLatchedOutput := by
  intro S A val a d xs v ts hA hd1 hd n m
  have hd0 := ne_zero_of_one_le_toNat hd1
  obtain ⟨b, hb, hwindow, hlatched⟩ := Averager.collects_of_step (A := A)
    (P := fun xs b => b.Window A val d xs ∧ b.Latched val d xs)
    (out := fun k => decide (Reports d.toNat k))
    (fun xs b v ts h => by
      obtain ⟨old, hb, hnext⟩ := h.1.collect hd0 hA v ts
      exact ⟨_, hb, hnext, h.2.next h.1 hd0 hA hnext⟩)
    xs [] _ ⟨Averager.clearedTo_window hA hd, Averager.clearedTo_latched A.szero hd0⟩
  rw [List.nil_append] at hwindow hlatched
  have hfilled := hwindow.after.filled hd0
  refine ⟨_, b, hb, fun hfill hlast => ?_, fun hfull => ⟨hlatched.mean hfull, hlatched.time hfull, ?_⟩⟩
  · obtain ⟨havg, htime⟩ := hlatched.fill hfill v ts hlast
    exact ⟨havg, htime, hfilled.trans (decide_eq_false (Nat.not_le.2 hfill))⟩
  · exact hfilled.trans (decide_eq_true hfull)

end Sys2Proof.Machine
end

section
/-! SUPPORT. The reference binding `B32` (spec/00_scope.md R9): its comparison, truncation and bits,
that a NaN stays in an accumulator (spec/70_reset_and_hazards.md R279), and that it is exact on small
multiples of one half. -/

namespace Sys2Proof.Machine

variable {x y : F32}

/-! ### Comparison and truncation of finite numbers -/

theorem fIsNaN_of_finite (h : fExp x ≠ 255) : fIsNaN x = false := by simp [fIsNaN, h]

theorem fIsInf_of_finite (h : fExp x ≠ 255) : fIsInf x = false := by simp [fIsInf, h]

theorem fLtZero_iff (h : fExp x ≠ 255) : fLtZero x = true ↔ fValue x < 0 := by
  unfold fLtZero fValue
  rw [fIsNaN_of_finite h, fIsInf_of_finite h]
  cases fNeg x
  · simp
  · simp [Nat.pos_iff_ne_zero]

theorem fLtZero_of_nan (h : fIsNaN x = true) : fLtZero x = false := by simp [fLtZero, h]

/-- A finite number that is not negative has its magnitude as its value, -0 included. -/
theorem fValue_of_nonneg (h : 0 ≤ fValue x) :
    fValue x = fUnits x ∧ (!fNeg x || fUnits x == 0) = true := by
  unfold fValue at *
  cases hn : fNeg x
  · simp
  · simp only [hn, if_true] at h ⊢
    have : fUnits x = 0 := by omega
    simp [this]

theorem fTrunc16_toNat (h : fExp x ≠ 255) (h0 : 0 ≤ fValue x) (hlt : fValue x < 65536 * 2 ^ 149) :
    ((fTrunc16 x).toNat : Int) = fValue x / 2 ^ 149 := by
  obtain ⟨hv, hsign⟩ := fValue_of_nonneg h0
  have hunits : fUnits x < 65536 * 2 ^ 149 := by rw [hv] at hlt; exact_mod_cast hlt
  have hq : fUnits x / 2 ^ 149 < 2 ^ 16 := Nat.div_lt_of_lt_mul (by omega)
  rw [fTrunc16, fIsNaN_of_finite h, fIsInf_of_finite h, hsign, decide_eq_true hunits, hv]
  simp only [Bool.not_false, Bool.and_true, if_true, BitVec.toNat_ofNat, Nat.mod_eq_of_lt hq]
  norm_cast

/-- Settles O59: the binding on patterns is that of the floats they stand for. -/
theorem b32ComparesTruncatesExposesBits : Obligations.B32ComparesTruncatesExposesBits := by
  intro c hc A
  have hA : A = onPatterns arithB32 := sampleArith_b32 hc
  rw [hA]
  simp only [onPatterns, sampleF32_f32Sample]
  exact ⟨rfl, fun _ _ => ⟨trivial, trivial⟩, fun _ _ => trivial, fun _ => fLtZero_iff,
    fun _ => fLtZero_of_nan, rfl, rfl, rfl, fun _ => fTrunc16_toNat, fun _ => rfl⟩

/-! ### A NaN stays (R279) -/

theorem fExp_or_ones (x : F32) : fExp (x ||| 0x7F800000#32) = 255 := by
  rw [fExp, BitVec.extractLsb'_or, show BitVec.extractLsb' 23 8 0x7F800000#32 = BitVec.allOnes 8 from rfl,
    BitVec.or_allOnes]
  rfl

theorem fFrac_or_one (x : F32) : fFrac (x ||| 1#32) ≠ 0 := by
  rw [fFrac, BitVec.extractLsb'_or, show BitVec.extractLsb' 0 23 1#32 = 1#23 from rfl]
  intro h
  have hzero := BitVec.or_eq_zero_iff.1 (BitVec.eq_of_toNat_eq (h.trans BitVec.toNat_zero.symm))
  exact absurd hzero.2 (by decide)

theorem fIsNaN_fNaN (bits : BitVec 32) : fIsNaN (fNaN bits) = true := by
  unfold fNaN
  dsimp only
  split
  · rw [BitVec.or_assoc, BitVec.or_comm 0x7F800000#32, ← BitVec.or_assoc]
    have hfrac : fFrac (bits ||| 1#32 ||| 0x7F800000#32) ≠ 0 := by
      rw [BitVec.or_assoc, BitVec.or_comm 1#32, ← BitVec.or_assoc]
      exact fFrac_or_one _
    simp [fIsNaN, fExp_or_ones, hfrac]
  next hfrac => simp [fIsNaN, fExp_or_ones, hfrac]

/-- Changing the sign leaves the exponent and the fraction. -/
theorem fNegate_fields (x : F32) : fExp (fNegate x) = fExp x ∧ fFrac (fNegate x) = fFrac x := by
  simp only [fExp, fFrac, fNegate, BitVec.extractLsb'_xor,
    show BitVec.extractLsb' 23 8 0x80000000#32 = 0#8 from rfl,
    show BitVec.extractLsb' 0 23 0x80000000#32 = 0#23 from rfl, BitVec.xor_zero, and_self]

theorem fIsNaN_fNegate (x : F32) : fIsNaN (fNegate x) = fIsNaN x := by
  simp only [fIsNaN, fNegate_fields]

/-- A sum with a NaN is a NaN, whichever operation it is for. -/
theorem fIsNaN_fAddWith (tag : SampleOp) (y' : F32) (h : (fIsNaN x || fIsNaN y) = true) :
    fIsNaN (fAddWith tag x y y') = true := by
  rw [fAddWith, if_pos h]
  exact fIsNaN_fNaN _

/-- Settles O14: the difference is a NaN if one of its operands is, and so is the sum. -/
theorem naNPoisonsAccumulator : Obligations.NaNPoisonsAccumulator := by
  intro c a b v old ts p hc hd ho hnan hb
  rw [sampleArith_b32 hc] at hb
  rcases Averager.collect_cases _ hb with ⟨h0, -⟩ | ⟨-, old', ho', co, la, lt, rfl, -⟩
  · exact absurd h0 hd
  obtain rfl : old = old' := by simpa using ho.symm.trans ho'
  change fIsNaN (sampleF32 (f32Sample (fAdd (sampleF32 (f32Sample (fSub _ _))) _))) = true
  rw [sampleF32_f32Sample, sampleF32_f32Sample]
  refine fIsNaN_fAddWith _ _ ?_
  rcases Bool.or_eq_true_iff.1 hnan with h | h
  · rw [fSub, fIsNaN_fAddWith _ _ (by rw [fIsNaN_fNegate]; exact h), Bool.true_or]
  · rw [h, Bool.or_true]

/-! ### Rounding what needs no rounding -/

/-- The three fields of a number, read from its sign and its magnitude's pattern. -/
theorem fWithSign_fields (neg : Bool) {mag : Nat} (h : mag < 2 ^ 31) :
    fNeg (fWithSign neg mag) = neg ∧ fExp (fWithSign neg mag) = mag / 2 ^ 23 ∧
      fFrac (fWithSign neg mag) = mag % 2 ^ 23 := by
  have hbits : (fWithSign neg mag).toNat = (if neg then 2 ^ 31 + mag else mag) := by
    rw [fWithSign, BitVec.toNat_ofNat, Nat.mod_eq_of_lt]
    split <;> omega
  rw [fNeg, BitVec.getLsbD, Nat.testBit_eq_decide_div_mod_eq, fExp, fFrac, BitVec.extractLsb'_toNat,
    BitVec.extractLsb'_toNat, Nat.shiftRight_eq_div_pow, Nat.shiftRight_eq_div_pow, hbits]
  cases neg
  · simp only [Bool.false_eq_true, if_false, decide_eq_false_iff_not]
    omega
  · simp only [if_true, decide_eq_true_iff]
    omega

/-- A significand of 24 bits and a shift that leaves the number finite. -/
theorem fWithSign_normal (neg : Bool) {shift q : Nat} (hs : shift < 253) (hq : 2 ^ 23 ≤ q)
    (hq' : q < 2 ^ 24) : fNeg (fWithSign neg (shift * 2 ^ 23 + q)) = neg ∧
      fExp (fWithSign neg (shift * 2 ^ 23 + q)) ≠ 255 ∧
      fUnits (fWithSign neg (shift * 2 ^ 23 + q)) = q * 2 ^ shift := by
  obtain ⟨hneg, hexp, hfrac⟩ := fWithSign_fields neg (mag := shift * 2 ^ 23 + q) (by omega)
  have hexp' : fExp (fWithSign neg (shift * 2 ^ 23 + q)) = shift + 1 := by rw [hexp]; omega
  have hfrac' : fFrac (fWithSign neg (shift * 2 ^ 23 + q)) + 2 ^ 23 = q := by rw [hfrac]; omega
  refine ⟨hneg, by omega, ?_⟩
  rw [fUnits, if_neg (by omega), hfrac', hexp', Nat.add_sub_cancel]

/-- A quotient that is a whole number of units is rounded as that number. -/
theorem fRound_mul (neg : Bool) (m : Nat) {n : Nat} (hn : 0 < n) :
    fRound neg (m * n) n = fRound neg m 1 := by
  have hrem (k : Nat) : m * n % (n * k) = n * (m % k) := by rw [Nat.mul_comm m, Nat.mul_mod_mul_left]
  have hquot (k : Nat) : m * n / (n * k) = m / k := by
    rw [Nat.mul_comm m, Nat.mul_div_mul_left _ _ hn]
  have hlt (k j : Nat) : n * k < 2 * (n * j) ↔ k < 2 * j := by
    rw [Nat.mul_left_comm, Nat.mul_lt_mul_left hn]
  have heq (k j : Nat) : 2 * (n * j) = n * k ↔ 2 * j = k := by
    rw [Nat.mul_left_comm, Nat.mul_right_inj hn.ne']
  simp only [fRound, Nat.mul_div_cancel _ hn, hrem, hquot, hlt, heq, Nat.div_one, Nat.one_mul]

/-- A magnitude of which at most 24 bits count is not rounded. -/
theorem fRound_exact (neg : Bool) {m shift q : Nat} (hm : m = q * 2 ^ shift)
    (hshift : Nat.log2 m - 23 = shift) (hmag : shift * 2 ^ 23 + q < 0x7F800000) :
    fRound neg m 1 = fWithSign neg (shift * 2 ^ 23 + q) := by
  have hpos : 0 < 2 ^ shift := Nat.two_pow_pos shift
  have hquot : m / 2 ^ shift = q := by rw [hm, Nat.mul_div_cancel _ hpos]
  have hrem : m % 2 ^ shift = 0 := by rw [hm, Nat.mul_mod_left]
  simp [fRound, hshift, hquot, hrem, hpos.ne]
  intro hle
  omega

/-! ### The small multiples of one half -/

/-- A positive number below 2^21, normalised to 24 bits: its significand and its binary logarithm. -/
theorem exists_significand {k : Nat} (h0 : k ≠ 0) (hk : k < 2 ^ 21) :
    ∃ e q, e ≤ 20 ∧ 2 ^ 23 ≤ q ∧ q < 2 ^ 24 ∧ k * 2 ^ 148 = q * 2 ^ (125 + e) ∧
      Nat.log2 (k * 2 ^ 148) - 23 = 125 + e := by
  obtain ⟨hlow, hhigh⟩ := (Nat.log2_eq_iff h0).1 rfl
  generalize Nat.log2 k = e at hlow hhigh
  have he : e < 21 := (Nat.pow_lt_pow_iff_right (by decide : 1 < 2)).1 (Nat.lt_of_le_of_lt hlow hk)
  have hpos : 0 < 2 ^ (23 - e) := Nat.two_pow_pos _
  refine ⟨e, k * 2 ^ (23 - e), by omega, ?_, ?_, ?_, ?_⟩
  · calc 2 ^ 23 = 2 ^ e * 2 ^ (23 - e) := by rw [← Nat.pow_add]; congr 1; omega
      _ ≤ k * 2 ^ (23 - e) := Nat.mul_le_mul_right _ hlow
  · calc k * 2 ^ (23 - e) < 2 ^ (e + 1) * 2 ^ (23 - e) := Nat.mul_lt_mul_of_pos_right hhigh hpos
      _ = 2 ^ 24 := by rw [← Nat.pow_add]; congr 1; omega
  · rw [Nat.mul_assoc, ← Nat.pow_add]
    congr 2
    omega
  · have hlog : Nat.log2 (k * 2 ^ 148) = e + 148 := by
      rw [Nat.log2_eq_iff (by positivity), Nat.pow_add, show e + 148 + 1 = e + 1 + 148 by omega,
        Nat.pow_add 2 (e + 1)]
      exact ⟨Nat.mul_le_mul_right _ hlow, Nat.mul_lt_mul_of_pos_right hhigh (by positivity)⟩
    omega

/-- The fields of `k / 2`: sign, finite, magnitude. -/
theorem b32Half_fields {k : Int} (hk : k.natAbs < 2 ^ 21) :
    fNeg (b32Half k) = decide (k < 0) ∧ fExp (b32Half k) ≠ 255 ∧
      fUnits (b32Half k) = k.natAbs * 2 ^ 148 := by
  by_cases h0 : k = 0
  · subst h0
    exact ⟨rfl, by decide, rfl⟩
  · obtain ⟨e, q, he, hq, hq', hm, hshift⟩ := exists_significand (by omega : k.natAbs ≠ 0) hk
    rw [b32Half, fRound_exact _ hm hshift (by omega), hm]
    exact fWithSign_normal _ (by omega) hq hq'

theorem fValue_b32Half {k : Int} (hk : k.natAbs < 2 ^ 21) : fValue (b32Half k) = k * 2 ^ 148 := by
  obtain ⟨hneg, -, hunits⟩ := b32Half_fields hk
  unfold fValue
  rw [hneg, hunits]
  by_cases h : k < 0
  · rw [if_pos (decide_eq_true h)]
    push_cast
    rw [abs_of_neg h]
    ring
  · rw [if_neg (by simpa using h)]
    push_cast
    rw [abs_of_nonneg (Int.not_lt.1 h)]

/-- The sum of two finite numbers that stand for multiples of one half is the exact sum: a zero sum is
+0 unless both are -0. -/
theorem fAddWith_halves (tag : SampleOp) (y' : F32) {i j : Int} (hx : fExp x ≠ 255) (hy : fExp y ≠ 255)
    (hxi : fValue x = i * 2 ^ 148) (hyj : fValue y = j * 2 ^ 148)
    (hsign : i + j = 0 → (fNeg x && fNeg y) = false) : fAddWith tag x y y' = b32Half (i + j) := by
  have hsum : fValue x + fValue y = (i + j) * 2 ^ 148 := by rw [hxi, hyj]; ring
  simp only [fAddWith, fIsNaN_of_finite hx, fIsNaN_of_finite hy, fIsInf_of_finite hx,
    fIsInf_of_finite hy, Bool.or_self, Bool.false_eq_true, if_false]
  unfold fSum
  rw [hsum]
  by_cases h0 : i + j = 0
  · rw [hsign h0, h0]
    rfl
  · have hne : (i + j) * 2 ^ 148 ≠ 0 := mul_ne_zero h0 (by norm_num)
    have hlt : (i + j) * 2 ^ 148 < 0 ↔ i + j < 0 := by constructor <;> intro h <;> omega
    simp only [if_neg hne, hlt, Int.natAbs_mul, b32Half]
    rfl

theorem fNeg_fNegate (y : F32) : fNeg (fNegate y) = !fNeg y := by
  simp only [fNeg, fNegate, BitVec.getLsbD_xor]
  exact Bool.xor_true _

theorem fValue_fNegate (y : F32) : fValue (fNegate y) = - fValue y := by
  have hunits : fUnits (fNegate y) = fUnits y := by simp only [fUnits, fNegate_fields]
  simp only [fValue, fNeg_fNegate, hunits]
  cases fNeg y <;> simp

/-- Settles O15: sums of small halves are exact sums of units, and a quotient that is a small half
needs no rounding. -/
theorem b32ExactOnSmallHalves : Obligations.B32ExactOnSmallHalves := by
  refine ⟨fun k hk => ?_, fun x y hx hy _ => ?_, fun x y hx hy _ => ?_, fun q n hn _ hq => ?_⟩
  · obtain ⟨-, hfin, -⟩ := b32Half_fields hk
    exact ⟨fValue_b32Half hk, fIsNaN_of_finite hfin⟩
  · obtain ⟨hxneg, hxfin, -⟩ := b32Half_fields hx
    obtain ⟨hyneg, hyfin, -⟩ := b32Half_fields hy
    refine fAddWith_halves _ _ hxfin hyfin (fValue_b32Half hx) (fValue_b32Half hy) fun h => ?_
    rw [hxneg, hyneg, Bool.and_eq_false_iff, decide_eq_false_iff_not, decide_eq_false_iff_not]
    omega
  · obtain ⟨hxneg, hxfin, -⟩ := b32Half_fields hx
    obtain ⟨hyneg, hyfin, -⟩ := b32Half_fields hy
    rw [sub_eq_add_neg]
    refine fAddWith_halves _ _ hxfin (by rwa [(fNegate_fields _).1]) (fValue_b32Half hx)
      (by rw [fValue_fNegate, fValue_b32Half hy, neg_mul]) fun h => ?_
    rw [fNeg_fNegate, hxneg, hyneg, Bool.and_eq_false_iff, decide_eq_false_iff_not,
      Bool.not_eq_false', decide_eq_true_iff]
    omega
  · obtain ⟨hneg, hfin, hunits⟩ := b32Half_fields hq
    have hsign : q * n < 0 ↔ q < 0 := by
      rw [← not_le, ← not_le, mul_nonneg_iff_of_pos_right (by omega)]
    have hmul : (q * n).natAbs * 2 ^ 148 = q.natAbs * 2 ^ 148 * n := by
      rw [Int.natAbs_mul, Int.natAbs_natCast]; ring
    change fDivNat _ n = _
    simp only [fDivNat, fIsNaN_of_finite hfin, fIsInf_of_finite hfin, Bool.false_eq_true, if_false,
      hneg, hunits, hmul, hsign, fRound_mul _ _ hn]
    rfl

end Sys2Proof.Machine
end
